-- ==== Sys2Proof/Word.lean ====
section
/-! DEFINITION. Word.lean: the word types of the model (00_scope.md R9: every value is an unsigned integer of a stated width). -/

namespace Sys2Proof

/-- A character of the serial link, a port's level, a syndrome operand (20_memory.md R43, R50). -/
abbrev Byte := BitVec 8

/-- The container of every bus vector, of the aggregate vector and of the chain: 64 bits, the widest the spec allows
(00_scope.md R8 `CHK_TOTAL`; 42_encoder.md R100). -/
abbrev Word := BitVec 64

/-- A block index `b`, 2 bits wide (30_encoding.md R67); a transmitter has at most four blocks (00_scope.md R7). -/
abbrev BlockIdx := Fin 4

end Sys2Proof
end

