-- ==== Sys2Proof/Config.lean ====
section
/-! DEFINITION. Config.lean: the configuration records `CFG_TX` and `CFG_RX` (00_scope.md R7) and the free values, which the
spec leaves to the environment. -/

namespace Sys2Proof

/-- Framing policy (00_scope.md R7, 30_encoding.md R71). -/
inductive Policy where
  | nibble
  | hexblock
  deriving DecidableEq, Repr

/-- When HEXBLOCK refreshes the outputs (00_scope.md R7, 43_framer.md R109). -/
inductive RefreshPolicy where
  | perBatch
  | perDigit
  | perBlockApply
  deriving DecidableEq, Repr

/-- Polarity of the driver's data line and of the sampler (44_driver.md R113, 45_sampler.md R128). -/
inductive Polarity where
  | activeHigh
  | activeLow
  deriving DecidableEq, Repr

/-- The receiver's two input ports (00_scope.md R7 `PIN_MAP`). -/
inductive Port where
  | a
  | b
  deriving DecidableEq, Repr

/-- An input pin: a port and a pin number 0..7 (00_scope.md R7 `PIN_MAP`). -/
structure PinRef where
  port : Port
  pin  : Fin 8
  deriving DecidableEq, Repr

/-- The level of an input pin at a read: low, high, or driven by nothing (45_sampler.md R128). -/
inductive PinLevel where
  | low
  | high
  | floating
  deriving DecidableEq, Repr, Inhabited

/-- The eight pins of an input port, by pin number. -/
abbrev PortPins := Vector PinLevel 8

/-- The node pins that carry DATA, CLK and LATCH, each by a number; no rule depends on it (00_scope.md R7 `DRV_PINS`). -/
structure DrvPins where
  data  : Nat
  clk   : Nat
  latch : Nat
  deriving DecidableEq, Repr

/-- Transmitter configuration (00_scope.md R7, first table). `N[b]`, `OFF[b]`, `NSUM` and `CHAIN_LEN` are derived
(Machine/Geometry.lean). The fields admit ill-formed values, which the checks of R8 refuse. -/
structure CfgTx where
  k              : Nat
  r              : List Nat
  totalBits      : Nat
  policy         : Policy
  refreshPolicy  : RefreshPolicy
  termResetsFill : Bool
  halfPeriod     : Nat
  drvPol         : Polarity
  drvPins        : DrvPins
  deriving DecidableEq, Repr

/-- Receiver configuration (00_scope.md R7, second table). `PIN_MAP` is a partial map, held as pairs of a bit index and a pin
(log 21). -/
structure CfgRx where
  rRx    : Nat
  pinMap : List (Nat × PinRef)
  polRx  : Polarity
  deriving DecidableEq, Repr

/-- FREE VALUE (log 10): the pins of a port at a read when no answer of ENV is listed in State. `PortRead` is "a draw from the
environment, under no law" (00_scope.md R12, 93_implementation_defined.md U17). -/
opaque Config.freePortPins : Port → Nat → PortPins

/-- FREE VALUE (log 11): whether the arriving byte replaces the old one at an overrun, when no outcome is listed in State
(60_exceptions.md R148, R149; 93_implementation_defined.md U15, U16). -/
opaque Config.freeOverrun : Nat → Bool

end Sys2Proof
end

