-- ==== Sys2Proof/Machine/Geometry.lean ====
section
/-! DEFINITION. Machine/Geometry.lean: what is derived from a configuration: block widths and offsets, the well-formedness
checks of 00_scope.md R8, and the default pin map. -/

namespace Sys2Proof

/-- `mask_n(v) = v & (2^n − 1)` (00_scope.md R10). -/
def maskLow {w : Nat} (n : Nat) (v : BitVec w) : BitVec w := v &&& BitVec.ofNat w (2 ^ n - 1)

/-- The legal check-bit widths (00_scope.md R7 `R[b]`, 41_codec.md R80). -/
def legalWidth (r : Nat) : Bool := r == 3 || r == 4 || r == 5 || r == 6

/-- `R[b]`; a list shorter than K has no legal entry there. -/
def CfgTx.rAt (c : CfgTx) (b : Nat) : Nat := c.r.getD b 0

/-- `N[b] = 2^R[b] − 1` (00_scope.md R7, R11). -/
def CfgTx.nAt (c : CfgTx) (b : Nat) : Nat := 2 ^ c.rAt b - 1

/-- `OFF[b]`, the sum of `N[j]` for `j < b` (00_scope.md R7; 42_encoder.md R100). -/
def CfgTx.off (c : CfgTx) : Nat → Nat
  | 0     => 0
  | b + 1 => c.off b + c.nAt b

/-- `NSUM`, the sum of `N[b]` over all `b < K` (00_scope.md R7). -/
def CfgTx.nsum (c : CfgTx) : Nat := c.off c.k

/-- `CHAIN_LEN`, equal to `TOTAL_BITS` (00_scope.md R7). -/
def CfgTx.chainLen (c : CfgTx) : Nat := c.totalBits

/-- The active blocks `0 .. K−1` in ascending order. -/
def CfgTx.blocks (c : CfgTx) : List BlockIdx := [0, 1, 2, 3].take c.k

/-- `N_RX = 2^R_RX − 1` (00_scope.md R7). -/
def CfgRx.nRx (c : CfgRx) : Nat := 2 ^ c.rRx - 1

/-- `PIN_MAP[k]`, none where bit `k` is not mapped; of two entries for one bit the first counts (log 21). -/
def CfgRx.pinOf (c : CfgRx) (k : Nat) : Option PinRef := c.pinMap.lookup k

/-- Whether `PIN_MAP` references a port (45_sampler.md R126). -/
def CfgRx.usesPort (c : CfgRx) (p : Port) : Bool := c.pinMap.any fun e => e.2.port == p

/-- The names of the configuration checks (00_scope.md R8); `chkDrvPins` is the model's own name for the legal values of
`DRV_PINS` (R7, R28; log 20). -/
inductive Check where
  | chkK
  | chkR
  | chkNsum
  | chkTotal
  | chkNib
  | chkRrx
  | chkPin
  | chkHp
  | chkDrvPins
  deriving DecidableEq, Repr

/-- One check of a transmitter configuration (00_scope.md R8); the receiver's checks hold of it. -/
def CfgTx.passes (c : CfgTx) : Check → Bool
  | .chkK       => decide (1 ≤ c.k) && decide (c.k ≤ 4)
  | .chkR       => (List.range c.k).all fun b => legalWidth (c.rAt b)
  | .chkNsum    => decide (c.nsum ≤ 64)
  | .chkTotal   => decide (c.nsum ≤ c.totalBits) && decide (c.totalBits ≤ 64)
  | .chkNib     => !(c.policy == .nibble) || (c.k == 1 && c.rAt 0 == 4)
  | .chkRrx     => true
  | .chkPin     => true
  | .chkHp      => decide (0 < c.halfPeriod)
  | .chkDrvPins => c.drvPins.data != c.drvPins.clk && c.drvPins.data != c.drvPins.latch && c.drvPins.clk != c.drvPins.latch

/-- One check of a receiver configuration (00_scope.md R8); the transmitter's checks hold of it. -/
def CfgRx.passes (c : CfgRx) : Check → Bool
  | .chkRrx => c.rRx == 3 || c.rRx == 4
  | .chkPin => c.pinMap.all fun e => decide (e.1 < c.nRx)
  | .chkK   => true
  | .chkR   => true
  | .chkNsum => true
  | .chkTotal => true
  | .chkNib => true
  | .chkHp  => true
  | .chkDrvPins => true

/-- The checks in the order of 00_scope.md R8, the model's own one last (log 22). -/
def Check.inOrder : List Check :=
  [.chkK, .chkR, .chkNsum, .chkTotal, .chkNib, .chkRrx, .chkPin, .chkHp, .chkDrvPins]

/-- The first check that a transmitter configuration fails. -/
def CfgTx.failed (c : CfgTx) : Option Check := Check.inOrder.find? fun q => !c.passes q

/-- The first check that a receiver configuration fails. -/
def CfgRx.failed (c : CfgRx) : Option Check := Check.inOrder.find? fun q => !c.passes q

/-- The entries of the default `PIN_MAP` under R_RX = 4, given the OPEN port B pins (45_sampler.md R129). -/
def defaultPins (b0 b1 b2 : Fin 8) : List (Nat × PinRef) :=
  [(0, ⟨.a, 0⟩), (1, ⟨.a, 1⟩), (2, ⟨.a, 2⟩), (3, ⟨.a, 3⟩), (4, ⟨.a, 4⟩), (5, ⟨.a, 5⟩), (6, ⟨.a, 6⟩), (7, ⟨.a, 7⟩),
   (8, ⟨.b, b0⟩), (9, ⟨.b, b1⟩), (10, ⟨.b, b2⟩)]

/-- The default `PIN_MAP`: under a smaller R_RX only the entries with `k < N_RX` (45_sampler.md R129). -/
def defaultPinMap (rRx : Nat) (b0 b1 b2 : Fin 8) : List (Nat × PinRef) :=
  (defaultPins b0 b1 b2).filter fun e => decide (e.1 < 2 ^ rRx - 1)

/-- The legacy single-block mode with R = 4 and 15 wires (00_scope.md R7), the OPEN parameters as arguments. -/
def CfgTx.legacy (policy : Policy) (termResetsFill : Bool) (halfPeriod : Nat) (pins : DrvPins) : CfgTx where
  k              := 1
  r              := [4]
  totalBits      := 15
  policy         := policy
  refreshPolicy  := .perBatch
  termResetsFill := termResetsFill
  halfPeriod     := halfPeriod
  drvPol         := .activeHigh
  drvPins        := pins

/-- The default receiver (00_scope.md R7), the OPEN parameters as arguments. -/
def CfgRx.standard (polRx : Polarity) (b0 b1 b2 : Fin 8) : CfgRx where
  rRx    := 4
  pinMap := defaultPinMap 4 b0 b1 b2
  polRx  := polRx

end Sys2Proof
end

