-- ==== Sys2Proof/Syntax.lean ====
section
/-! DEFINITION. Syntax.lean: the instructions, one constructor per row of spec/opcode_table.json. -/

namespace Sys2Proof

/-- The two terminator bytes (30_encoding.md R65, R66). -/
inductive Terminator where
  | cr
  | lf
  deriving DecidableEq, Repr

/-- The operations of the CORE: the seven classes of an input byte (30_encoding.md R65, R66) and the sixteen request tags
(30_encoding.md R67, R75). A digit class carries the digit's offset in its class, a terminator class which terminator it is. -/
inductive Instr where
  /-- NIB.TERM (43_framer.md R105). -/
  | nibTerm (t : Terminator)
  /-- NIB.DATA with `HI = c[7:4]` and `LO = c[3:0]` (43_framer.md R104). -/
  | nibData (hi lo : BitVec 4)
  /-- HEX.TERM (43_framer.md R107). -/
  | hexTerm (t : Terminator)
  /-- HEX.DIG09: the character '0' + `d` (43_framer.md R106). -/
  | hexDig09 (d : Fin 10)
  /-- HEX.DIGUC: the character 'A' + `d` (43_framer.md R106). -/
  | hexDiguc (d : Fin 6)
  /-- HEX.DIGLC: the character 'a' + `d` (43_framer.md R106). -/
  | hexDiglc (d : Fin 6)
  /-- HEX.DISCARD: any other byte (43_framer.md R108). -/
  | hexDiscard (c : Byte)
  /-- OPSEL 0x0 (41_codec.md R81). -/
  | syn (v : Word) (r : BitVec 3)
  /-- OPSEL 0x1 (41_codec.md R83). -/
  | mincorr (t : Byte) (r : BitVec 3)
  /-- OPSEL 0x2 (42_encoder.md R90). -/
  | apply (b : BlockIdx) (s : Byte)
  /-- OPSEL 0x3 (42_encoder.md R93). -/
  | applyBatch
  /-- OPSEL 0x4 (44_driver.md R113). -/
  | refresh
  /-- OPSEL 0x5 (43_framer.md R102). -/
  | poll
  /-- OPSEL 0x6 (43_framer.md R112). -/
  | ackBatch
  /-- OPSEL 0x7 (60_exceptions.md R145). -/
  | csEnter
  /-- OPSEL 0x8 (60_exceptions.md R146). -/
  | csExit
  /-- OPSEL 0x9 (60_exceptions.md R148). -/
  | uartArrive (c : Byte)
  /-- OPSEL 0xA (60_exceptions.md R149). -/
  | isrRx
  /-- OPSEL 0xB (45_sampler.md R126). -/
  | sample
  /-- OPSEL 0xC (46_reporter.md R132). -/
  | report
  /-- OPSEL 0xD (46_reporter.md R136). -/
  | rxCycle
  /-- OPSEL 0xE, reserved (30_encoding.md R75). -/
  | reservedE
  /-- OPSEL 0xF, reserved (30_encoding.md R75). -/
  | reservedF
  deriving DecidableEq, Repr

/-- What `decodeByte` answers: the class of an input byte with its fields (30_encoding.md R65, R66, R73). -/
inductive InputClass where
  | nibTerm (t : Terminator)
  | nibData (hi lo : BitVec 4)
  | hexTerm (t : Terminator)
  | hexDig09 (d : Fin 10)
  | hexDiguc (d : Fin 6)
  | hexDiglc (d : Fin 6)
  | hexDiscard (c : Byte)
  deriving DecidableEq, Repr

/-- The instruction a class stands for. -/
def InputClass.toInstr : InputClass → Instr
  | .nibTerm t    => .nibTerm t
  | .nibData h l  => .nibData h l
  | .hexTerm t    => .hexTerm t
  | .hexDig09 d   => .hexDig09 d
  | .hexDiguc d   => .hexDiguc d
  | .hexDiglc d   => .hexDiglc d
  | .hexDiscard c => .hexDiscard c

/-- The policy under which a class occurs (43_framer.md R103). -/
def InputClass.policy : InputClass → Policy
  | .nibTerm _    => .nibble
  | .nibData _ _  => .nibble
  | .hexTerm _    => .hexblock
  | .hexDig09 _   => .hexblock
  | .hexDiguc _   => .hexblock
  | .hexDiglc _   => .hexblock
  | .hexDiscard _ => .hexblock

end Sys2Proof
end

