-- ==== Sys2Proof/WellFormed.lean ====
section
/-! DEFINITION. WellFormed.lean: which instructions the encoding admits, and which configurations 00_scope.md R8 admits. -/

namespace Sys2Proof

/-- The byte is a terminator, 0x0D or 0x0A (30_encoding.md R65, R66). -/
def isTerminator (c : Byte) : Bool := c == 0x0D#8 || c == 0x0A#8

/-- The byte is a hexadecimal digit character (30_encoding.md R66). -/
def isHexDigit (c : Byte) : Bool :=
  (decide (0x30 ≤ c.toNat) && decide (c.toNat ≤ 0x39)) || (decide (0x41 ≤ c.toNat) && decide (c.toNat ≤ 0x46)) ||
    (decide (0x61 ≤ c.toNat) && decide (c.toNat ≤ 0x66))

/-- Whether an instruction is one the encoding admits. A NIB.DATA pair is never a terminator byte and a discarded byte is
neither terminator nor digit (30_encoding.md R65, R66, R75); a codec request has a legal check-bit count (R75); the reserved
tags are no well-formed request (R75). The bound of APPLY's block index depends on the configuration and is checked when the
request runs (42_encoder.md R90). -/
def Instr.wellFormed : Instr → Bool
  | .nibTerm _     => true
  | .nibData hi lo => !isTerminator (hi ++ lo)
  | .hexTerm _     => true
  | .hexDig09 _    => true
  | .hexDiguc _    => true
  | .hexDiglc _    => true
  | .hexDiscard c  => !isTerminator c && !isHexDigit c
  | .syn _ r       => legalWidth r.toNat
  | .mincorr _ r   => legalWidth r.toNat
  | .apply _ _     => true
  | .applyBatch    => true
  | .refresh       => true
  | .poll          => true
  | .ackBatch      => true
  | .csEnter       => true
  | .csExit        => true
  | .uartArrive _  => true
  | .isrRx         => true
  | .sample        => true
  | .report        => true
  | .rxCycle       => true
  | .reservedE     => false
  | .reservedF     => false

/-- An instruction is well-formed. -/
abbrev Instr.WellFormed (i : Instr) : Prop := i.wellFormed = true

/-- A transmitter configuration passes every check (00_scope.md R8). -/
abbrev CfgTx.WellFormed (c : CfgTx) : Prop := c.failed = none

/-- A receiver configuration passes every check (00_scope.md R8). -/
abbrev CfgRx.WellFormed (c : CfgRx) : Prop := c.failed = none

end Sys2Proof
end

