-- ==== Sys2Proof/Decode.lean ====
section
/-! DEFINITION. Decode.lean: the decoder of input bytes (30_encoding.md R73) and of request records (R67, R75), and the encoder
written from the same tables. -/

namespace Sys2Proof

/-! ### Input bytes -/

/-- Class of an input byte under NIBBLE (30_encoding.md R65). -/
def decodeNibble (c : Byte) : InputClass :=
  if c = 0x0D#8 then .nibTerm .cr
  else if c = 0x0A#8 then .nibTerm .lf
  else .nibData (c.extractLsb' 4 4) (c.extractLsb' 0 4)

/-- Class of an input byte under HEXBLOCK (30_encoding.md R66; ASCII codes: log 17). -/
def decodeHexblock (c : Byte) : InputClass :=
  if c = 0x0D#8 then .hexTerm .cr
  else if c = 0x0A#8 then .hexTerm .lf
  else if h : 0x30 ≤ c.toNat ∧ c.toNat ≤ 0x39 then .hexDig09 ⟨c.toNat - 0x30, by omega⟩
  else if h : 0x41 ≤ c.toNat ∧ c.toNat ≤ 0x46 then .hexDiguc ⟨c.toNat - 0x41, by omega⟩
  else if h : 0x61 ≤ c.toNat ∧ c.toNat ≤ 0x66 then .hexDiglc ⟨c.toNat - 0x61, by omega⟩
  else .hexDiscard c

/-- `decodeByte` (30_encoding.md R73): total on all 256 bytes under each policy. -/
def decodeByte : Policy → Byte → InputClass
  | .nibble, c   => decodeNibble c
  | .hexblock, c => decodeHexblock c

/-! ### Request records -/

/-- A request record as one word. The spec fixes the tag and the operand widths and no packing (30_encoding.md R67); the layout
is the model's (log 1): the tag in bits 3..0, zeros in bits 7..4, the operands from bit 8 on in the order of R67's table, each
from its least significant bit, zeros above them. -/
abbrev ReqWord := BitVec 80

/-- Why a word is no request record. -/
inductive DecodeError where
  /-- A bit that the record's layout leaves unused is 1 (log 28). -/
  | unusedBits
  deriving DecidableEq, Repr

/-- The instruction `i` of a record whose operands end below bit `n`, if every bit from `n` on is 0. -/
def withZeroAbove (w : ReqWord) (n : Nat) (i : Instr) : Except DecodeError Instr :=
  if w.toNat / 2 ^ n = 0 then .ok i else .error .unusedBits

/-- The instruction a tag selects, its operands taken from the record (30_encoding.md R67). -/
def decodeTag (w : ReqWord) : Fin 16 → Except DecodeError Instr
  | 0x0 => withZeroAbove w 75 (.syn (w.extractLsb' 8 64) (w.extractLsb' 72 3))
  | 0x1 => withZeroAbove w 19 (.mincorr (w.extractLsb' 8 8) (w.extractLsb' 16 3))
  | 0x2 => withZeroAbove w 18 (.apply (w.extractLsb' 8 2).toFin (w.extractLsb' 10 8))
  | 0x3 => withZeroAbove w 8 .applyBatch
  | 0x4 => withZeroAbove w 8 .refresh
  | 0x5 => withZeroAbove w 8 .poll
  | 0x6 => withZeroAbove w 8 .ackBatch
  | 0x7 => withZeroAbove w 8 .csEnter
  | 0x8 => withZeroAbove w 8 .csExit
  | 0x9 => withZeroAbove w 16 (.uartArrive (w.extractLsb' 8 8))
  | 0xA => withZeroAbove w 8 .isrRx
  | 0xB => withZeroAbove w 8 .sample
  | 0xC => withZeroAbove w 8 .report
  | 0xD => withZeroAbove w 8 .rxCycle
  | 0xE => withZeroAbove w 8 .reservedE
  | 0xF => withZeroAbove w 8 .reservedF
  | ⟨_ + 16, h⟩ => absurd h (by omega)

/-- Decoding of a request record: total, and rejecting by name. -/
def decodeRequest (w : ReqWord) : Except DecodeError Instr :=
  if w.extractLsb' 4 4 = 0#4 then decodeTag w (w.extractLsb' 0 4).toFin else .error .unusedBits

/-! ### One form for both formats -/

/-- The code of an instruction: an input byte together with the policy that selects its decode table (30_encoding.md R71), or a
request record. -/
inductive Code where
  | byte (p : Policy) (c : Byte)
  | record (w : ReqWord)
  deriving DecidableEq, Repr

/-- Decoding of either format. -/
def decode : Code → Except DecodeError Instr
  | .byte p c => .ok (decodeByte p c).toInstr
  | .record w => decodeRequest w

/-! ### Encoding -/

/-- The byte of a terminator (00_scope.md R13). -/
def Terminator.byte : Terminator → Byte
  | .cr => 0x0D#8
  | .lf => 0x0A#8

/-- A record from its tag and its operand bits, which start at bit 8. -/
def packRecord (tag : BitVec 4) (operands : BitVec 72) : ReqWord := operands ++ (0#4 ++ tag)

/-- The code of an instruction, from the tables of 30_encoding.md R65 to R67. -/
def encode : Instr → Code
  | .nibTerm t     => .byte .nibble t.byte
  | .nibData hi lo => .byte .nibble (hi ++ lo)
  | .hexTerm t     => .byte .hexblock t.byte
  | .hexDig09 d    => .byte .hexblock (BitVec.ofNat 8 (0x30 + d.val))
  | .hexDiguc d    => .byte .hexblock (BitVec.ofNat 8 (0x41 + d.val))
  | .hexDiglc d    => .byte .hexblock (BitVec.ofNat 8 (0x61 + d.val))
  | .hexDiscard c  => .byte .hexblock c
  | .syn v r       => .record (packRecord 0x0#4 ((r ++ v).setWidth 72))
  | .mincorr t r   => .record (packRecord 0x1#4 ((r ++ t).setWidth 72))
  | .apply b s     => .record (packRecord 0x2#4 ((s ++ BitVec.ofFin (w := 2) b).setWidth 72))
  | .applyBatch    => .record (packRecord 0x3#4 0)
  | .refresh       => .record (packRecord 0x4#4 0)
  | .poll          => .record (packRecord 0x5#4 0)
  | .ackBatch      => .record (packRecord 0x6#4 0)
  | .csEnter       => .record (packRecord 0x7#4 0)
  | .csExit        => .record (packRecord 0x8#4 0)
  | .uartArrive c  => .record (packRecord 0x9#4 (c.setWidth 72))
  | .isrRx         => .record (packRecord 0xA#4 0)
  | .sample        => .record (packRecord 0xB#4 0)
  | .report        => .record (packRecord 0xC#4 0)
  | .rxCycle       => .record (packRecord 0xD#4 0)
  | .reservedE     => .record (packRecord 0xE#4 0)
  | .reservedF     => .record (packRecord 0xF#4 0)

/-! ### The table's numbering -/

/-- Whether a table word is an input byte: 8 bits or fewer, and above every request tag. The table numbers the tags and the
bytes 0x00..0x0F alike; those words are read as request records (log 15). -/
def isTableByte (nbits w : Nat) : Bool := decide (nbits ≤ 8) && decide (16 ≤ w)

/-- The code of a word of spec/opcode_table.json: an input byte under HEXBLOCK, or a request record (log 15). -/
def tableCode (nbits w : Nat) : Code :=
  if isTableByte nbits w then .byte .hexblock (BitVec.ofNat 8 w) else .record (BitVec.ofNat 80 w)

/-- The instruction that the decoder reads from a word of spec/opcode_table.json. -/
def decodeTableWord (nbits w : Nat) : Option Instr := (decode (tableCode nbits w)).toOption

end Sys2Proof
end

