-- ==== Sys2Proof/Machine/State.lean ====
section
/-! DEFINITION. Machine/State.lean: the state of the two nodes and of the agents around them (10_state.md R16 to R42), as plain
data, and the state after reset (70_reset_and_hazards.md R160 to R165). -/

namespace Sys2Proof.Machine

/-- The fault codes of 60_exceptions.md R141 with their recorded values. A node keeps one in its FAULT field (10_state.md R37).
`raise Fault(code)` is a next state with that field set, so no step answers the outcome `fault` (log 5). -/
inductive Fault where
  /-- FLT_CFG, raised by the configuration check at reset; records the failed check (R143). Safe: the node takes no step. -/
  | cfg (failed : Check)
  /-- FLT_BLOCK, raised by APPLY on a block index ≥ K; records the index (42_encoder.md R90). Safe. -/
  | block (b : BlockIdx)
  /-- FLT_UNWRITTEN, raised by REPORT before any SAMPLE ("raise Fault(FLT_UNWRITTEN)", 46_reporter.md R132; 10_state.md R36;
  60_exceptions.md R141), and by APPLYBATCH on a BUF entry that was never written ("a fault of the model, never a value",
  10_state.md R42; 93_implementation_defined.md U14; its code is log 13). Safe: the node stops where the spec says that a read is a
  fault. -/
  | unwritten
  /-- FLT_NEST, raised by CSEnter inside a critical section and by CSExit outside one (R145, R146). Safe. -/
  | nest
  /-- FLT_REFUSED, raised by SYN and MINCORR on a width outside 3..6 and by the reserved tags; records the request (R141). Safe. -/
  | refused (request : Instr)
  deriving DecidableEq, Repr

/-- The code numbers of 60_exceptions.md R141. -/
def Fault.code : Fault → Nat
  | .cfg _     => 1
  | .block _   => 2
  | .unwritten => 3
  | .nest      => 4
  | .refused _ => 5

/-- Why a step has no meaning. -/
inductive Refusal where
  /-- Raised by an arm of `exec` whose instruction has no meaning yet; no arm is left so. Safe. -/
  | notModelled (mnemonic : String)
  /-- Raised by an input-byte instruction run while the transmitter's POLICY is the other one, where the spec defines no FEED
  (43_framer.md R103, R104; log 14). POLL never raises it. Safe. -/
  | otherPolicy (needed : Policy)
  /-- Raised by a step whose scheduled word is no request record (log 28). Safe. -/
  | undecodable (why : DecodeError)
  deriving DecidableEq, Repr

/-- The two nodes (00_scope.md R3). -/
inductive Node where
  | tx
  | rx
  deriving DecidableEq, Repr

/-- The transmitter's three output lines (44_driver.md, 30_encoding.md R69). -/
inductive Line where
  | data
  | clk
  | latch
  deriving DecidableEq, Repr

/-- Format `LT`, a line-trace event (30_encoding.md R69). -/
inductive LineEvent where
  | line (l : Line) (level : Bool)
  | wait (d : Nat)
  deriving DecidableEq, Repr

/-- An event of ETRACE (10_state.md R32). -/
inductive TxEvent where
  | batchComplete
  | refreshed (a : Word)
  | applied (b : BlockIdx) (sNew : Byte) (w : Word)
  deriving DecidableEq, Repr

/-- A BUF entry: its digit, and whether FEED has written it since reset (10_state.md R40 "unwritten"). The mark is the model's own; it
plays the part that SAMPLED_VALID plays for SAMPLED (R36, log 4): by R42 an entry that was never written is not read as a value. -/
structure BufEntry where
  digit   : BitVec 4
  written : Bool
  deriving DecidableEq, Repr

/-- The interrupt-mask state (10_state.md R27, R35) and the FAULT field (R37), which both nodes have. -/
structure Control where
  ie      : Bool
  inCs    : Bool
  savedIe : Bool
  fault   : Option Fault
  deriving DecidableEq, Repr

/-- The transmitter record `S_TX` (10_state.md R40) with its configuration. `v`, `sr` and `out` stand in 64-bit containers whose
bits above N[b] or CHAIN_LEN stay 0 (R19, R33); entries of `v` and `buf` at or above K belong to no block (log 23). -/
structure TxNode where
  cfg      : CfgTx
  v        : Vector Word 4
  buf      : Vector BufEntry 4
  fill     : Fin 4
  batch    : Bool
  slotFull : Bool
  slotData : Byte
  uartPend : Bool
  uartByte : Byte
  ctl      : Control
  dataL    : Bool
  clkL     : Bool
  latchL   : Bool
  sr       : Word
  out      : Word
  ltrace   : List LineEvent
  etrace   : List TxEvent
  deriving DecidableEq, Repr

/-- The receiver record `S_RX` (10_state.md R41) with its configuration. `sending` is the model's own: the bytes an open REPORT
has still to send, that is, where RX_MAIN is held inside SerialSend (46_reporter.md R135, log 12). -/
structure RxNode where
  cfg          : CfgRx
  sampled      : Word
  sampledValid : Bool
  ctl          : Control
  txout        : List Byte
  sending      : List Byte
  deriving DecidableEq, Repr

/-- The environment's choices (the model's own field, log 10 and log 11): the pins of each port at its coming reads, the outcomes of
the coming overrun draws (true: the arriving byte replaces the old one), and how many free values have been taken where a list was
used up. -/
structure Env where
  portA   : List PortPins
  portB   : List PortPins
  overrun : List Bool
  taken   : Nat
  deriving DecidableEq, Repr

/-- One turn of the schedule (log 7): a request record, taken at `site` when both nodes can serve it (log 8), or HOST_OUT's
report of transmit-ready (10_state.md R17). -/
inductive Turn where
  | request (site : Node) (word : ReqWord)
  | transmitReady
  deriving DecidableEq, Repr

/-- The whole machine: the two node records, and what decides the agents' steps (the model's own fields, log 7 to log 12). -/
structure State where
  tx       : TxNode
  rx       : RxNode
  schedule : List Turn
  site     : Node
  hostOut  : Nat
  env      : Env
  results  : List Word
  deriving DecidableEq, Repr

/-- What power-on leaves open: the draws of 10_state.md R40 (lines and chain), and the values behind the fields that R40 and R41
call unwritten, which no admitted path reads. -/
structure ResetDraws where
  dataL     : Bool
  clkL      : Bool
  latchL    : Bool
  sr        : Word
  out       : Word
  digits    : Vector (BitVec 4) 4
  slotData  : Byte
  uartByte  : Byte
  txSavedIe : Bool
  rxSavedIe : Bool
  sampled   : Word
  deriving DecidableEq, Repr

/-- The transmitter after reset (10_state.md R40): IE = 1 as the main loop starts (R162), FAULT = FLT_CFG when a check fails
(60_exceptions.md R143). -/
def TxNode.resetWith (c : CfgTx) (d : ResetDraws) : TxNode where
  cfg      := c
  v        := Vector.replicate 4 0
  buf      := #v[⟨d.digits[0], false⟩, ⟨d.digits[1], false⟩, ⟨d.digits[2], false⟩, ⟨d.digits[3], false⟩]
  fill     := 0
  batch    := false
  slotFull := false
  slotData := d.slotData
  uartPend := false
  uartByte := d.uartByte
  ctl      := ⟨true, false, d.txSavedIe, c.failed.map Fault.cfg⟩
  dataL    := d.dataL
  clkL     := d.clkL
  latchL   := d.latchL
  sr       := maskLow c.chainLen d.sr
  out      := maskLow c.chainLen d.out
  ltrace   := []
  etrace   := []

/-- The receiver after reset (10_state.md R41). -/
def RxNode.resetWith (c : CfgRx) (d : ResetDraws) : RxNode where
  cfg          := c
  sampled      := maskLow c.nRx d.sampled
  sampledValid := false
  ctl          := ⟨true, false, d.rxSavedIe, c.failed.map Fault.cfg⟩
  txout        := []
  sending      := []

/-- The machine after power-on of both nodes, for a given configuration and given draws (70_reset_and_hazards.md R160, R161). -/
def State.resetWith (ct : CfgTx) (cr : CfgRx) (d : ResetDraws) : State where
  tx       := TxNode.resetWith ct d
  rx       := RxNode.resetWith cr d
  schedule := []
  site     := .tx
  hostOut  := 0
  env      := ⟨[], [], [], 0⟩
  results  := []

/-- All draws 0 (DESIGN CHOICE, log 3 and log 4). -/
def ResetDraws.zero : ResetDraws where
  dataL     := false
  clkL      := false
  latchL    := false
  sr        := 0
  out       := 0
  digits    := Vector.replicate 4 0
  slotData  := 0
  uartByte  := 0
  txSavedIe := false
  rxSavedIe := false
  sampled   := 0

/-- The one state after reset that the host's interface asks for. Its configuration is the well-formed example of
95_test_vectors.md V13 with the premises of V10 and P4 for the OPEN receiver fields, and its draws are 0 (DESIGN CHOICE, log 2,
log 3, log 4). A statement about reset is made of `State.resetWith`, for every configuration and every draw. -/
def State.reset : State :=
  State.resetWith (CfgTx.legacy .nibble false 1 ⟨0, 1, 2⟩) (CfgRx.standard .activeLow 0 1 2) ResetDraws.zero

end Sys2Proof.Machine
end

