-- ==== Sys2Proof/Machine/Operands.lean ====
section
/-! DEFINITION. Machine/Operands.lean: the operand forms of the requests and of the input bytes, and the character and polarity
helpers (00_scope.md R10, R14; 30_encoding.md R70, R72). -/

namespace Sys2Proof.Machine

/-- `wt(v)`, the number of 1 bits (00_scope.md R10). -/
def weight (v : Word) : Nat := ((List.range 64).filter fun i => v.getLsbD i).length

/-- `zext_8` of a nibble or a digit (30_encoding.md R70). -/
def zext8 (x : BitVec 4) : Byte := x.setWidth 8

/-- `hexval` of the digit classes (00_scope.md R14, 30_encoding.md R66): '0'..'9' stand for 0..9. -/
def digitValue09 (d : Fin 10) : BitVec 4 := BitVec.ofNat 4 d.val

/-- `hexval` of 'A'..'F' (00_scope.md R14). -/
def digitValueUc (d : Fin 6) : BitVec 4 := BitVec.ofNat 4 (10 + d.val)

/-- `hexval` of 'a'..'f' (00_scope.md R14). -/
def digitValueLc (d : Fin 6) : BitVec 4 := BitVec.ofNat 4 (10 + d.val)

/-- `hexchar(s)`, the uppercase digit (00_scope.md R14). -/
def hexchar (s : Byte) : Byte := if s.toNat ≤ 9 then 0x30#8 + s else 0x37#8 + s

/-- CR, 0x0D (00_scope.md R13). -/
def charCr : Byte := 0x0D#8

/-- LF, 0x0A (00_scope.md R13). -/
def charLf : Byte := 0x0A#8

/-- The report frame `RPT` of a syndrome: empty for 0, else the digit, CR and LF (30_encoding.md R68). -/
def reportFrame (s : Byte) : List Byte := if s = 0 then [] else [hexchar s, charCr, charLf]

/-- The level that a read of a pin gives: "A floating pin reads as logic 1" (45_sampler.md R128). -/
def pinReads : PinLevel → Bool
  | .low      => false
  | .high     => true
  | .floating => true

/-- The byte that `PortRead` returns: bit `q` is the level of pin `q` (00_scope.md R12, 45_sampler.md R126, R128). -/
def portLevels (pins : PortPins) : Byte := (BitVec.ofBoolListLE (pins.toList.map pinReads)).setWidth 8

/-- `pol` of a level (44_driver.md R113, 45_sampler.md R126): ACTIVE_LOW complements it. -/
def pol (p : Polarity) (x : Bool) : Bool :=
  match p with
  | .activeHigh => x
  | .activeLow  => !x

end Sys2Proof.Machine
end

