-- ==== Sys2Proof/Machine/Flags.lean ====
section
/-! DEFINITION. Machine/Flags.lean: the flags of 10_state.md R23. There are no arithmetic condition codes; the flags are BATCH,
SLOT_FULL, UART_PEND, IE and IN_CS, and SAMPLED_VALID, each written as its rule says. -/

namespace Sys2Proof.Machine

/-- BATCH ← 1, with one `BatchComplete` event per terminator (10_state.md R24, 43_framer.md R111). -/
def TxNode.setBatch (t : TxNode) : TxNode := { t with batch := true, etrace := t.etrace ++ [.batchComplete] }

/-- BATCH ← 0 (43_framer.md R112). -/
def TxNode.clearBatch (t : TxNode) : TxNode := { t with batch := false }

/-- SLOT_FULL ← 0 (43_framer.md R102). -/
def TxNode.clearSlot (t : TxNode) : TxNode := { t with slotFull := false }

/-- The event slot takes a byte and is full (60_exceptions.md R149). -/
def TxNode.fillSlot (c : Byte) (t : TxNode) : TxNode := { t with slotData := c, slotFull := true }

/-- The receive buffer takes a byte and is pending (60_exceptions.md R148). -/
def TxNode.fillUart (c : Byte) (t : TxNode) : TxNode := { t with uartByte := c, uartPend := true }

/-- UART_PEND ← 0 (60_exceptions.md R149). -/
def TxNode.clearUart (t : TxNode) : TxNode := { t with uartPend := false }

/-- IE and IN_CS on entry to a critical section (60_exceptions.md R145). -/
def Control.mask (c : Control) : Control := { c with savedIe := c.ie, ie := false, inCs := true }

/-- IE and IN_CS on leaving it (60_exceptions.md R146). -/
def Control.unmask (c : Control) : Control := { c with ie := c.savedIe, inCs := false }

/-- SAMPLED takes a vector and is valid (45_sampler.md R126, 10_state.md R36). -/
def RxNode.storeSample (o : Word) (x : RxNode) : RxNode := { x with sampled := o, sampledValid := true }

end Sys2Proof.Machine
end

