-- ==== Sys2Proof/Machine/Ops.lean ====
section
/-! DEFINITION. Machine/Ops.lean: the operations every meaning is written over: raising a fault, sequencing that stops at a
fault, the critical section, the enabling of a node's steps, the environment's draws, and taking the next turn. -/

namespace Sys2Proof.Machine

/-! ### Taking a fault (60_exceptions.md R142) -/

/-- `raise Fault(code)`: FAULT ← code. The device has no exception with a handler (60_exceptions.md R139); this is the only one
the spec describes, and nothing returns from it (R142). -/
def Control.raise (f : Fault) (c : Control) : Control := { c with fault := some f }

/-- The node has not faulted. -/
def Control.alive (c : Control) : Bool := c.fault.isNone

/-- `raise` at the transmitter. -/
def TxNode.raise (f : Fault) (t : TxNode) : TxNode := { t with ctl := t.ctl.raise f }

/-- `raise` at the receiver. -/
def RxNode.raise (f : Fault) (x : RxNode) : RxNode := { x with ctl := x.ctl.raise f }

/-- The next part of a transmitter step: after a raised fault "no later part of the step runs" (R142). -/
def TxNode.andThen (t : TxNode) (f : TxNode → TxNode) : TxNode := if t.ctl.alive then f t else t

/-! ### The critical section (60_exceptions.md R145, R146) -/

/-- `CSEnter()`. -/
def Control.csEnter (c : Control) : Control := if c.inCs then c.raise .nest else c.mask

/-- `CSExit()`. -/
def Control.csExit (c : Control) : Control := if c.inCs then c.unmask else c.raise .nest

/-- `CSEnter()` at the transmitter. -/
def TxNode.csEnter (t : TxNode) : TxNode := { t with ctl := t.ctl.csEnter }

/-- `CSExit()` at the transmitter. -/
def TxNode.csExit (t : TxNode) : TxNode := { t with ctl := t.ctl.csExit }

/-- `CSEnter()` at the receiver. -/
def RxNode.csEnter (x : RxNode) : RxNode := { x with ctl := x.ctl.csEnter }

/-- `CSExit()` at the receiver. -/
def RxNode.csExit (x : RxNode) : RxNode := { x with ctl := x.ctl.csExit }

/-! ### Enabling (60_exceptions.md R142, 46_reporter.md R136; log 6) -/

/-- The transmitter may take a step: it has not faulted. -/
def State.txEnabled (s : State) : Bool := s.tx.ctl.alive

/-- The receiver's main loop may take a step: the node has not faulted and is not held inside a report (R136, log 12). -/
def State.rxEnabled (s : State) : Bool := s.rx.ctl.alive && s.rx.sending.isEmpty

/-- The node at which a shared request is taken may take a step. -/
def State.siteEnabled (s : State) : Bool :=
  match s.site with
  | .tx => s.txEnabled
  | .rx => s.rxEnabled

/-- A transmitter step; one that is not enabled is not taken, and the state stays as it is (log 6). -/
def State.onTx (f : TxNode → TxNode) (s : State) : State := if s.txEnabled then { s with tx := f s.tx } else s

/-- A receiver step, likewise. -/
def State.onRx (f : State → State) (s : State) : State := if s.rxEnabled then f s else s

/-- A change of the control state of the node that serves a shared request. -/
def State.mapSite (f : Control → Control) (s : State) : State :=
  match s.site with
  | .tx => { s with tx := { s.tx with ctl := f s.tx.ctl } }
  | .rx => { s with rx := { s.rx with ctl := f s.rx.ctl } }

/-- A step of the node that serves a shared request. -/
def State.onSite (f : State → State) (s : State) : State := if s.siteEnabled then f s else s

/-- A pure request returns a value to its caller, recorded in `results` (log 9). -/
def State.answer (x : Word) (s : State) : State := { s with results := s.results ++ [x] }

/-- An input-byte instruction is defined under one policy only (43_framer.md R103, log 14). -/
def State.feedUnder (p : Policy) (f : TxNode → TxNode) (s : State) : Host.Outcome State Fault Refusal :=
  if s.tx.cfg.policy = p then .next (s.onTx f) else .refused (.otherPolicy p)

/-! ### The environment's draws (00_scope.md R12; log 10, log 11) -/

/-- The pins of a port at its next read: those listed, or a free value. -/
def Env.portPins (e : Env) : Port → PortPins
  | .a => e.portA.headD (Config.freePortPins .a e.taken)
  | .b => e.portB.headD (Config.freePortPins .b e.taken)

/-- ENV's answer to the next read of a port: the levels of its pins (00_scope.md R12 `PortRead`). -/
def Env.portAnswer (e : Env) (p : Port) : Byte := portLevels (e.portPins p)

/-- The environment after a read of a port: the answer is used up. -/
def Env.afterRead (e : Env) : Port → Env
  | .a => if e.portA.isEmpty then { e with taken := e.taken + 1 } else { e with portA := e.portA.tail }
  | .b => if e.portB.isEmpty then { e with taken := e.taken + 1 } else { e with portB := e.portB.tail }

/-- The outcome of the next overrun draw: the one listed, or a free value. -/
def Env.overrunReplaces (e : Env) : Bool := e.overrun.headD (Config.freeOverrun e.taken)

/-- The environment after an overrun draw. -/
def Env.afterOverrun (e : Env) : Env :=
  if e.overrun.isEmpty then { e with taken := e.taken + 1 } else { e with overrun := e.overrun.tail }

/-! ### SerialSend and HOST_OUT (46_reporter.md R135, log 12) -/

/-- SerialSend of the bytes an open report still has: each is appended to TXOUT while HOST_OUT reports transmit-ready, and the
rest is held. -/
def State.serialSend (s : State) : State :=
  { s with
    rx := { s.rx with txout := s.rx.txout ++ s.rx.sending.take s.hostOut, sending := s.rx.sending.drop s.hostOut }
    hostOut := s.hostOut - s.rx.sending.length }

/-- HOST_OUT reports transmit-ready, which lifts the hold of one byte. A faulted receiver takes no further step, so the report
then changes nothing but the count. -/
def State.transmitReady (s : State) : State :=
  let s' := { s with hostOut := s.hostOut + 1 }
  if s.rx.ctl.alive then s'.serialSend else s'

/-! ### The next turn (10_state.md R17, R21; log 7) -/

/-- What the schedule gives to the next step. -/
inductive Fetched where
  /-- No agent takes a step. -/
  | idle
  /-- HOST_OUT's step. -/
  | hostOut (s : State)
  /-- A request, and the state once the turn is taken off the schedule. -/
  | instr (i : Instr) (s : State)
  /-- A word that is no request record. -/
  | bad (why : DecodeError)

/-- The next turn of the schedule. -/
def State.fetch (s : State) : Fetched :=
  match s.schedule with
  | [] => .idle
  | .transmitReady :: rest => .hostOut { s with schedule := rest }
  | .request n w :: rest =>
    match decodeRequest w with
    | .ok i    => .instr i { s with schedule := rest, site := n }
    | .error e => .bad e

/-- The node that serves the requests of a tag when only one node can; the transmitter for the shared ones (log 8, log 15). -/
def nodeOfTag (tag : Nat) : Node := if 0xB ≤ tag && tag ≤ 0xD then .rx else .tx

/-- The state in which the next step runs a word of spec/opcode_table.json (log 15): a request record comes first in the
schedule; an input byte stands in the full event slot of a HEXBLOCK transmitter, and a POLL comes first in the schedule. -/
def State.placeWord (s : State) (nbits w : Nat) : State :=
  match tableCode nbits w with
  | .record word => { s with schedule := .request (nodeOfTag (w % 16)) word :: s.schedule }
  | .byte p c =>
    { s with
      tx := { s.tx with cfg := { s.tx.cfg with policy := p }, slotFull := true, slotData := c }
      schedule := .request .tx 0x5#80 :: s.schedule }

end Sys2Proof.Machine
end

