-- ==== Sys2Proof/Machine/Codec.lean ====
section
/-! DEFINITION. Machine/Codec.lean: the syndrome codec (41_codec.md): SYN and MINCORR as pure functions, and as requests. -/

namespace Sys2Proof.Machine

/-- XOR of the numbers of the columns `1 .. n` whose bit is set in `u` (41_codec.md R81, the loop). -/
def foldColumns (u : Word) : Nat → Byte
  | 0     => 0
  | n + 1 => if u.getLsbD n then foldColumns u n ^^^ BitVec.ofNat 8 (n + 1) else foldColumns u n

/-- SYN(v, r) for a legal `r` (41_codec.md R81). -/
def syn (v : Word) (r : Nat) : Byte := foldColumns (maskLow (2 ^ r - 1) v) (2 ^ r - 1)

/-- The correction-vector table `CV_r`, which has the same formula for every `r` (41_codec.md R84). -/
def correctionVector (t : Nat) : Word := if t = 0 then 0 else 1#64 <<< (t - 1)

/-- MINCORR(t, r) for a legal `r`: the table at the target reduced modulo 2^r (41_codec.md R83). -/
def mincorr (t : Byte) (r : Nat) : Word := correctionVector (maskLow r t).toNat

/-- A pure codec request: its result is returned, or FLT_REFUSED is raised at the node that serves it (41_codec.md R80, R81, R83;
60_exceptions.md R141). -/
def codecRequest (legal : Bool) (request : Instr) (result : Word) (s : State) : State :=
  s.onSite fun s => if legal then s.answer result else s.mapSite (·.raise (.refused request))

/-- SYN (41_codec.md R81): reads and writes no state of a node. -/
def execSyn (v : Word) (r : BitVec 3) (s : State) : Host.Outcome State Fault Refusal :=
  .next (codecRequest (legalWidth r.toNat) (.syn v r) ((syn v r.toNat).setWidth 64) s)

/-- MINCORR (41_codec.md R83): reads and writes no state of a node. -/
def execMincorr (t : Byte) (r : BitVec 3) (s : State) : Host.Outcome State Fault Refusal :=
  .next (codecRequest (legalWidth r.toNat) (.mincorr t r) (mincorr t r.toNat) s)

end Sys2Proof.Machine
end

