-- ==== Sys2Proof/Machine/Encoder.lean ====
section
/-! DEFINITION. Machine/Encoder.lean: the bus-state encoder (42_encoder.md): APPLY and the aggregate vector. APPLYBATCH, which may
refresh between blocks, is in Machine/Batch.lean. -/

namespace Sys2Proof.Machine

/-- `s_new = mask_R[b](s)` (42_encoder.md R90). -/
def TxNode.target (t : TxNode) (b : BlockIdx) (s : Byte) : Byte := maskLow (t.cfg.rAt b) s

/-- The correction `w` that APPLY(b, s) computes: MINCORR(s_new ⊕ s_old) (42_encoder.md R90 steps 1 to 3). -/
def TxNode.correction (t : TxNode) (b : BlockIdx) (s : Byte) : Word :=
  mincorr (t.target b s ^^^ syn t.v[b] (t.cfg.rAt b)) (t.cfg.rAt b)

/-- The value APPLY(b, s) leaves in V[b]: `mask_N[b](V[b] ⊕ w)` (42_encoder.md R90 step 4). -/
def TxNode.flipped (t : TxNode) (b : BlockIdx) (s : Byte) : Word := maskLow (t.cfg.nAt b) (t.v[b] ^^^ t.correction b s)

/-- The write of V[b] and its event (42_encoder.md R90 step 4); the only writer of V (R91). -/
def TxNode.flip (t : TxNode) (b : BlockIdx) (s : Byte) : TxNode :=
  { t with v := t.v.set b (t.flipped b s), etrace := t.etrace ++ [.applied b (t.target b s) (t.correction b s)] }

/-- APPLY(b, s) (42_encoder.md R90, R92): FLT_BLOCK before the critical section, the update inside it. -/
def TxNode.apply (b : BlockIdx) (s : Byte) (t : TxNode) : TxNode :=
  if t.cfg.k ≤ b.val then t.raise (.block b) else t.csEnter.andThen fun t => (t.flip b s).csExit

/-- AGG (42_encoder.md R100): the active blocks, block 0 lowest. -/
def TxNode.agg (t : TxNode) : Word :=
  t.cfg.blocks.foldl (fun (a : Word) (b : BlockIdx) => a ||| (t.v[b] <<< t.cfg.off b)) 0

/-- APPLY as a request. -/
def execApply (b : BlockIdx) (d : Byte) (s : State) : Host.Outcome State Fault Refusal := .next (s.onTx (TxNode.apply b d))

end Sys2Proof.Machine
end

