-- ==== Sys2Proof/Machine/Driver.lean ====
section
/-! DEFINITION. Machine/Driver.lean: the bus output driver and the shift-register chain (44_driver.md). -/

namespace Sys2Proof.Machine

/-! ### The chain (44_driver.md R118 to R120; log 16) -/

/-- One shift of the chain: stage `p` takes stage `p − 1`, stage 0 takes the data line (R118). -/
def chainShift (len : Nat) (sr : Word) (data : Bool) : Word := maskLow len ((sr <<< 1) ||| (BitVec.ofBool data).setWidth 64)

/-- A level set on one of the three lines: the chain shifts on a rising CLK edge and latches on a rising LATCH edge, and nothing
else changes it (R118, R119, R120). -/
def TxNode.setLine (t : TxNode) (l : Line) (level : Bool) : TxNode :=
  match l with
  | .data  => { t with dataL := level }
  | .clk   => { t with clkL := level, sr := if level && !t.clkL then chainShift t.cfg.chainLen t.sr t.dataL else t.sr }
  | .latch => { t with latchL := level, out := if level && !t.latchL then t.sr else t.out }

/-- `LineWrite` and `Wait`: the event takes its effect and is appended to LTRACE (00_scope.md R12). -/
def TxNode.lineEvent (t : TxNode) (e : LineEvent) : TxNode :=
  let t' := match e with
    | .line l level => t.setLine l level
    | .wait _       => t
  { t' with ltrace := t.ltrace ++ [e] }

/-! ### REFRESH (44_driver.md R113) -/

/-- The five events of one bit (R113 step 3, R114). -/
def bitEvents (halfPeriod : Nat) (level : Bool) : List LineEvent :=
  [.line .data level, .line .clk true, .wait halfPeriod, .line .clk false, .wait halfPeriod]

/-- The events of the bits `n − 1` down to 0 of the aggregate vector (R113 step 3, R46: MSB first). -/
def shiftEvents (c : CfgTx) (a : Word) : Nat → List LineEvent
  | 0     => []
  | j + 1 => bitEvents c.halfPeriod (pol c.drvPol (a.getLsbD j)) ++ shiftEvents c a j

/-- The line trace of one REFRESH (R114). -/
def refreshEvents (c : CfgTx) (a : Word) : List LineEvent :=
  .line .latch false :: (shiftEvents c a c.totalBits ++ [.line .latch true])

/-- A list of line events, in order. -/
def TxNode.lineEvents (t : TxNode) (es : List LineEvent) : TxNode := es.foldl TxNode.lineEvent t

/-- REFRESH (R113, R116): the vector is read inside the critical section. -/
def TxNode.refresh (t : TxNode) : TxNode :=
  t.csEnter.andThen fun t =>
    let a := t.agg
    ((t.lineEvents (refreshEvents t.cfg a)).csExit).andThen fun t => { t with etrace := t.etrace ++ [.refreshed a] }

/-- REFRESH as a request. -/
def execRefresh (s : State) : Host.Outcome State Fault Refusal := .next (s.onTx TxNode.refresh)

end Sys2Proof.Machine
end

