-- ==== Sys2Proof/Machine/Batch.lean ====
section
/-! DEFINITION. Machine/Batch.lean: APPLYBATCH (42_encoder.md R93). -/

namespace Sys2Proof.Machine

/-- APPLY(b, zext_8(BUF[b])) (42_encoder.md R93). The read of a BUF entry that was never written "is a fault of the model, never a
value" (10_state.md R42). Two points are the model's (log 13, DEDUCED): the code FLT_UNWRITTEN, and that this fault comes before
APPLY's own, because the operand is read before APPLY is entered. -/
def TxNode.applyBuffered (b : BlockIdx) (t : TxNode) : TxNode :=
  if t.buf[b].written then t.apply b (zext8 t.buf[b].digit) else t.raise .unwritten

/-- The refresh after each block under PER_BLOCK_APPLY (42_encoder.md R93). -/
def TxNode.refreshPerBlock (t : TxNode) : TxNode := if t.cfg.refreshPolicy = .perBlockApply then t.refresh else t

/-- The loop of APPLYBATCH over the given blocks. -/
def TxNode.applyBlocks : List BlockIdx → TxNode → TxNode
  | [], t      => t
  | b :: bs, t => ((t.applyBuffered b).andThen TxNode.refreshPerBlock).andThen (TxNode.applyBlocks bs)

/-- APPLYBATCH: the active blocks in ascending order (42_encoder.md R93). -/
def TxNode.applyBatch (t : TxNode) : TxNode := TxNode.applyBlocks t.cfg.blocks t

/-- APPLYBATCH as a request. -/
def execApplyBatch (s : State) : Host.Outcome State Fault Refusal := .next (s.onTx TxNode.applyBatch)

end Sys2Proof.Machine
end

