-- ==== Sys2Proof/Machine/Framer.lean ====
section
/-! DEFINITION. Machine/Framer.lean: the character framer (43_framer.md): the FEED of each input-byte class, POLL and ACKBATCH. -/

namespace Sys2Proof.Machine

/-! ### FEED (43_framer.md R104 to R108) -/

/-- One nibble: APPLY to block 0, then REFRESH (43_framer.md R104). -/
def TxNode.feedNibble (x : BitVec 4) (t : TxNode) : TxNode := (t.apply 0 (zext8 x)).andThen TxNode.refresh

/-- FEED_NIBDATA: the high nibble first (43_framer.md R104, 20_memory.md R44). -/
def TxNode.feedNibData (hi lo : BitVec 4) (t : TxNode) : TxNode := (t.feedNibble hi).andThen (TxNode.feedNibble lo)

/-- FEED_NIBTERM (43_framer.md R105). -/
def TxNode.feedNibTerm (t : TxNode) : TxNode := t.setBatch

/-- FEED_HEXTERM (43_framer.md R107): FILL is kept or reset as TERM_RESETS_FILL says. -/
def TxNode.feedHexTerm (t : TxNode) : TxNode :=
  { t.setBatch with fill := if t.cfg.termResetsFill then 0 else t.fill }

/-- REFRESH under the given policies of a digit (43_framer.md R106, R109). -/
def TxNode.refreshUnder (ps : List RefreshPolicy) (t : TxNode) : TxNode :=
  if ps.contains t.cfg.refreshPolicy then t.refresh else t

/-- BUF[FILL] ← d (43_framer.md R106). -/
def TxNode.bufferDigit (d : BitVec 4) (t : TxNode) : TxNode := { t with buf := t.buf.set t.fill ⟨d, true⟩ }

/-- A digit stored in a batch that it does not complete: FILL counts up (43_framer.md R106). -/
def TxNode.openDigit (d : BitVec 4) (t : TxNode) : TxNode := { t.bufferDigit d with fill := t.fill + 1 }

/-- A digit stored in a batch that it completes, before the batch is applied: FILL returns to 0 (43_framer.md R106). -/
def TxNode.lastDigit (d : BitVec 4) (t : TxNode) : TxNode := { t.bufferDigit d with fill := 0 }

/-- FEED_HEXDIG of a digit's value (43_framer.md R106). -/
def TxNode.feedDigit (d : BitVec 4) (t : TxNode) : TxNode :=
  if t.fill.val + 1 = t.cfg.k then
    (t.lastDigit d).applyBatch.andThen (TxNode.refreshUnder [.perBatch, .perDigit])
  else
    (t.openDigit d).refreshUnder [.perDigit]

/-- FEED_DISCARD (43_framer.md R108): no effect. -/
def TxNode.feedDiscard (t : TxNode) : TxNode := t

/-- FEED(c), dispatched on the byte's class (43_framer.md R103). -/
def TxNode.feed (c : InputClass) (t : TxNode) : TxNode :=
  match c with
  | .nibTerm _     => t.feedNibTerm
  | .nibData hi lo => t.feedNibData hi lo
  | .hexTerm _     => t.feedHexTerm
  | .hexDig09 d    => t.feedDigit (digitValue09 d)
  | .hexDiguc d    => t.feedDigit (digitValueUc d)
  | .hexDiglc d    => t.feedDigit (digitValueLc d)
  | .hexDiscard _  => t.feedDiscard

/-! ### POLL and ACKBATCH -/

/-- POLL (43_framer.md R102): enabled when SLOT_FULL = 1; an idle iteration of the main loop is no step (log 6). -/
def TxNode.poll (t : TxNode) : TxNode :=
  if t.slotFull then TxNode.feed (decodeByte t.cfg.policy t.slotData) t.clearSlot else t

/-- NIB.TERM (43_framer.md R105), whichever terminator it is. -/
def execNibTerm (_t : Terminator) (s : State) : Host.Outcome State Fault Refusal := s.feedUnder .nibble TxNode.feedNibTerm

/-- NIB.DATA (43_framer.md R104). -/
def execNibData (hi lo : BitVec 4) (s : State) : Host.Outcome State Fault Refusal :=
  s.feedUnder .nibble (TxNode.feedNibData hi lo)

/-- HEX.TERM (43_framer.md R107), whichever terminator it is. -/
def execHexTerm (_t : Terminator) (s : State) : Host.Outcome State Fault Refusal := s.feedUnder .hexblock TxNode.feedHexTerm

/-- HEX.DIG09 (43_framer.md R106). -/
def execHexDig09 (d : Fin 10) (s : State) : Host.Outcome State Fault Refusal :=
  s.feedUnder .hexblock (TxNode.feedDigit (digitValue09 d))

/-- HEX.DIGUC (43_framer.md R106). -/
def execHexDiguc (d : Fin 6) (s : State) : Host.Outcome State Fault Refusal :=
  s.feedUnder .hexblock (TxNode.feedDigit (digitValueUc d))

/-- HEX.DIGLC (43_framer.md R106). -/
def execHexDiglc (d : Fin 6) (s : State) : Host.Outcome State Fault Refusal :=
  s.feedUnder .hexblock (TxNode.feedDigit (digitValueLc d))

/-- HEX.DISCARD (43_framer.md R108). -/
def execHexDiscard (_c : Byte) (s : State) : Host.Outcome State Fault Refusal := s.feedUnder .hexblock TxNode.feedDiscard

/-- POLL as a request. -/
def execPoll (s : State) : Host.Outcome State Fault Refusal := .next (s.onTx TxNode.poll)

/-- ACKBATCH (43_framer.md R112). -/
def execAckBatch (s : State) : Host.Outcome State Fault Refusal := .next (s.onTx TxNode.clearBatch)

end Sys2Proof.Machine
end

