-- ==== Sys2Proof/Machine/Interrupt.lean ====
section
/-! DEFINITION. Machine/Interrupt.lean: the critical section as a request, the arrival of a byte, and the receive interrupt
(60_exceptions.md R145 to R153). -/

namespace Sys2Proof.Machine

/-- CSENTER (60_exceptions.md R145), at the node that serves the request. -/
def execCsEnter (s : State) : Host.Outcome State Fault Refusal := .next (s.onSite fun s => s.mapSite Control.csEnter)

/-- CSEXIT (60_exceptions.md R146), at the node that serves the request. -/
def execCsExit (s : State) : Host.Outcome State Fault Refusal := .next (s.onSite fun s => s.mapSite Control.csExit)

/-- The draw of an overrun: the operation is done if the arriving byte replaces the old one, else left out. -/
def State.drawOverrun (f : TxNode → TxNode) (s : State) : State :=
  { s with tx := if s.env.overrunReplaces then f s.tx else s.tx, env := s.env.afterOverrun }

/-- UART_ARRIVE(c) on a transmitter that has not faulted (60_exceptions.md R148): the byte is kept pending; a second byte
replaces the first or is lost, which is a draw. -/
def State.uartArrive (c : Byte) (s : State) : State :=
  if s.tx.uartPend then s.drawOverrun (TxNode.fillUart c) else { s with tx := s.tx.fillUart c }

/-- The interrupt is taken: pending and not masked (60_exceptions.md R149, R150). -/
def TxNode.interruptTaken (t : TxNode) : Bool := t.uartPend && t.ctl.ie

/-- The body of ISR_RX (60_exceptions.md R149): the pending byte moves to the slot; into a full slot it overwrites or is lost,
which is a draw. It saves nothing and changes no mask (R152, R153). -/
def State.isrBody (s : State) : State :=
  let s' := { s with tx := s.tx.clearUart }
  if s.tx.slotFull then s'.drawOverrun (TxNode.fillSlot s.tx.uartByte) else { s' with tx := s'.tx.fillSlot s.tx.uartByte }

/-- UART_ARRIVE as a request, enabled at any time the transmitter has not faulted. -/
def execUartArrive (c : Byte) (s : State) : Host.Outcome State Fault Refusal :=
  .next (if s.txEnabled then s.uartArrive c else s)

/-- ISR_RX (60_exceptions.md R149): taken only when a byte is pending, IE = 1 and the transmitter has not faulted; else the byte
waits (log 6). -/
def execIsrRx (s : State) : Host.Outcome State Fault Refusal :=
  .next (if s.txEnabled && s.tx.interruptTaken then s.isrBody else s)

/-- The reserved tags raise FLT_REFUSED with the request (30_encoding.md R75, 60_exceptions.md R141). -/
def State.refuse (request : Instr) (s : State) : State := s.onSite fun s => s.mapSite (·.raise (.refused request))

/-- OPSEL 0xE (30_encoding.md R75). -/
def execReservedE (s : State) : Host.Outcome State Fault Refusal := .next (s.refuse .reservedE)

/-- OPSEL 0xF (30_encoding.md R75). -/
def execReservedF (s : State) : Host.Outcome State Fault Refusal := .next (s.refuse .reservedF)

end Sys2Proof.Machine
end

