-- ==== Sys2Proof/Machine/Receiver.lean ====
section
/-! DEFINITION. Machine/Receiver.lean: the bus sampler (45_sampler.md) and the syndrome reporter (46_reporter.md). -/

namespace Sys2Proof.Machine

/-! ### SAMPLE (45_sampler.md R126 to R130) -/

/-- Bit `k` of the observed vector, given the two port bytes (45_sampler.md R126, R127, R128). -/
def observedBit (c : CfgRx) (a b : Byte) (k : Nat) : Bool :=
  match c.pinOf k with
  | none   => false
  | some q => pol c.polRx ((match q.port with | .a => a | .b => b).getLsbD q.pin.val)

/-- The low `n` bits of the observed vector. -/
def observedBits (c : CfgRx) (a b : Byte) : Nat → Word
  | 0     => 0
  | k + 1 => observedBits c a b k ||| (if observedBit c a b k then BitVec.twoPow 64 k else 0)

/-- The observed vector `O`, N_RX bits (45_sampler.md R126). -/
def observe (c : CfgRx) (a b : Byte) : Word := observedBits c a b c.nRx

/-- The answer to the read of a port that PIN_MAP references; a port it does not reference is not read (45_sampler.md R126). -/
def State.portByte (s : State) (p : Port) : Byte := if s.rx.cfg.usesPort p then s.env.portAnswer p else 0

/-- The environment after that read. -/
def State.readPort (s : State) (p : Port) : State := if s.rx.cfg.usesPort p then { s with env := s.env.afterRead p } else s

/-- The port reads of SAMPLE, A before B (70_reset_and_hazards.md R170, log 25), and the store of the observed vector. -/
def State.takeSample (s : State) : State :=
  let s1 := s.readPort .a
  let s2 := s1.readPort .b
  { s2 with rx := s2.rx.csExit.storeSample (observe s.rx.cfg (s.portByte .a) (s1.portByte .b)) }

/-- SAMPLE (45_sampler.md R126): the reads run inside a critical section. -/
def State.sample (s : State) : State :=
  let s' := { s with rx := s.rx.csEnter }
  if s'.rx.ctl.alive then s'.takeSample else s'

/-! ### REPORT and RXCYCLE (46_reporter.md R132 to R137) -/

/-- The syndrome REPORT recomputes (46_reporter.md R132). -/
def RxNode.syndrome (x : RxNode) : Byte := syn x.sampled x.cfg.rRx

/-- REPORT (46_reporter.md R132): FLT_UNWRITTEN before any SAMPLE, as its pseudocode says (10_state.md R36), else SerialSend of the
report frame. -/
def State.report (s : State) : State :=
  if s.rx.sampledValid then { s with rx := { s.rx with sending := reportFrame s.rx.syndrome } }.serialSend
  else { s with rx := s.rx.raise .unwritten }

/-- RXCYCLE (46_reporter.md R136): SAMPLE, then REPORT unless SAMPLE has raised a fault. -/
def State.rxCycle (s : State) : State :=
  let s' := s.sample
  if s'.rx.ctl.alive then s'.report else s'

/-- SAMPLE as a request. -/
def execSample (s : State) : Host.Outcome State Fault Refusal := .next (s.onRx State.sample)

/-- REPORT as a request. -/
def execReport (s : State) : Host.Outcome State Fault Refusal := .next (s.onRx State.report)

/-- RXCYCLE as a request. -/
def execRxCycle (s : State) : Host.Outcome State Fault Refusal := .next (s.onRx State.rxCycle)

end Sys2Proof.Machine
end

