-- ==== Sys2Proof/Machine/Dispatch.lean ====
section
/-! DEFINITION. Machine/Dispatch.lean: one arm per instruction. -/

namespace Sys2Proof.Machine

/-- The meaning of an instruction in a state. -/
def exec (i : Instr) (s : State) : Host.Outcome State Fault Refusal :=
  match i with
  | .nibTerm t => Sys2Proof.Machine.execNibTerm t s
  | .nibData hi lo => Sys2Proof.Machine.execNibData hi lo s
  | .hexTerm t => Sys2Proof.Machine.execHexTerm t s
  | .hexDig09 d => Sys2Proof.Machine.execHexDig09 d s
  | .hexDiguc d => Sys2Proof.Machine.execHexDiguc d s
  | .hexDiglc d => Sys2Proof.Machine.execHexDiglc d s
  | .hexDiscard c => Sys2Proof.Machine.execHexDiscard c s
  | .syn v r => Sys2Proof.Machine.execSyn v r s
  | .mincorr t r => Sys2Proof.Machine.execMincorr t r s
  | .apply b d => Sys2Proof.Machine.execApply b d s
  | .applyBatch => Sys2Proof.Machine.execApplyBatch s
  | .refresh => Sys2Proof.Machine.execRefresh s
  | .poll => Sys2Proof.Machine.execPoll s
  | .ackBatch => Sys2Proof.Machine.execAckBatch s
  | .csEnter => Sys2Proof.Machine.execCsEnter s
  | .csExit => Sys2Proof.Machine.execCsExit s
  | .uartArrive c => Sys2Proof.Machine.execUartArrive c s
  | .isrRx => Sys2Proof.Machine.execIsrRx s
  | .sample => Sys2Proof.Machine.execSample s
  | .report => Sys2Proof.Machine.execReport s
  | .rxCycle => Sys2Proof.Machine.execRxCycle s
  | .reservedE => Sys2Proof.Machine.execReservedE s
  | .reservedF => Sys2Proof.Machine.execReservedF s

end Sys2Proof.Machine
end

