-- ==== Sys2Proof/Machine/Step.lean ====
section
/-! DEFINITION. Machine/Step.lean: one step of the machine: the next turn of the schedule (10_state.md R17, R21). -/

namespace Sys2Proof.Machine

/-- One step. With no turn scheduled no agent moves and the state stays (log 7). -/
def step (s : State) : Host.Outcome State Fault Refusal :=
  match s.fetch with
  | .idle       => .next s
  | .hostOut s' => .next s'.transmitReady
  | .instr i s' => exec i s'
  | .bad why    => .refused (.undecodable why)

/-- The state whose next step runs a word of spec/opcode_table.json (log 15). -/
def State.withFetchWord (s : State) (nbits w : Nat) : State := s.placeWord nbits w

end Sys2Proof.Machine
end

