-- ==== Sys2Proof/Safety.lean ====
section
/-! DEFINITION. Safety.lean: what counts as a safe run, and the invariants and observations that the claims are stated in. -/

namespace Sys2Proof

/-! ### Instructions by kind -/

/-- The agents' own steps (10_state.md R17): the requests that are not sub-operations (30_encoding.md R67). -/
def Instr.isAgentStep : Instr → Bool
  | .nibTerm _    => false
  | .nibData _ _  => false
  | .hexTerm _    => false
  | .hexDig09 _   => false
  | .hexDiguc _   => false
  | .hexDiglc _   => false
  | .hexDiscard _ => false
  | .syn _ _      => false
  | .mincorr _ _  => false
  | .apply _ _    => false
  | .applyBatch   => false
  | .refresh      => false
  | .poll         => true
  | .ackBatch     => true
  | .csEnter      => false
  | .csExit       => false
  | .uartArrive _ => true
  | .isrRx        => true
  | .sample       => false
  | .report       => false
  | .rxCycle      => true
  | .reservedE    => false
  | .reservedF    => false

/-- The node whose unit an instruction works on; none for the requests that either node can serve (00_scope.md R3). -/
def Instr.owner : Instr → Option Machine.Node
  | .nibTerm _    => some .tx
  | .nibData _ _  => some .tx
  | .hexTerm _    => some .tx
  | .hexDig09 _   => some .tx
  | .hexDiguc _   => some .tx
  | .hexDiglc _   => some .tx
  | .hexDiscard _ => some .tx
  | .syn _ _      => none
  | .mincorr _ _  => none
  | .apply _ _    => some .tx
  | .applyBatch   => some .tx
  | .refresh      => some .tx
  | .poll         => some .tx
  | .ackBatch     => some .tx
  | .csEnter      => none
  | .csExit       => none
  | .uartArrive _ => some .tx
  | .isrRx        => some .tx
  | .sample       => some .rx
  | .report       => some .rx
  | .rxCycle      => some .rx
  | .reservedE    => none
  | .reservedF    => none

/-- The value of a hexadecimal digit instruction (30_encoding.md R66). -/
def Instr.digit : Instr → Option (BitVec 4)
  | .nibTerm _    => none
  | .nibData _ _  => none
  | .hexTerm _    => none
  | .hexDig09 d   => some (BitVec.ofNat 4 d.val)
  | .hexDiguc d   => some (BitVec.ofNat 4 (10 + d.val))
  | .hexDiglc d   => some (BitVec.ofNat 4 (10 + d.val))
  | .hexDiscard _ => none
  | .syn _ _      => none
  | .mincorr _ _  => none
  | .apply _ _    => none
  | .applyBatch   => none
  | .refresh      => none
  | .poll         => none
  | .ackBatch     => none
  | .csEnter      => none
  | .csExit       => none
  | .uartArrive _ => none
  | .isrRx        => none
  | .sample       => none
  | .report       => none
  | .rxCycle      => none
  | .reservedE    => none
  | .reservedF    => none

/-- The REFRESHes that follow a digit which does not complete a batch (43_framer.md R106, R109). -/
def CfgTx.afterDigit (c : CfgTx) : List Instr := if c.refreshPolicy = .perDigit then [.refresh] else []

/-- The REFRESHes that follow APPLYBATCH when a digit completes a batch (43_framer.md R106, R109). -/
def CfgTx.afterBatch (c : CfgTx) : List Instr := if c.refreshPolicy = .perBlockApply then [] else [.refresh]

end Sys2Proof

namespace Sys2Proof.Machine

/-! ### Runs -/

/-- Requests taken one after another (30_encoding.md R78); it stops at a stop. -/
def runAll : List Instr → State → Host.Outcome State Fault Refusal
  | [], s      => .next s
  | i :: is, s =>
    match exec i s with
    | .next s'   => runAll is s'
    | .fault f   => .fault f
    | .refused r => .refused r

/-- No node has faulted. "A faulted state is never a final state of a run" (60_exceptions.md R142). -/
structure State.Safe (s : State) : Prop where
  tx : s.tx.ctl.fault = none
  rx : s.rx.ctl.fault = none

/-- The transmitter is quiescent (70_reset_and_hazards.md R166). -/
structure TxNode.Quiescent (t : TxNode) : Prop where
  noFault   : t.ctl.fault = none
  slotEmpty : t.slotFull = false
  nothingIn : t.uartPend = false

/-- The premise PACED of 92_eei_decisions.md D34 (60_exceptions.md R144): the host sends only now. -/
structure TxNode.Paced (t : TxNode) : Prop where
  nothingIn : t.uartPend = false
  slotEmpty : t.slotFull = false

/-- The transmitter can run its requests: well-formed configuration, no fault, no critical section open. -/
structure TxNode.Ready (t : TxNode) : Prop where
  wellFormed : t.cfg.WellFormed
  noFault    : t.ctl.fault = none
  outside    : t.ctl.inCs = false

/-- The receiver can run its requests: besides, its main loop is not held inside a report (46_reporter.md R136). -/
structure RxNode.Ready (x : RxNode) : Prop where
  wellFormed : x.cfg.WellFormed
  noFault    : x.ctl.fault = none
  outside    : x.ctl.inCs = false
  notHeld    : x.sending = []

/-- What APPLY and REFRESH change, and nothing more: V, SAVED_IE, the lines, the chain and the traces (42_encoder.md R90,
44_driver.md R113). -/
def State.DrivenFrom (s t : State) : Prop :=
  t = { s with tx := { s.tx with
    v := t.tx.v, ctl := { s.tx.ctl with savedIe := t.tx.ctl.savedIe }, dataL := t.tx.dataL, clkL := t.tx.clkL,
    latchL := t.tx.latchL, sr := t.tx.sr, out := t.tx.out, ltrace := t.tx.ltrace, etrace := t.tx.etrace } }

/-- The pins of a port that lines drive at the levels of a byte: no pin floats (45_sampler.md R131). -/
def drivenPins (x : Byte) : PortPins := Vector.ofFn fun q => if x.getLsbD q.val then .high else .low

/-! ### Lists of requests -/

/-- What APPLYBATCH does for each of the given blocks, as requests, in order (42_encoder.md R93). -/
def TxNode.requestsOf (t : TxNode) (bs : List BlockIdx) : List Instr :=
  bs.flatMap fun b => .apply b (zext8 t.buf[b].digit) :: if t.cfg.refreshPolicy = .perBlockApply then [.refresh] else []

/-- The requests of APPLYBATCH: those of every active block, in ascending order (42_encoder.md R93). -/
def TxNode.batchRequests (t : TxNode) : List Instr := t.requestsOf t.cfg.blocks

/-! ### Observations of the traces -/

/-- The event is a REFRESH. -/
def TxEvent.isRefresh : TxEvent → Bool
  | .batchComplete  => false
  | .refreshed _    => true
  | .applied _ _ _  => false

/-- How many REFRESHes an event trace records (43_framer.md R109, 44_driver.md R125). -/
def refreshCount (es : List TxEvent) : Nat := es.countP TxEvent.isRefresh

/-- The last refreshed vector once an event is seen. -/
def TxEvent.lastVector (x : Option Word) : TxEvent → Option Word
  | .batchComplete => x
  | .refreshed a   => some a
  | .applied _ _ _ => x

/-- The last refreshed vector of an event trace (44_driver.md R125). -/
def lastRefreshed (es : List TxEvent) : Option Word := es.foldl TxEvent.lastVector none

/-- The XOR of a block's corrections once an event is seen. -/
def TxEvent.replayed (b : BlockIdx) (x : Word) : TxEvent → Word
  | .batchComplete  => x
  | .refreshed _    => x
  | .applied b' _ w => if b' = b then x ^^^ w else x

/-- The XOR of all corrections that an event trace records for a block. -/
def replay (b : BlockIdx) (es : List TxEvent) : Word := es.foldl (TxEvent.replayed b) 0

/-- A block's last target once an event is seen. -/
def TxEvent.targeted (b : BlockIdx) (x : Byte) : TxEvent → Byte
  | .batchComplete  => x
  | .refreshed _    => x
  | .applied b' s _ => if b' = b then s else x

/-- The last target that an event trace records for a block, 0 if there is none (42_encoder.md R98). -/
def lastTarget (b : BlockIdx) (es : List TxEvent) : Byte := es.foldl (TxEvent.targeted b) 0

/-- How many REFRESHes a POLL of a byte makes (43_framer.md R109): the table, row by row. -/
def refreshesOfByte (c : CfgTx) (fill : Nat) (x : InputClass) : Nat :=
  let ofDigit :=
    match c.refreshPolicy with
    | .perBatch      => if fill + 1 = c.k then 1 else 0
    | .perDigit      => 1
    | .perBlockApply => if fill + 1 = c.k then c.k else 0
  match x with
  | .nibTerm _    => 0
  | .nibData _ _  => 2
  | .hexTerm _    => 0
  | .hexDig09 _   => ofDigit
  | .hexDiguc _   => ofDigit
  | .hexDiglc _   => ofDigit
  | .hexDiscard _ => 0

/-! ### Invariants -/

/-- The shape of a transmitter record in every reachable state. -/
structure TxNode.Sound (t : TxNode) : Prop where
  /-- An ill-formed configuration shows in FAULT (60_exceptions.md R143). -/
  checked : ∀ q, t.cfg.failed = some q → t.ctl.fault = some (.cfg q)
  /-- Only the low N bits of a bus vector are ever set (10_state.md R19). -/
  vector : ∀ b : BlockIdx, t.v[b].toNat < 2 ^ t.cfg.nAt b
  /-- FILL stays below K (43_framer.md R110). -/
  fill : t.cfg.failed = none → t.fill.val < t.cfg.k
  /-- The entries of the batch so far have been written (10_state.md R29). -/
  written : ∀ j : BlockIdx, j.val < t.fill.val → t.buf[j].written = true
  /-- The chain has CHAIN_LEN stages (10_state.md R33). -/
  stages : t.sr.toNat < 2 ^ t.cfg.chainLen
  /-- The chain has CHAIN_LEN outputs (10_state.md R33). -/
  outputs : t.out.toNat < 2 ^ t.cfg.chainLen
  /-- Interrupts are masked inside a critical section (60_exceptions.md R145). -/
  masked : t.ctl.inCs = true → t.ctl.ie = false

/-- The shape of a receiver record in every reachable state. -/
structure RxNode.Sound (x : RxNode) : Prop where
  /-- An ill-formed configuration shows in FAULT (60_exceptions.md R143). -/
  checked : ∀ q, x.cfg.failed = some q → x.ctl.fault = some (.cfg q)
  /-- SAMPLED has N_RX bits (10_state.md R34). -/
  sampled : x.sampled.toNat < 2 ^ x.cfg.nRx
  /-- A bit that PIN_MAP does not map is 0 in a sample (45_sampler.md R127). -/
  unmapped : x.sampledValid = true → ∀ k, x.cfg.pinOf k = none → x.sampled.getLsbD k = false
  /-- Interrupts are masked inside a critical section (60_exceptions.md R145). -/
  masked : x.ctl.inCs = true → x.ctl.ie = false
  /-- What a held report has still to send is the end of its frame (46_reporter.md R135). -/
  held : x.sending <:+ reportFrame x.syndrome
  /-- A faulted receiver is not held inside a report. -/
  faultedNotHeld : x.ctl.fault ≠ none → x.sending = []

/-- The shape of the whole state: besides, a report is held only while HOST_OUT has reported no transmit-ready. -/
structure State.Sound (s : State) : Prop where
  tx   : s.tx.Sound
  rx   : s.rx.Sound
  held : s.rx.sending ≠ [] → s.hostOut = 0

/-- A turn that is an agent's own step (10_state.md R17). -/
def Turn.isAgentTurn : Turn → Bool
  | .transmitReady => true
  | .request _ w   => match decodeRequest w with | .ok i => i.isAgentStep | .error _ => false

/-- A state between agent steps of a run that takes agent steps only (60_exceptions.md R147): no fault, IE = 1 and IN_CS = 0 at
both nodes, and only agent steps are scheduled. -/
structure State.AgentRun (s : State) : Prop where
  sound   : s.Sound
  safe    : s.Safe
  txOpen  : s.tx.ctl.ie = true ∧ s.tx.ctl.inCs = false
  rxOpen  : s.rx.ctl.ie = true ∧ s.rx.ctl.inCs = false
  turns   : ∀ u ∈ s.schedule, u.isAgentTurn = true

/-- The event trace tells the history of every block: V[b] is the XOR of its recorded corrections, and its syndrome is its last
recorded target (42_encoder.md R97, R98). -/
def TxNode.History (t : TxNode) : Prop :=
  ∀ b : BlockIdx, t.v[b] = replay b t.etrace ∧ syn t.v[b] (t.cfg.rAt b) = lastTarget b t.etrace

/-- The outputs show the last refreshed vector, but for the last output after the first REFRESH (44_driver.md R121, R122, R124,
R125). -/
def TxNode.BusShown (t : TxNode) : Prop :=
  ∀ a, lastRefreshed t.etrace = some a →
    t.dataL = pol t.cfg.drvPol (a.getLsbD 0) ∧ t.clkL = false ∧ t.latchL = true ∧
    ∀ p, p < t.cfg.totalBits → (p + 1 < t.cfg.totalBits ∨ 2 ≤ refreshCount t.etrace) →
      t.out.getLsbD p = pol t.cfg.drvPol (a.getLsbD p)

end Sys2Proof.Machine
end

