-- ==== Sys2Proof/Certificates/Slice0/Obligations.lean ====
section
/-! DEFINITION. Certificates/Slice0/Obligations.lean: the statements for the provers. -/

open Sys2Proof Sys2Proof.Machine

/-! ### Encoding (30_encoding.md) -/

/-- Decoding the code of a well-formed instruction gives the instruction back, every operand at every value (30_encoding.md
sections 1 to 3; the packing of records is the model's, log 1). -/
def Obligations.DecodeEncodeAgree : Prop := ∀ i : Instr, i.WellFormed → decode (encode i) = .ok i

/-- Every code that decodes is the code of the instruction it decodes to, so no two codes mean the same (30_encoding.md sections 1
to 3; log 1). -/
def Obligations.EveryCodeHasOneMeaning : Prop := ∀ (x : Code) (i : Instr), decode x = .ok i → encode i = x

/-- A few codes written out by hand decode to the instructions they stand for: seven input bytes, by the spec's own tables
(30_encoding.md sections 1 and 3), and four request records in the model's packing (log 1, the model's choice); a record with an
unused bit set is rejected (log 28, the model's choice). -/
def Obligations.WrittenOutWordsDecode : Prop :=
  decode (.byte .nibble 0x0D#8) = .ok (.nibTerm .cr) ∧
  decode (.byte .nibble 0x59#8) = .ok (.nibData 0x5#4 0x9#4) ∧
  decode (.byte .hexblock 0x0A#8) = .ok (.hexTerm .lf) ∧
  decode (.byte .hexblock 0x37#8) = .ok (.hexDig09 7) ∧
  decode (.byte .hexblock 0x46#8) = .ok (.hexDiguc 5) ∧
  decode (.byte .hexblock 0x62#8) = .ok (.hexDiglc 1) ∧
  decode (.byte .hexblock 0x47#8) = .ok (.hexDiscard 0x47#8) ∧
  decode (.record 0x04000000000000081000#80) = .ok (.syn 0x0810#64 4#3) ∧
  decode (.record 0x2D02#80) = .ok (.apply 1 0x0B#8) ∧
  decode (.record 0x5909#80) = .ok (.uartArrive 0x59#8) ∧
  decode (.record 0x0D#80) = .ok .rxCycle ∧
  decode (.record 0x1D#80) = .error .unusedBits

/-- R65: the classes of an input byte under NIBBLE. -/
def Obligations.NibbleClassesOfAByte : Prop :=
  ∀ c : Byte,
    (c = 0x0D#8 → decodeByte .nibble c = .nibTerm .cr) ∧
    (c = 0x0A#8 → decodeByte .nibble c = .nibTerm .lf) ∧
    (c ≠ 0x0D#8 → c ≠ 0x0A#8 →
      ∃ hi lo, decodeByte .nibble c = .nibData hi lo ∧ hi.toNat = c.toNat / 16 ∧ lo.toNat = c.toNat % 16)

/-- The classes of an input byte under HEXBLOCK, in the priority order of 30_encoding.md section 1, with the digits' values. -/
def Obligations.HexblockClassesOfAByte : Prop :=
  ∀ c : Byte,
    (c = 0x0D#8 → decodeByte .hexblock c = .hexTerm .cr) ∧
    (c = 0x0A#8 → decodeByte .hexblock c = .hexTerm .lf) ∧
    (0x30 ≤ c.toNat → c.toNat ≤ 0x39 →
      ∃ d, decodeByte .hexblock c = .hexDig09 d ∧ (digitValue09 d).toNat = c.toNat - 0x30) ∧
    (0x41 ≤ c.toNat → c.toNat ≤ 0x46 →
      ∃ d, decodeByte .hexblock c = .hexDiguc d ∧ (digitValueUc d).toNat = c.toNat - 0x37) ∧
    (0x61 ≤ c.toNat → c.toNat ≤ 0x66 →
      ∃ d, decodeByte .hexblock c = .hexDiglc d ∧ (digitValueLc d).toNat = c.toNat - 0x57) ∧
    (c ≠ 0x0D#8 → c ≠ 0x0A#8 → ¬ (0x30 ≤ c.toNat ∧ c.toNat ≤ 0x39) → ¬ (0x41 ≤ c.toNat ∧ c.toNat ≤ 0x46) →
      ¬ (0x61 ≤ c.toNat ∧ c.toNat ≤ 0x66) → decodeByte .hexblock c = .hexDiscard c)

/-! ### The step -/

/-- A step runs the scheduled request: when the first turn's record decodes to `i`, the step is `exec i` at the state with that
turn taken off the schedule and its node noted (10_state.md sections 1 and 3; the schedule is the model's, log 7, log 8). A turn
of HOST_OUT is its report, an empty schedule moves nothing, and a word that is no record is refused by name (log 28). -/
def Obligations.StepRunsTheScheduledRequest : Prop :=
  ∀ (s : State) (n : Node) (w : ReqWord) (rest : List Turn),
    (s.schedule = .request n w :: rest → ∀ i, decode (.record w) = .ok i →
      step s = exec i { s with schedule := rest, site := n }) ∧
    (s.schedule = .request n w :: rest → ∀ e, decode (.record w) = .error e → step s = .refused (.undecodable e)) ∧
    (s.schedule = .transmitReady :: rest → step s = .next ({ s with schedule := rest } : State).transmitReady) ∧
    (s.schedule = [] → step s = .next s)

/-! ### The codec (41_codec.md) -/

/-- SYN is the product with the check matrix: bit `j` of the syndrome is the parity of the low N bits of `v` AND row `j`, whose bit
`i − 1` is bit `j` of `i`; there is no bit at or above `r` (41_codec.md sections 1 and 2). -/
def Obligations.SynIsTheMatrixProduct : Prop :=
  ∀ (v : Word) (r j : Nat), legalWidth r = true →
    (syn v r).getLsbD j =
      (decide (j < r) &&
        (List.range (2 ^ r - 1)).foldl (fun p i => p ^^ (v.getLsbD i && (i + 1).testBit j)) false)

/-- R85: SYN is linear over GF(2). -/
def Obligations.SynIsLinear : Prop :=
  ∀ (a b : Word) (r : Nat), legalWidth r = true → syn (a ^^^ b) r = syn a r ^^^ syn b r

/-- The correction of a target has the reduced target as its syndrome (41_codec.md section 4). -/
def Obligations.CorrectionHasItsTarget : Prop :=
  ∀ (t : Byte) (r : Nat), legalWidth r = true →
    (syn (mincorr t r) r).toNat = t.toNat % 2 ^ r

/-- R87: the correction has weight 1, or 0 for target 0; it is the only vector of the block with that syndrome whose weight is no
greater; and each nonzero syndrome has exactly one single-bit vector. -/
def Obligations.CorrectionIsUniqueMinimal : Prop :=
  ∀ (t : Byte) (r : Nat), legalWidth r = true → t.toNat < 2 ^ r →
    weight (mincorr t r) = (if t = 0 then 0 else 1) ∧
    (∀ u : Word, u.toNat < 2 ^ (2 ^ r - 1) → syn u r = t → weight u ≤ weight (mincorr t r) → u = mincorr t r) ∧
    (t ≠ 0 → ∃ k, k < 2 ^ r - 1 ∧ syn (BitVec.twoPow 64 k) r = t ∧
      ∀ m, m < 2 ^ r - 1 → syn (BitVec.twoPow 64 m) r = t → m = k)

/-- A SYN request at a node that can step returns its result and changes nothing else; with a width outside 3..6 it raises
FLT_REFUSED with the request at that node (41_codec.md section 2; the record of results is the model's, log 9). -/
def Obligations.SynRequestAnswers : Prop :=
  ∀ (s : State) (v : Word) (r : BitVec 3), s.siteEnabled = true →
    (legalWidth r.toNat = true →
      exec (.syn v r) s = .next { s with results := s.results ++ [(syn v r.toNat).setWidth 64] }) ∧
    (legalWidth r.toNat = false → s.site = .tx →
      exec (.syn v r) s = .next { s with tx := { s.tx with ctl := { s.tx.ctl with fault := some (.refused (.syn v r)) } } }) ∧
    (legalWidth r.toNat = false → s.site = .rx →
      exec (.syn v r) s = .next { s with rx := { s.rx with ctl := { s.rx.ctl with fault := some (.refused (.syn v r)) } } })

/-- A MINCORR request at a node that can step returns `1 << (t' − 1)`, or 0 for t' = 0, where t' is the target reduced modulo 2^r;
with a width outside 3..6 it raises FLT_REFUSED (41_codec.md section 3; log 9). -/
def Obligations.MincorrRequestAnswers : Prop :=
  ∀ (s : State) (t : Byte) (r : BitVec 3), s.siteEnabled = true →
    (legalWidth r.toNat = true →
      exec (.mincorr t r) s = .next { s with results := s.results ++
        [if t.toNat % 2 ^ r.toNat = 0 then 0#64 else 1#64 <<< (t.toNat % 2 ^ r.toNat - 1)] }) ∧
    (legalWidth r.toNat = false → s.site = .tx →
      exec (.mincorr t r) s =
        .next { s with tx := { s.tx with ctl := { s.tx.ctl with fault := some (.refused (.mincorr t r)) } } }) ∧
    (legalWidth r.toNat = false → s.site = .rx →
      exec (.mincorr t r) s =
        .next { s with rx := { s.rx with ctl := { s.rx.ctl with fault := some (.refused (.mincorr t r)) } } })

/-! ### The encoder (42_encoder.md) -/

/-- R90: what APPLY does: FLT_BLOCK on a block index at or above K; FLT_NEST inside a critical section; else V[b] takes
`mask_N(V[b] ⊕ w)`, the event is recorded, IE is as before, SAVED_IE keeps it, and nothing else changes. -/
def Obligations.ApplyNextState : Prop :=
  ∀ (s : State) (b : BlockIdx) (d : Byte), s.tx.ctl.fault = none →
    (s.tx.cfg.k ≤ b.val →
      exec (.apply b d) s = .next { s with tx := { s.tx with ctl := { s.tx.ctl with fault := some (.block b) } } }) ∧
    (b.val < s.tx.cfg.k → s.tx.ctl.inCs = true →
      exec (.apply b d) s = .next { s with tx := { s.tx with ctl := { s.tx.ctl with fault := some .nest } } }) ∧
    (b.val < s.tx.cfg.k → s.tx.ctl.inCs = false →
      let r := s.tx.cfg.rAt b
      let sNew := maskLow r d
      let w := mincorr (sNew ^^^ syn s.tx.v[b] r) r
      exec (.apply b d) s = .next { s with tx := { s.tx with
        v := s.tx.v.set b (maskLow (2 ^ r - 1) (s.tx.v[b] ^^^ w))
        etrace := s.tx.etrace ++ [.applied b sNew w]
        ctl := { s.tx.ctl with savedIe := s.tx.ctl.ie } } })

/-- After APPLY(b, s) the syndrome of V[b] is the target reduced modulo 2^R[b] (42_encoder.md section 3). -/
def Obligations.ApplyReachesTheTarget : Prop :=
  ∀ (s : State) (b : BlockIdx) (d : Byte), s.tx.Ready → b.val < s.tx.cfg.k →
    ∃ t, exec (.apply b d) s = .next t ∧ (syn t.tx.v[b] (s.tx.cfg.rAt b)).toNat = d.toNat % 2 ^ s.tx.cfg.rAt b

/-- APPLY changes V[b] in at most one bit, and in exactly one when the reduced target differs from the syndrome before; every other
block keeps its vector (42_encoder.md section 3). -/
def Obligations.ApplyFlipsAtMostOneWire : Prop :=
  ∀ (s : State) (b : BlockIdx) (d : Byte), s.tx.Ready → s.tx.Sound → b.val < s.tx.cfg.k →
    ∃ t, exec (.apply b d) s = .next t ∧
      weight (s.tx.v[b] ^^^ t.tx.v[b]) =
        (if d.toNat % 2 ^ s.tx.cfg.rAt b = (syn s.tx.v[b] (s.tx.cfg.rAt b)).toNat then 0 else 1) ∧
      ∀ b' : BlockIdx, b' ≠ b → t.tx.v[b'] = s.tx.v[b']

/-- R96: applying the same target twice leaves the bus vector as the first application left it: the second computes the target
difference 0 and the correction 0. -/
def Obligations.ApplyTwiceIsApplyOnce : Prop :=
  ∀ (s : State) (b : BlockIdx) (d : Byte), s.tx.Ready → b.val < s.tx.cfg.k →
    ∃ t u, exec (.apply b d) s = .next t ∧ exec (.apply b d) t = .next u ∧
      maskLow (s.tx.cfg.rAt b) d ^^^ syn t.tx.v[b] (s.tx.cfg.rAt b) = 0 ∧
      u.tx.etrace = t.tx.etrace ++ [.applied b (maskLow (s.tx.cfg.rAt b) d) 0] ∧
      u.tx.v = t.tx.v

/-- APPLYBATCH is the APPLY of every active block's buffered digit in ascending order, with a REFRESH after each under
PER_BLOCK_APPLY; it completes when every active entry has been written, and leaves every active block at its digit's target
(42_encoder.md section 2). For the other case see ApplyBatchOfUnwrittenBufferFaults. -/
def Obligations.ApplyBatchAppliesEveryBlock : Prop :=
  ∀ s : State, s.tx.Ready → (∀ b : BlockIdx, b.val < s.tx.cfg.k → s.tx.buf[b].written = true) →
    exec .applyBatch s = runAll s.tx.batchRequests s ∧
    ∃ t, exec .applyBatch s = .next t ∧ s.DrivenFrom t ∧ t.tx.ctl.savedIe = s.tx.ctl.ie ∧
      (∀ b : BlockIdx, b.val < s.tx.cfg.k →
        t.tx.v[b] = s.tx.flipped b (s.tx.buf[b].digit.setWidth 8) ∧
        (syn t.tx.v[b] (s.tx.cfg.rAt b)).toNat = s.tx.buf[b].digit.toNat % 2 ^ s.tx.cfg.rAt b) ∧
      (∀ b : BlockIdx, s.tx.cfg.k ≤ b.val → t.tx.v[b] = s.tx.v[b])

/-- "Reading a field that is unwritten is a fault of the model, never a value" (10_state.md section 11): an APPLYBATCH whose first
unwritten active entry is `b` is the requests of the blocks below `b`, whose effects are kept, and then a fault, with nothing else
changed. That the fault is FLT_UNWRITTEN, and that of entry 0 it comes before the FLT_NEST of an open critical section, is the
model's (log 13). From reset no entry is written, so entry 0 is the first. -/
def Obligations.ApplyBatchOfUnwrittenBufferFaults : Prop :=
  (∀ (s : State) (b : BlockIdx), s.tx.ctl.fault = none → (s.tx.ctl.inCs = false ∨ b = 0) → b.val < s.tx.cfg.k →
    s.tx.buf[b].written = false → (∀ b' : BlockIdx, b'.val < b.val → s.tx.buf[b'].written = true) →
    ∃ u, runAll (s.tx.requestsOf (s.tx.cfg.blocks.take b.val)) s = .next u ∧ s.DrivenFrom u ∧
      (∀ b' : BlockIdx, u.tx.v[b'] =
        if b'.val < b.val then s.tx.flipped b' (s.tx.buf[b'].digit.setWidth 8) else s.tx.v[b']) ∧
      exec .applyBatch s = .next { u with tx := { u.tx with ctl := { u.tx.ctl with fault := some .unwritten } } }) ∧
  ∀ ct cr d (b : BlockIdx), (State.resetWith ct cr d).tx.buf[b].written = false

/-- Where each block sits in the aggregate vector: bit `i` of block `b` at OFF[b] + i, zeros from NSUM on (42_encoder.md section
4). -/
def Obligations.AggregatePlacesEveryBlock : Prop :=
  ∀ t : TxNode, t.cfg.WellFormed → t.Sound →
    (∀ (b : BlockIdx) (i : Nat), b.val < t.cfg.k → i < t.cfg.nAt b →
      t.agg.getLsbD (t.cfg.off b + i) = t.v[b].getLsbD i) ∧
    (∀ p, t.cfg.nsum ≤ p → t.agg.getLsbD p = false)

/-! ### The driver (44_driver.md) -/

/-- The line trace of one REFRESH: 5·TOTAL_BITS + 2 events, (LATCH,0) first, then for each bit from TOTAL_BITS − 1 down to 0 its
data level and the clock pulse with its two waits, and (LATCH,1) last (44_driver.md section 1). -/
def Obligations.RefreshTraceShape : Prop :=
  ∀ (c : CfgTx) (a : Word),
    (refreshEvents c a).length = 5 * c.totalBits + 2 ∧
    (refreshEvents c a)[0]? = some (.line .latch false) ∧
    (∀ j, j < c.totalBits →
      let q := 1 + 5 * (c.totalBits - 1 - j)
      (refreshEvents c a)[q]? = some (.line .data (if c.drvPol = .activeHigh then a.getLsbD j else !a.getLsbD j)) ∧
      (refreshEvents c a)[q + 1]? = some (.line .clk true) ∧
      (refreshEvents c a)[q + 2]? = some (.wait c.halfPeriod) ∧
      (refreshEvents c a)[q + 3]? = some (.line .clk false) ∧
      (refreshEvents c a)[q + 4]? = some (.wait c.halfPeriod)) ∧
    (refreshEvents c a)[5 * c.totalBits + 1]? = some (.line .latch true)

/-- What REFRESH does (44_driver.md sections 1 and 2): its line trace and its event are appended, IE is as before, the lines end at
DATA = pol(A[0]), CLK = 0, LATCH = 1, and the chain and the outputs show pol(A[p]) at every p < TOTAL_BITS, but for the last one
when the clock was high before, which is the old SR[0]; nothing else changes. Inside a critical section it raises FLT_NEST. -/
def Obligations.RefreshNextState : Prop :=
  ∀ s : State, s.tx.ctl.fault = none →
    (s.tx.ctl.inCs = true →
      exec .refresh s = .next { s with tx := { s.tx with ctl := { s.tx.ctl with fault := some .nest } } }) ∧
    (s.tx.ctl.inCs = false → s.tx.cfg.WellFormed →
      ∃ chain : Word,
        (∀ p, chain.getLsbD p =
          (decide (p < s.tx.cfg.totalBits) &&
            if p + 1 < s.tx.cfg.totalBits ∨ s.tx.clkL = false then pol s.tx.cfg.drvPol (s.tx.agg.getLsbD p)
            else s.tx.sr.getLsbD 0)) ∧
        exec .refresh s = .next { s with tx := { s.tx with
          ctl := { s.tx.ctl with savedIe := s.tx.ctl.ie }
          dataL := pol s.tx.cfg.drvPol (s.tx.agg.getLsbD 0)
          clkL := false
          latchL := true
          sr := chain
          out := chain
          ltrace := s.tx.ltrace ++ refreshEvents s.tx.cfg s.tx.agg
          etrace := s.tx.etrace ++ [.refreshed s.tx.agg] } })

/-- The outputs always show the last refreshed vector, but for the last output after the first REFRESH: an invariant of every step
(44_driver.md section 2). -/
def Obligations.OutputsShowTheLastRefresh : Prop :=
  ∀ s t : State, s.Sound → s.tx.BusShown → step s = .next t → t.tx.BusShown

/-! ### The framer (43_framer.md) -/

/-- POLL clears SLOT_FULL and then runs the FEED of the slot's byte under the configured policy; with an empty slot no step is
taken; from a sound, ready transmitter it completes without a fault (43_framer.md section 1). -/
def Obligations.PollFeedsTheSlotByte : Prop :=
  ∀ s : State,
    (s.tx.slotFull = true → s.tx.ctl.fault = none →
      exec .poll s =
        exec (decodeByte s.tx.cfg.policy s.tx.slotData).toInstr { s with tx := { s.tx with slotFull := false } }) ∧
    (s.tx.slotFull = false → exec .poll s = .next s) ∧
    (s.tx.slotFull = true → s.tx.Ready → s.tx.Sound →
      ∃ t, exec .poll s = .next t ∧ t.tx.slotFull = false ∧ t.tx.ctl = { t.tx.ctl with fault := none, inCs := false } ∧
        t.tx.ctl.ie = s.tx.ctl.ie ∧ t.rx = s.rx)

/-- R104: under NIBBLE a data byte is APPLY of the high nibble to block 0, REFRESH, APPLY of the low nibble, REFRESH, and it
completes with BATCH and FILL as before and the low nibble as block 0's syndrome. -/
def Obligations.DataByteIsTwoAppliesAndRefreshes : Prop :=
  ∀ (s : State) (hi lo : BitVec 4), s.tx.Ready → s.tx.cfg.policy = .nibble →
    exec (.nibData hi lo) s = runAll [.apply 0 (hi.setWidth 8), .refresh, .apply 0 (lo.setWidth 8), .refresh] s ∧
    ∃ t, exec (.nibData hi lo) s = .next t ∧ s.DrivenFrom t ∧
      syn t.tx.v[0] 4 = lo.setWidth 8 ∧ refreshCount t.tx.etrace = refreshCount s.tx.etrace + 2

/-- A terminator sets BATCH, records one BatchComplete, and changes nothing else but FILL, which TERM_RESETS_FILL resets under
HEXBLOCK (43_framer.md sections 2 and 3). -/
def Obligations.TerminatorsOnlySetBatch : Prop :=
  ∀ (s : State) (e : Terminator), s.tx.ctl.fault = none →
    (s.tx.cfg.policy = .nibble →
      exec (.nibTerm e) s =
        .next { s with tx := { s.tx with batch := true, etrace := s.tx.etrace ++ [.batchComplete] } }) ∧
    (s.tx.cfg.policy = .hexblock → s.tx.cfg.termResetsFill = false →
      exec (.hexTerm e) s =
        .next { s with tx := { s.tx with batch := true, etrace := s.tx.etrace ++ [.batchComplete] } }) ∧
    (s.tx.cfg.policy = .hexblock → s.tx.cfg.termResetsFill = true →
      exec (.hexTerm e) s =
        .next { s with tx := { s.tx with batch := true, etrace := s.tx.etrace ++ [.batchComplete], fill := 0 } })

/-- A digit that does not complete a batch is stored at BUF[FILL], FILL counts up, and one REFRESH follows under PER_DIGIT only; it
completes (43_framer.md section 3). -/
def Obligations.DigitOfAnOpenBatch : Prop :=
  ∀ (s : State) (i : Instr) (x : BitVec 4), i.digit = some x → s.tx.Ready → s.tx.cfg.policy = .hexblock →
    s.tx.fill.val + 1 < s.tx.cfg.k →
    let stored : State := { s with tx := { s.tx with buf := s.tx.buf.set s.tx.fill ⟨x, true⟩, fill := s.tx.fill + 1 } }
    exec i s = runAll s.tx.cfg.afterDigit stored ∧ stored.tx.fill.val = s.tx.fill.val + 1 ∧
    ∃ t, exec i s = .next t ∧ stored.DrivenFrom t ∧ t.tx.v = s.tx.v

/-- A digit that completes a batch is stored at BUF[FILL], FILL returns to 0, APPLYBATCH runs, and one REFRESH follows unless
PER_BLOCK_APPLY has refreshed already; it completes, and every active block is at its digit's target (43_framer.md section 3). Every
entry that APPLYBATCH then reads has been written (10_state.md section 6). -/
def Obligations.DigitThatCompletesABatch : Prop :=
  ∀ (s : State) (i : Instr) (x : BitVec 4), i.digit = some x → s.tx.Ready → s.tx.Sound → s.tx.cfg.policy = .hexblock →
    s.tx.fill.val + 1 = s.tx.cfg.k →
    let stored : State := { s with tx := { s.tx with buf := s.tx.buf.set s.tx.fill ⟨x, true⟩, fill := 0 } }
    exec i s = runAll (.applyBatch :: s.tx.cfg.afterBatch) stored ∧
    (∀ b : BlockIdx, b.val < s.tx.cfg.k → stored.tx.buf[b].written = true) ∧
    ∃ t, exec i s = .next t ∧ stored.DrivenFrom t ∧
      (syn t.tx.v[s.tx.fill] (s.tx.cfg.rAt s.tx.fill)).toNat = x.toNat % 2 ^ s.tx.cfg.rAt s.tx.fill ∧
      ∀ b : BlockIdx, b.val < s.tx.fill.val →
        (syn t.tx.v[b] (s.tx.cfg.rAt b)).toNat = s.tx.buf[b].digit.toNat % 2 ^ s.tx.cfg.rAt b

/-- R108: a byte that is neither digit nor terminator has no effect under HEXBLOCK; its POLL changes SLOT_FULL alone. -/
def Obligations.DiscardedByteHasNoEffect : Prop :=
  ∀ (s : State) (c : Byte), s.tx.cfg.policy = .hexblock → s.tx.ctl.fault = none →
    exec (.hexDiscard c) s = .next s ∧
    (s.tx.slotFull = true → isTerminator s.tx.slotData = false → isHexDigit s.tx.slotData = false →
      exec .poll s = .next { s with tx := { s.tx with slotFull := false } })

/-- The model's choice (log 14): an input-byte instruction under the other policy is refused by name. -/
def Obligations.InputClassNeedsItsPolicy : Prop :=
  ∀ (s : State) (x : InputClass), s.tx.cfg.policy ≠ x.policy → exec x.toInstr s = .refused (.otherPolicy x.policy)

/-- How many REFRESHes the POLL of a byte makes, by policy and refresh policy, as the table of 43_framer.md section 4 gives
them. -/
def Obligations.RefreshesPerInputByte : Prop :=
  ∀ s : State, s.tx.Ready → s.tx.Sound → s.tx.slotFull = true →
    ∃ t, exec .poll s = .next t ∧
      refreshCount t.tx.etrace = refreshCount s.tx.etrace +
        refreshesOfByte s.tx.cfg s.tx.fill.val (decodeByte s.tx.cfg.policy s.tx.slotData)

/-- ACKBATCH clears BATCH and changes nothing else (43_framer.md section 6). -/
def Obligations.AckBatchClearsBatch : Prop :=
  ∀ s : State, s.tx.ctl.fault = none → exec .ackBatch s = .next { s with tx := { s.tx with batch := false } }

/-! ### Interrupts and critical sections (60_exceptions.md) -/

/-- CSEnter saves IE, masks interrupts and marks the section open; inside an open section it raises FLT_NEST (60_exceptions.md
section 3). So at either node; which of them serves the request is the model's (log 8). -/
def Obligations.EnterMasksInterrupts : Prop :=
  ∀ s : State, s.siteEnabled = true →
    (s.site = .tx → s.tx.ctl.inCs = false →
      exec .csEnter s = .next { s with tx := { s.tx with
        ctl := { s.tx.ctl with savedIe := s.tx.ctl.ie, ie := false, inCs := true } } }) ∧
    (s.site = .tx → s.tx.ctl.inCs = true →
      exec .csEnter s = .next { s with tx := { s.tx with ctl := { s.tx.ctl with fault := some .nest } } }) ∧
    (s.site = .rx → s.rx.ctl.inCs = false →
      exec .csEnter s = .next { s with rx := { s.rx with
        ctl := { s.rx.ctl with savedIe := s.rx.ctl.ie, ie := false, inCs := true } } }) ∧
    (s.site = .rx → s.rx.ctl.inCs = true →
      exec .csEnter s = .next { s with rx := { s.rx with ctl := { s.rx.ctl with fault := some .nest } } })

/-- CSExit restores IE from SAVED_IE and closes the section; outside a section it raises FLT_NEST (60_exceptions.md section 3). So at
either node; which of them serves the request is the model's (log 8). -/
def Obligations.ExitRestoresInterrupts : Prop :=
  ∀ s : State, s.siteEnabled = true →
    (s.site = .tx → s.tx.ctl.inCs = true →
      exec .csExit s = .next { s with tx := { s.tx with
        ctl := { s.tx.ctl with ie := s.tx.ctl.savedIe, inCs := false } } }) ∧
    (s.site = .tx → s.tx.ctl.inCs = false →
      exec .csExit s = .next { s with tx := { s.tx with ctl := { s.tx.ctl with fault := some .nest } } }) ∧
    (s.site = .rx → s.rx.ctl.inCs = true →
      exec .csExit s = .next { s with rx := { s.rx with
        ctl := { s.rx.ctl with ie := s.rx.ctl.savedIe, inCs := false } } }) ∧
    (s.site = .rx → s.rx.ctl.inCs = false →
      exec .csExit s = .next { s with rx := { s.rx with ctl := { s.rx.ctl with fault := some .nest } } })

/-- UART_ARRIVE keeps the byte pending; with one pending already, the new byte replaces it or is lost, as the draw says
(60_exceptions.md section 4; the list of outcomes and the counter of free values are the model's, log 11). -/
def Obligations.ArrivalKeepsOneByte : Prop :=
  ∀ (s : State) (c : Byte), s.tx.ctl.fault = none →
    (s.tx.uartPend = false →
      exec (.uartArrive c) s = .next { s with tx := { s.tx with uartByte := c, uartPend := true } }) ∧
    (s.tx.uartPend = true → s.env.overrun = [] →
      exec (.uartArrive c) s =
        .next { s with env := { s.env with taken := s.env.taken + 1 }, tx := { s.tx with uartByte := c } } ∨
      exec (.uartArrive c) s = .next { s with env := { s.env with taken := s.env.taken + 1 } }) ∧
    (s.tx.uartPend = true → ∀ rest, s.env.overrun = true :: rest →
      exec (.uartArrive c) s =
        .next { s with env := { s.env with overrun := rest }, tx := { s.tx with uartByte := c } }) ∧
    (s.tx.uartPend = true → ∀ rest, s.env.overrun = false :: rest →
      exec (.uartArrive c) s = .next { s with env := { s.env with overrun := rest } })

/-- ISR_RX moves the pending byte to the slot and fills it; into a full slot it overwrites or loses the byte, as the draw says;
masked, or with nothing pending, it is not taken (60_exceptions.md section 4; the list of outcomes and the counter of free values
are the model's, log 11). It touches nothing else. -/
def Obligations.InterruptMovesThePendingByte : Prop :=
  ∀ s : State, s.tx.ctl.fault = none →
    (s.tx.uartPend = true → s.tx.ctl.ie = true → s.tx.slotFull = false →
      exec .isrRx s = .next { s with tx := { s.tx with
        uartPend := false, slotData := s.tx.uartByte, slotFull := true } }) ∧
    (s.tx.uartPend = true → s.tx.ctl.ie = true → s.tx.slotFull = true → s.env.overrun = [] →
      exec .isrRx s = .next { s with env := { s.env with taken := s.env.taken + 1 }, tx := { s.tx with
        uartPend := false, slotData := s.tx.uartByte } } ∨
      exec .isrRx s = .next { s with env := { s.env with taken := s.env.taken + 1 }, tx := { s.tx with uartPend := false } }) ∧
    (s.tx.uartPend = true → s.tx.ctl.ie = true → s.tx.slotFull = true → ∀ rest, s.env.overrun = true :: rest →
      exec .isrRx s = .next { s with env := { s.env with overrun := rest }, tx := { s.tx with
        uartPend := false, slotData := s.tx.uartByte } }) ∧
    (s.tx.uartPend = true → s.tx.ctl.ie = true → s.tx.slotFull = true → ∀ rest, s.env.overrun = false :: rest →
      exec .isrRx s = .next { s with env := { s.env with overrun := rest }, tx := { s.tx with uartPend := false } }) ∧
    (s.tx.uartPend = false ∨ s.tx.ctl.ie = false → exec .isrRx s = .next s)

/-- A request that opens a critical section while one is open raises FLT_NEST at its first CSEnter: what it did before is kept and
nothing later runs (60_exceptions.md sections 2 and 3). So APPLYBATCH, a data byte under NIBBLE, a digit where it applies a batch or
refreshes, POLL of such a byte (of any byte, by PollFeedsTheSlotByte), and RXCYCLE; a digit that does neither completes. -/
def Obligations.OpenSectionRaisesNest : Prop :=
  let nested (t : TxNode) : TxNode := { t with ctl := { t.ctl with fault := some .nest } }
  ∀ s : State,
    (s.tx.ctl.fault = none → s.tx.ctl.inCs = true →
      (1 ≤ s.tx.cfg.k → s.tx.buf[0].written = true → exec .applyBatch s = .next { s with tx := nested s.tx }) ∧
      (∀ hi lo, s.tx.cfg.policy = .nibble → 1 ≤ s.tx.cfg.k → exec (.nibData hi lo) s = .next { s with tx := nested s.tx }) ∧
      (s.tx.cfg.policy = .nibble → 1 ≤ s.tx.cfg.k → s.tx.slotFull = true → isTerminator s.tx.slotData = false →
        exec .poll s = .next { s with tx := nested { s.tx with slotFull := false } }) ∧
      ∀ (i : Instr) (x : BitVec 4), i.digit = some x → s.tx.cfg.policy = .hexblock →
        let stored : TxNode := { s.tx with buf := s.tx.buf.set s.tx.fill ⟨x, true⟩ }
        (s.tx.fill.val + 1 < s.tx.cfg.k →
          exec i s = .next { s with tx :=
            if s.tx.cfg.refreshPolicy = .perDigit then nested { stored with fill := s.tx.fill + 1 }
            else { stored with fill := s.tx.fill + 1 } }) ∧
        (s.tx.fill.val + 1 = s.tx.cfg.k → s.tx.fill = 0 ∨ s.tx.buf[0].written = true →
          exec i s = .next { s with tx := nested { stored with fill := 0 } })) ∧
    (s.rx.ctl.fault = none → s.rx.ctl.inCs = true → s.rx.sending = [] →
      exec .rxCycle s = .next { s with rx := { s.rx with ctl := { s.rx.ctl with fault := some .nest } } })

/-- The reserved tags raise FLT_REFUSED with the request at the node that serves them, and change nothing else (30_encoding.md
section 4). -/
def Obligations.ReservedTagsAreRefused : Prop :=
  ∀ (s : State) (i : Instr), i = .reservedE ∨ i = .reservedF → s.siteEnabled = true →
    (s.site = .tx →
      exec i s = .next { s with tx := { s.tx with ctl := { s.tx.ctl with fault := some (.refused i) } } }) ∧
    (s.site = .rx →
      exec i s = .next { s with rx := { s.rx with ctl := { s.rx.ctl with fault := some (.refused i) } } })

/-- SEND c under the premise PACED: arrival, interrupt and POLL run the FEED of exactly that byte, and leave it in the buffer and
in the emptied slot (30_encoding.md section 6, 92_eei_decisions.md D34). -/
def Obligations.PacedSendFeedsItsByte : Prop :=
  ∀ (s : State) (c : Byte), s.tx.Paced → s.tx.ctl.fault = none → s.tx.ctl.ie = true →
    runAll [.uartArrive c, .isrRx, .poll] s =
      exec (decodeByte s.tx.cfg.policy c).toInstr { s with tx := { s.tx with uartByte := c, slotData := c } }

/-- A quiescent transmitter takes no POLL and no ISR_RX (70_reset_and_hazards.md section 1). -/
def Obligations.QuiescentTransmitterWaits : Prop :=
  ∀ s : State, s.tx.Quiescent → exec .poll s = .next s ∧ exec .isrRx s = .next s

/-! ### The receiver (45_sampler.md, 46_reporter.md) -/

/-- SAMPLE reads the referenced ports inside a critical section and stores the observed vector: bit k is the level of the pin that
PIN_MAP gives it, complemented under ACTIVE_LOW, and 0 where it gives none; SAMPLED_VALID = 1; IE is as before; nothing else
changes. Inside a critical section it raises FLT_NEST (45_sampler.md section 1). Port A is answered before port B (log 25), and the
answers come from the model's lists (log 10). -/
def Obligations.SampleNextState : Prop :=
  ∀ s : State, s.rx.ctl.fault = none → s.rx.sending = [] →
    (s.rx.ctl.inCs = true →
      exec .sample s = .next { s with rx := { s.rx with ctl := { s.rx.ctl with fault := some .nest } } }) ∧
    (s.rx.ctl.inCs = false → s.rx.cfg.WellFormed →
      ∃ o : Word,
        (∀ k, o.getLsbD k =
          (decide (k < s.rx.cfg.nRx) &&
            match s.rx.cfg.pinOf k with
            | none        => false
            | some ⟨.a, q⟩ => (s.portByte .a).getLsbD q.val ^^ decide (s.rx.cfg.polRx = .activeLow)
            | some ⟨.b, q⟩ => ((s.readPort .a).portByte .b).getLsbD q.val ^^ decide (s.rx.cfg.polRx = .activeLow))) ∧
        exec .sample s = .next { s with
          env := ((s.readPort .a).readPort .b).env
          rx := { s.rx with sampled := o, sampledValid := true, ctl := { s.rx.ctl with savedIe := s.rx.ctl.ie } } })

/-- A read of a port that PIN_MAP references takes ENV's next listed answer for that port, and gives 0 at the pins that are low and 1
at every other; a port it does not reference is not read (45_sampler.md section 1; the lists are the model's, log 10). -/
def Obligations.PortReadsTakeListedAnswers : Prop :=
  ∀ (s : State) (x : PortPins) (rest : List PortPins),
    (s.rx.cfg.usesPort .a = true → s.env.portA = x :: rest →
      (∀ q : Fin 8, (s.portByte .a).getLsbD q.val = decide (x[q] ≠ .low)) ∧
      (s.readPort .a).env = { s.env with portA := rest }) ∧
    (s.rx.cfg.usesPort .b = true → s.env.portB = x :: rest →
      (∀ q : Fin 8, (s.portByte .b).getLsbD q.val = decide (x[q] ≠ .low)) ∧
      (s.readPort .b).env = { s.env with portB := rest }) ∧
    (∀ p, s.rx.cfg.usesPort p = false → s.readPort p = s)

/-- Polarity, and floating pins (45_sampler.md section 1): under ACTIVE_HIGH a mapped bit of the sample is 0 exactly when its pin is
low, under ACTIVE_LOW it is 1 exactly then; so a floating pin gives what a high one does. The lists are the model's (log 10). -/
def Obligations.FloatingPinReadsAsHigh : Prop :=
  ∀ (s : State) (a b : PortPins) (restA restB : List PortPins), s.rx.Ready → s.env.portA = a :: restA → s.env.portB = b :: restB →
    ∃ t, exec .sample s = .next t ∧ ∀ (k : Nat) (q : PinRef), s.rx.cfg.pinOf k = some q →
      let level : PinLevel := match q.port with | .a => a[q.pin] | .b => b[q.pin]
      (s.rx.cfg.polRx = .activeHigh → t.rx.sampled.getLsbD k = decide (level = .high ∨ level = .floating)) ∧
      (s.rx.cfg.polRx = .activeLow → t.rx.sampled.getLsbD k = decide (level = .low))

/-- R127: a pin that PIN_MAP does not name influences no bit: two environments whose answers agree on every mapped pin give the
same receiver; and a bit that PIN_MAP does not name is 0. -/
def Obligations.UnmappedPinsHaveNoInfluence : Prop :=
  ∀ (s : State) (e e' : Env), s.rx.Ready →
    (∀ k q, s.rx.cfg.pinOf k = some ⟨.a, q⟩ →
      (({ s with env := e } : State).portByte .a).getLsbD q.val = (({ s with env := e' } : State).portByte .a).getLsbD q.val) →
    (∀ k q, s.rx.cfg.pinOf k = some ⟨.b, q⟩ →
      ((({ s with env := e } : State).readPort .a).portByte .b).getLsbD q.val =
        ((({ s with env := e' } : State).readPort .a).portByte .b).getLsbD q.val) →
    ∃ t t', exec .sample { s with env := e } = .next t ∧ exec .sample { s with env := e' } = .next t' ∧ t.rx = t'.rx ∧
      ∀ k, s.rx.cfg.pinOf k = none → t.rx.sampled.getLsbD k = false

/-- REPORT raises FLT_UNWRITTEN before any SAMPLE, sends nothing for syndrome 0, and else sends the uppercase hexadecimal digit, CR
and LF, each when HOST_OUT is transmit-ready; SAMPLED stays and nothing else changes (46_reporter.md section 1; the held bytes and
the count of reports given in advance are the model's, log 12; the codes are ASCII, log 17). -/
def Obligations.ReportNextState : Prop :=
  ∀ s : State, s.rx.ctl.fault = none → s.rx.sending = [] →
    (s.rx.sampledValid = false →
      exec .report s = .next { s with rx := { s.rx with ctl := { s.rx.ctl with fault := some .unwritten } } }) ∧
    (s.rx.sampledValid = true → syn s.rx.sampled s.rx.cfg.rRx = 0 → exec .report s = .next s) ∧
    (s.rx.sampledValid = true → syn s.rx.sampled s.rx.cfg.rRx ≠ 0 →
      let x := (syn s.rx.sampled s.rx.cfg.rRx).toNat
      let frame : List Byte := [BitVec.ofNat 8 (if x ≤ 9 then 0x30 + x else 0x37 + x), 0x0D#8, 0x0A#8]
      exec .report s = .next { s with
        hostOut := s.hostOut - 3
        rx := { s.rx with txout := s.rx.txout ++ frame.take s.hostOut, sending := frame.drop s.hostOut } })

/-- A held report: each turn of HOST_OUT sends exactly its next byte; while a byte is held every request that the receiver serves
leaves the state as it is; and from a REPORT that sends nothing at once, three turns of HOST_OUT send the frame byte by byte
(46_reporter.md sections 1 and 2; the hold and the turns are the model's, log 12, and so is the serving node, log 8). -/
def Obligations.HeldReportIsFinishedByTransmitReady : Prop :=
  ∀ s : State,
    (∀ c cs rest, s.rx.ctl.fault = none → s.rx.sending = c :: cs → s.hostOut = 0 → s.schedule = .transmitReady :: rest →
      step s = .next { s with schedule := rest, rx := { s.rx with txout := s.rx.txout ++ [c], sending := cs } }) ∧
    (∀ i : Instr, s.rx.sending ≠ [] → i.owner = some .rx ∨ (i.owner = none ∧ s.site = .rx) → exec i s = .next s) ∧
    (s.rx.ctl.fault = none → s.rx.sending = [] → s.rx.sampledValid = true → s.rx.syndrome ≠ 0 → s.hostOut = 0 →
      exec .report s = .next { s with rx := { s.rx with sending := [hexchar s.rx.syndrome, 0x0D#8, 0x0A#8] } } ∧
      ∃ u v w, step { s with
          schedule := [.transmitReady, .transmitReady, .transmitReady]
          rx := { s.rx with sending := [hexchar s.rx.syndrome, 0x0D#8, 0x0A#8] } } = .next u ∧
        u.rx = { s.rx with txout := s.rx.txout ++ [hexchar s.rx.syndrome], sending := [0x0D#8, 0x0A#8] } ∧
        step u = .next v ∧ v.rx = { s.rx with txout := s.rx.txout ++ [hexchar s.rx.syndrome, 0x0D#8], sending := [0x0A#8] } ∧
        step v = .next w ∧ w.rx = { s.rx with txout := s.rx.txout ++ [hexchar s.rx.syndrome, 0x0D#8, 0x0A#8] } ∧ w.hostOut = 0)

/-- RXCYCLE is SAMPLE and then REPORT, and it completes with SAMPLED_VALID = 1 and no fault (46_reporter.md section 2). -/
def Obligations.ReceiverCycleIsSampleThenReport : Prop :=
  ∀ s : State, s.rx.Ready →
    exec .rxCycle s = runAll [.sample, .report] s ∧
    ∃ t, exec .rxCycle s = .next t ∧
      t = { s with env := t.env, hostOut := t.hostOut, rx := { s.rx with
        sampled := t.rx.sampled, sampledValid := true, ctl := { s.rx.ctl with savedIe := s.rx.ctl.ie },
        txout := t.rx.txout, sending := t.rx.sending } } ∧
      t.rx.txout ++ t.rx.sending = s.rx.txout ++ reportFrame (syn t.rx.sampled s.rx.cfg.rRx)

/-- The round trip (46_reporter.md section 2): a transmitter with one 15-wire block takes a data byte; the environment then passes
its 15 outputs unchanged to the receiver's pins, which map bits 0..7 from port A and 8..14 from port B with matching polarity;
the receiver's cycle reports the byte's low nibble, and nothing if it is 0. -/
def Obligations.RoundTripReportsTheLowNibble : Prop :=
  ∀ (s : State) (hi lo : BitVec 4),
    s.tx.Ready → s.tx.cfg.policy = .nibble → s.tx.cfg.totalBits = 15 → s.rx.Ready → s.rx.cfg.rRx = 4 →
    (s.rx.cfg.polRx = s.tx.cfg.drvPol) →
    (∀ k : Fin 8, s.rx.cfg.pinOf k.val = some ⟨.a, k⟩) →
    (∀ k : Fin 7, s.rx.cfg.pinOf (8 + k.val) = some ⟨.b, k.castSucc⟩) →
    3 ≤ s.hostOut →
    ∃ t, exec (.nibData hi lo) s = .next t ∧
      ∀ restA restB, ∃ u,
        exec .rxCycle { t with env := { t.env with
          portA := drivenPins (t.tx.out.extractLsb' 0 8) :: restA
          portB := drivenPins (t.tx.out.extractLsb' 8 8) :: restB } } = .next u ∧
        u.rx.sampled = t.tx.v[0] ∧
        u.rx.txout = s.rx.txout ++ reportFrame (lo.setWidth 8)

/-! ### The whole machine -/

/-- The configuration is an argument of the initial state, its checks are made at reset, a failed one shows as FLT_CFG with the check's
name, and no step changes it (70_reset_and_hazards.md section 1; 60_exceptions.md section 2). Which of several failed checks is
recorded is the model's (log 22), and so is the check of DRV_PINS (log 20). -/
def Obligations.ConfigurationIsFixed : Prop :=
  (∀ ct cr d, (State.resetWith ct cr d).tx.cfg = ct ∧ (State.resetWith ct cr d).rx.cfg = cr ∧
    (State.resetWith ct cr d).tx.ctl.fault = ct.failed.map Fault.cfg ∧
    (State.resetWith ct cr d).rx.ctl.fault = cr.failed.map Fault.cfg) ∧
  ∀ s t : State, step s = .next t → t.tx.cfg = s.tx.cfg ∧ t.rx.cfg = s.rx.cfg

/-- The values after reset of the fields that 10_state.md section 11 gives one, for every configuration and every draw; the chain's
draws fit CHAIN_LEN. -/
def Obligations.ResetValues : Prop :=
  ∀ ct cr d, let s := State.resetWith ct cr d
    (∀ b : BlockIdx, s.tx.v[b] = 0 ∧ s.tx.buf[b].written = false) ∧ s.tx.fill = 0 ∧ s.tx.batch = false ∧
    s.tx.slotFull = false ∧ s.tx.uartPend = false ∧ s.tx.ctl.ie = true ∧ s.tx.ctl.inCs = false ∧ s.tx.ltrace = [] ∧
    s.tx.etrace = [] ∧ s.rx.sampledValid = false ∧ s.rx.ctl.ie = true ∧ s.rx.ctl.inCs = false ∧ s.rx.txout = [] ∧
    s.tx.dataL = d.dataL ∧ s.tx.clkL = d.clkL ∧ s.tx.latchL = d.latchL ∧
    (∀ p, s.tx.out.getLsbD p = (decide (p < ct.chainLen) && d.out.getLsbD p)) ∧
    (∀ p, s.tx.sr.getLsbD p = (decide (p < ct.chainLen) && d.sr.getLsbD p))

/-- A node that has faulted never changes again, whatever agents step (60_exceptions.md section 2). -/
def Obligations.FaultedNodeStaysAsItIs : Prop :=
  ∀ s t : State, step s = .next t →
    (s.tx.ctl.fault ≠ none → t.tx = s.tx) ∧ (s.rx.ctl.fault ≠ none → t.rx = s.rx)

/-- A node whose configuration is ill-formed takes no step from reset on (60_exceptions.md section 2). -/
def Obligations.IllFormedNodeNeverSteps : Prop :=
  ∀ (ct : CfgTx) (cr : CfgRx) (d : ResetDraws) (turns : List Turn) (ready : Nat) (env : Env) (n : Nat) (t : State),
    core.run n { State.resetWith ct cr d with schedule := turns, hostOut := ready, env := env } = .next t →
      (¬ ct.WellFormed → t.tx = TxNode.resetWith ct d) ∧ (¬ cr.WellFormed → t.rx = RxNode.resetWith cr d)

/-- The traces are only ever appended to (10_state.md section 6). -/
def Obligations.TracesOnlyGrow : Prop :=
  ∀ s t : State, step s = .next t →
    s.tx.ltrace <+: t.tx.ltrace ∧ s.tx.etrace <+: t.tx.etrace ∧ s.rx.txout <+: t.rx.txout

/-- R91: APPLY is the only path by which V[b] changes, and always by the minimal edit: whatever instruction changes it has
recorded an APPLY of that block in the same step, and the change is the XOR of the corrections so recorded, each of weight at most
1. -/
def Obligations.OnlyApplyChangesTheVector : Prop :=
  ∀ (s t : State) (i : Instr) (b : BlockIdx), s.Sound → exec i s = .next t →
    ∃ new, t.tx.etrace = s.tx.etrace ++ new ∧ t.tx.v[b] = s.tx.v[b] ^^^ replay b new ∧
      (t.tx.v[b] ≠ s.tx.v[b] → ∃ d w, TxEvent.applied b d w ∈ new) ∧
      ∀ d w, TxEvent.applied b d w ∈ new → weight w ≤ 1

/-- The event trace tells every block's history: V[b] is the XOR of its recorded corrections and its syndrome is its last recorded
target; an invariant of every step (42_encoder.md section 3). -/
def Obligations.TraceTellsTheHistory : Prop :=
  ∀ s t : State, s.Sound → s.tx.History → step s = .next t → t.tx.History

/-- The reset state has that history, for every configuration and draw. -/
def Obligations.ResetHasItsHistory : Prop :=
  ∀ ct cr d, (State.resetWith ct cr d).tx.History ∧ (State.resetWith ct cr d).tx.BusShown

/-- The shape of the state is an invariant of every step: masked vectors, FILL below K, no unwritten entry in the batch so far, a
chain of CHAIN_LEN stages, zero at unmapped bits, interrupts masked in a critical section, and a held report that is the end of
its frame (10_state.md sections 2, 6 and 7; 43_framer.md section 5). -/
def Obligations.EveryStepKeepsTheShape : Prop := ∀ s t : State, s.Sound → step s = .next t → t.Sound

/-- The reset state has that shape, for every configuration and draw. -/
def Obligations.ResetHasTheShape : Prop := ∀ ct cr d, (State.resetWith ct cr d).Sound

/-- From a state between agent steps, with agent steps scheduled only, the next step is taken, raises no fault and ends with IE = 1
and IN_CS = 0 at both nodes, so the run goes on (60_exceptions.md sections 2 and 3). -/
def Obligations.AgentRunsNeverFault : Prop := ∀ s : State, s.AgentRun → ∃ t, step s = .next t ∧ t.AgentRun

/-- After reset of well-formed nodes a schedule of agent turns is such a run, for every draw and every environment. -/
def Obligations.ResetStartsAnAgentRun : Prop :=
  ∀ (ct : CfgTx) (cr : CfgRx) (d : ResetDraws) (turns : List Turn) (ready : Nat) (env : Env),
    ct.WellFormed → cr.WellFormed → (∀ u ∈ turns, Turn.isAgentTurn u = true) →
    State.AgentRun { State.resetWith ct cr d with schedule := turns, hostOut := ready, env := env }

/-- The nodes share nothing: an instruction of one node neither changes the other's record nor depends on it (10_state.md section
1; 20_memory.md section 6). -/
def Obligations.NodesShareNothing : Prop :=
  ∀ (s t : State) (i : Instr), exec i s = .next t →
    (i.owner = some .tx → t.rx = s.rx ∧ t.hostOut = s.hostOut ∧
      ∀ x n, exec i { s with rx := x, hostOut := n } = .next { t with rx := x, hostOut := n }) ∧
    (i.owner = some .rx → t.tx = s.tx ∧ ∀ y, exec i { s with tx := y } = .next { t with tx := y })
end

