-- ==== Sys2Proof/Laws/Traces.lean ====
section
/-! SUPPORT. Laws/Traces.lean: the observations of an event trace, one event at a time. -/

namespace Sys2Proof.Machine

@[simp] theorem refreshCount_append (es fs : List TxEvent) : refreshCount (es ++ fs) = refreshCount es + refreshCount fs := by
  simp [refreshCount]

@[simp] theorem refreshCount_applied (b : BlockIdx) (s : Byte) (w : Word) : refreshCount [.applied b s w] = 0 := rfl
@[simp] theorem refreshCount_refreshed (a : Word) : refreshCount [.refreshed a] = 1 := rfl
@[simp] theorem refreshCount_batch : refreshCount [.batchComplete] = 0 := rfl

@[simp] theorem lastRefreshed_snoc (es : List TxEvent) (e : TxEvent) :
    lastRefreshed (es ++ [e]) = e.lastVector (lastRefreshed es) := by simp [lastRefreshed]

@[simp] theorem replay_snoc (b : BlockIdx) (es : List TxEvent) (e : TxEvent) :
    replay b (es ++ [e]) = e.replayed b (replay b es) := by simp [replay]

@[simp] theorem lastTarget_snoc (b : BlockIdx) (es : List TxEvent) (e : TxEvent) :
    lastTarget b (es ++ [e]) = e.targeted b (lastTarget b es) := by simp [lastTarget]

/-- No REFRESH is recorded exactly when there is no last refreshed vector. -/
theorem lastRefreshed_eq_none (es : List TxEvent) : lastRefreshed es = none ↔ refreshCount es = 0 := by
  induction es using List.reverseRecOn with
  | nil => simp [lastRefreshed, refreshCount]
  | append_singleton es e ih =>
    rw [lastRefreshed_snoc, refreshCount_append]
    cases e with
    | batchComplete => simpa [TxEvent.lastVector] using ih
    | refreshed a => simp [TxEvent.lastVector]
    | applied b s w => simpa [TxEvent.lastVector] using ih

/-- One entry of a record of four blocks replaced. -/
theorem set_block {α : Type} (v : Vector α 4) (b b' : BlockIdx) (x : α) :
    (v.set b x)[b'] = if b' = b then x else v[b'] := by
  by_cases h : b' = b
  · subst h; simp
  · have : (b : Nat) ≠ (b' : Nat) := fun e => h (Fin.ext e.symm)
    simp [h, this]

end Sys2Proof.Machine
end

