-- ==== Sys2Proof/Laws/Mask.lean ====
section
/-! SUPPORT. Laws/Mask.lean: what `mask_n` does to bits, values and sums (00_scope.md R10). -/

namespace Sys2Proof

@[simp] theorem getLsbD_maskLow {w : Nat} (n : Nat) (v : BitVec w) (i : Nat) :
    (maskLow n v).getLsbD i = (decide (i < n) && v.getLsbD i) := by
  rw [maskLow, BitVec.getLsbD_and, BitVec.getLsbD_ofNat, Nat.testBit_two_pow_sub_one]
  by_cases hi : i < w
  · simp [hi, Bool.and_comm]
  · simp [BitVec.getLsbD_of_ge _ _ (Nat.le_of_not_lt hi)]

theorem maskLow_xor {w : Nat} (n : Nat) (a b : BitVec w) : maskLow n (a ^^^ b) = maskLow n a ^^^ maskLow n b := by
  apply BitVec.eq_of_getLsbD_eq
  intro i _
  simp only [getLsbD_maskLow, BitVec.getLsbD_xor]
  cases decide (i < n) <;> simp

@[simp] theorem maskLow_maskLow {w : Nat} (n : Nat) (a : BitVec w) : maskLow n (maskLow n a) = maskLow n a := by
  apply BitVec.eq_of_getLsbD_eq
  intro i _
  simp

@[simp] theorem maskLow_zero {w : Nat} (n : Nat) : maskLow n (0#w) = 0#w := by
  apply BitVec.eq_of_getLsbD_eq
  intro i _
  simp

/-- `mask_n(v)` is `v` reduced modulo 2^n (00_scope.md R10). -/
theorem toNat_maskLow {w : Nat} (n : Nat) (v : BitVec w) : (maskLow n v).toNat = v.toNat % 2 ^ n := by
  apply Nat.eq_of_testBit_eq
  intro i
  rw [Nat.testBit_mod_two_pow, BitVec.testBit_toNat, BitVec.testBit_toNat, getLsbD_maskLow]

theorem maskLow_toNat_lt {w : Nat} (n : Nat) (v : BitVec w) : (maskLow n v).toNat < 2 ^ n := by
  rw [toNat_maskLow]
  exact Nat.mod_lt _ (Nat.two_pow_pos n)

/-- A value that fits is not changed by the mask. -/
theorem maskLow_of_lt {w n : Nat} {v : BitVec w} (h : v.toNat < 2 ^ n) : maskLow n v = v := by
  apply BitVec.eq_of_toNat_eq
  rw [toNat_maskLow, Nat.mod_eq_of_lt h]

/-- A value fits in `n` bits exactly when its bits from `n` on are 0. -/
theorem toNat_lt_iff_getLsbD {w n : Nat} (v : BitVec w) :
    v.toNat < 2 ^ n ↔ ∀ i, n ≤ i → v.getLsbD i = false := by
  constructor
  · intro h i hi
    rw [← maskLow_of_lt h, getLsbD_maskLow]
    simp [Nat.not_lt.mpr hi]
  · intro h
    have : maskLow n v = v := by
      apply BitVec.eq_of_getLsbD_eq
      intro i _
      rw [getLsbD_maskLow]
      by_cases hi : i < n
      · simp [hi]
      · simp [hi, h i (Nat.le_of_not_lt hi)]
    rw [← this]
    exact maskLow_toNat_lt n v

end Sys2Proof
end

