-- ==== Sys2Proof/Laws/Config.lean ====
section
/-! SUPPORT. Laws/Config.lean: what a well-formed configuration gives (00_scope.md R8). -/

namespace Sys2Proof

theorem CfgTx.WellFormed.passes {c : CfgTx} (h : c.WellFormed) (q : Check) : c.passes q = true := by
  have h' := List.find?_eq_none.mp h q (by cases q <;> simp [Check.inOrder])
  simpa using h'

theorem CfgRx.WellFormed.passes {c : CfgRx} (h : c.WellFormed) (q : Check) : c.passes q = true := by
  have h' := List.find?_eq_none.mp h q (by cases q <;> simp [Check.inOrder])
  simpa using h'

theorem CfgTx.WellFormed.k_pos {c : CfgTx} (h : c.WellFormed) : 1 ≤ c.k := by
  have := h.passes .chkK
  simp [CfgTx.passes] at this
  exact this.1

theorem CfgTx.WellFormed.k_le {c : CfgTx} (h : c.WellFormed) : c.k ≤ 4 := by
  have := h.passes .chkK
  simp [CfgTx.passes] at this
  exact this.2

theorem CfgTx.WellFormed.width {c : CfgTx} (h : c.WellFormed) {b : Nat} (hb : b < c.k) : legalWidth (c.rAt b) = true := by
  have := h.passes .chkR
  simp only [CfgTx.passes, List.all_eq_true, List.mem_range] at this
  exact this b hb

theorem CfgTx.WellFormed.nsum_le {c : CfgTx} (h : c.WellFormed) : c.nsum ≤ c.totalBits := by
  have := h.passes .chkTotal
  simp [CfgTx.passes] at this
  exact this.1

theorem CfgTx.WellFormed.total_le {c : CfgTx} (h : c.WellFormed) : c.totalBits ≤ 64 := by
  have := h.passes .chkTotal
  simp [CfgTx.passes] at this
  exact this.2

theorem CfgTx.WellFormed.nibble {c : CfgTx} (h : c.WellFormed) (hp : c.policy = .nibble) : c.k = 1 ∧ c.rAt 0 = 4 := by
  have := h.passes .chkNib
  simpa [CfgTx.passes, hp] using this

theorem CfgRx.WellFormed.width {c : CfgRx} (h : c.WellFormed) : c.rRx = 3 ∨ c.rRx = 4 := by
  have := h.passes .chkRrx
  simpa [CfgRx.passes] using this

theorem CfgRx.WellFormed.nRx_le {c : CfgRx} (h : c.WellFormed) : c.nRx ≤ 15 := by
  rcases h.width with h | h <;> simp [CfgRx.nRx, h]

theorem CfgRx.mem_pinMap {c : CfgRx} {k : Nat} {q : PinRef} (h : c.pinOf k = some q) : (k, q) ∈ c.pinMap := by
  rw [CfgRx.pinOf, List.lookup_eq_some_iff] at h
  obtain ⟨l, r, e, _⟩ := h
  rw [e]
  simp

/-- A port that gives some bit is read (45_sampler.md R126). -/
theorem CfgRx.usesPort_of_pinOf {c : CfgRx} {k : Nat} {q : PinRef} (h : c.pinOf k = some q) : c.usesPort q.port = true :=
  List.any_eq_true.mpr ⟨_, CfgRx.mem_pinMap h, by simp⟩

/-- A mapped bit is a bit of the sample (00_scope.md R8 CHK_PIN). -/
theorem CfgRx.WellFormed.pinOf_lt {c : CfgRx} (h : c.WellFormed) {k : Nat} {q : PinRef} (hk : c.pinOf k = some q) : k < c.nRx := by
  have := h.passes .chkPin
  simp only [CfgRx.passes, List.all_eq_true, decide_eq_true_eq] at this
  exact this _ (CfgRx.mem_pinMap hk)

theorem CfgTx.off_mono (c : CfgTx) {a b : Nat} (h : a ≤ b) : c.off a ≤ c.off b := by
  induction b with
  | zero => simp [Nat.le_zero.mp h]
  | succ b ih =>
    rcases Nat.lt_or_ge b a with h' | h'
    · rw [show a = b + 1 by omega]
    · exact Nat.le_trans (ih h') (Nat.le_add_right _ _)

/-- A block's range lies below the offset of every later block. -/
theorem CfgTx.off_add_nAt_le (c : CfgTx) {a b : Nat} (h : a < b) : c.off a + c.nAt a ≤ c.off b :=
  Nat.le_trans (Nat.le_refl _) (c.off_mono (a := a + 1) h)

theorem CfgTx.WellFormed.total_pos {c : CfgTx} (h : c.WellFormed) : 7 ≤ c.totalBits := by
  have h1 := h.nsum_le
  have h2 : c.off 0 + c.nAt 0 ≤ c.off c.k := c.off_add_nAt_le h.k_pos
  have h3 : 7 ≤ c.nAt 0 := by
    have := h.width h.k_pos
    simp only [legalWidth, Bool.or_eq_true, beq_iff_eq] at this
    rcases this with ((h | h) | h) | h <;> simp [CfgTx.nAt, h]
  have h4 : c.nsum = c.off c.k := rfl
  omega

/-- The active blocks are those below K. -/
theorem CfgTx.mem_blocks (c : CfgTx) (b : BlockIdx) : b ∈ c.blocks ↔ b.val < c.k := by
  rw [CfgTx.blocks]
  rcases Nat.lt_or_ge c.k 4 with h | h
  · have : c.k = 0 ∨ c.k = 1 ∨ c.k = 2 ∨ c.k = 3 := by omega
    rcases this with h | h | h | h <;> rw [h] <;> revert b <;> decide
  · rw [List.take_of_length_le (by simpa using h)]
    have : b ∈ ([0, 1, 2, 3] : List BlockIdx) := by revert b; decide
    simp only [this, true_iff]
    omega

theorem CfgTx.blocks_nodup (c : CfgTx) : c.blocks.Nodup :=
  List.Sublist.nodup (List.take_sublist _ _) (by decide)

end Sys2Proof
end

