-- ==== Sys2Proof/Laws/Codec.lean ====
section
/-! SUPPORT. Laws/Codec.lean: the laws of SYN and MINCORR (41_codec.md section 4) in the form the other laws cite. -/

namespace Sys2Proof.Machine

@[simp] theorem legalWidth_iff (r : Nat) : legalWidth r = true ↔ r = 3 ∨ r = 4 ∨ r = 5 ∨ r = 6 := by
  simp [legalWidth, or_assoc]

/-- Linearity of the column fold. -/
theorem foldColumns_xor (a b : Word) (n : Nat) : foldColumns (a ^^^ b) n = foldColumns a n ^^^ foldColumns b n := by
  induction n with
  | zero => simp [foldColumns]
  | succ n ih =>
    simp only [foldColumns, BitVec.getLsbD_xor, ih]
    cases a.getLsbD n <;> cases b.getLsbD n <;> simp only [Bool.false_xor, Bool.true_xor, Bool.not_true, Bool.not_false,
      if_true, if_false, Bool.false_eq_true]
    · rw [BitVec.xor_assoc]
    · rw [BitVec.xor_assoc, BitVec.xor_assoc, BitVec.xor_comm (foldColumns b n)]
    · rw [BitVec.xor_assoc (foldColumns a n), BitVec.xor_comm (BitVec.ofNat 8 (n + 1)), BitVec.xor_assoc (foldColumns b n),
        BitVec.xor_self, BitVec.xor_zero]

/-- The fold of the vector whose only set bit is `k`. -/
theorem foldColumns_single (k n : Nat) (hk : k < 64) :
    foldColumns (1#64 <<< k) n = if k < n then BitVec.ofNat 8 (k + 1) else 0 := by
  induction n with
  | zero => simp [foldColumns]
  | succ n ih =>
    have hbit : (1#64 <<< k).getLsbD n = decide (n = k) := by
      rw [BitVec.getLsbD_shiftLeft, BitVec.getLsbD_one]
      by_cases h : n = k
      · subst h; simp [hk]
      · simp only [h, decide_false]
        by_cases h2 : n < k
        · simp [h2]
        · simp; omega
    rw [foldColumns, hbit, ih]
    by_cases h : n = k
    · subst h; simp
    · by_cases h2 : k < n
      · simp [h, h2, Nat.lt_succ_of_lt h2]
      · simp [h, h2, show ¬ k < n + 1 by omega]

@[simp] theorem foldColumns_zero (n : Nat) : foldColumns 0#64 n = 0#8 := by
  induction n with
  | zero => rfl
  | succ n ih => simp [foldColumns, ih]

/-- SYN is linear over GF(2), on every pair of containers (41_codec.md R85). -/
theorem syn_linear (a b : Word) (r : Nat) : syn (a ^^^ b) r = syn a r ^^^ syn b r := by
  simp [syn, maskLow_xor, foldColumns_xor]

@[simp] theorem syn_zero (r : Nat) : syn 0#64 r = 0#8 := by simp [syn]

/-- SYN reads only the low N bits (41_codec.md R81). -/
@[simp] theorem syn_maskLow (v : Word) (r : Nat) : syn (maskLow (2 ^ r - 1) v) r = syn v r := by simp [syn]

/-- The column fold stays below a power of two that bounds the column numbers. -/
theorem foldColumns_lt (u : Word) (r n : Nat) (hn : n < 2 ^ r) : (foldColumns u n).toNat < 2 ^ r := by
  induction n with
  | zero => simp [foldColumns]
  | succ n ih =>
    have ih := ih (by omega)
    rw [foldColumns]
    split
    · rw [BitVec.toNat_xor]
      apply Nat.xor_lt_two_pow ih
      rw [BitVec.toNat_ofNat]
      exact Nat.lt_of_le_of_lt (Nat.mod_le _ _) hn
    · exact ih

/-- A syndrome has `r` bits (41_codec.md R89). -/
theorem syn_lt (v : Word) (r : Nat) : (syn v r).toNat < 2 ^ r :=
  foldColumns_lt _ _ _ (by have := Nat.two_pow_pos r; omega)

/-- The correction vector of a syndrome below 2^r, r ≤ 6, has that syndrome. -/
theorem syn_correctionVector (t r : Nat) (hr : r ≤ 6) (ht : t < 2 ^ r) : syn (correctionVector t) r = BitVec.ofNat 8 t := by
  have h64 : 2 ^ r ≤ 64 := Nat.pow_le_pow_right (by omega) hr
  rw [correctionVector]
  split
  · next h => subst h; simp
  · next h =>
    have hm : maskLow (2 ^ r - 1) (1#64 <<< (t - 1)) = 1#64 <<< (t - 1) := by
      apply BitVec.eq_of_getLsbD_eq
      intro i hi
      rw [getLsbD_maskLow]
      by_cases hlt : i < 2 ^ r - 1
      · simp [hlt]
      · simp [hlt, BitVec.getLsbD_shiftLeft, BitVec.getLsbD_one]
        omega
    rw [syn, hm, foldColumns_single _ _ (by omega), if_pos (by omega)]
    congr 1
    omega

/-- MINCORR answers a vector with the reduced target as its syndrome (41_codec.md R86). -/
theorem syn_of_mincorr (t : Byte) (r : Nat) (hr : r ≤ 6) : syn (mincorr t r) r = maskLow r t := by
  rw [mincorr, syn_correctionVector _ _ hr (maskLow_toNat_lt r t)]
  simp

/-- MINCORR's result lies inside the block (41_codec.md R89). -/
theorem mincorr_lt (t : Byte) (r : Nat) (hr : r ≤ 6) : (mincorr t r).toNat < 2 ^ (2 ^ r - 1) := by
  have h64 : 2 ^ r ≤ 64 := Nat.pow_le_pow_right (by omega) hr
  have ht := maskLow_toNat_lt r t
  rw [toNat_lt_iff_getLsbD]
  intro i hi
  rw [mincorr, correctionVector]
  split
  · simp
  · simp [BitVec.getLsbD_shiftLeft, BitVec.getLsbD_one]
    omega

@[simp] theorem mincorr_zero (r : Nat) : mincorr 0#8 r = 0#64 := by simp [mincorr, correctionVector]

/-! ### Weights (00_scope.md R10) -/

/-- The single-bit vector of column `k + 1` has that column's number as its syndrome. -/
theorem syn_single (k r : Nat) (hr : r ≤ 6) (hk : k < 2 ^ r - 1) : syn (1#64 <<< k) r = BitVec.ofNat 8 (k + 1) := by
  simpa [correctionVector] using syn_correctionVector (k + 1) r hr (by omega)

theorem weight_single (k : Nat) (h : k < 64) : weight (1#64 <<< k) = 1 := by
  have key : ∀ k : Fin 64, weight (1#64 <<< k.val) = 1 := by decide
  exact key ⟨k, h⟩

/-- A vector of weight at most 1 is zero or has one bit. -/
theorem weight_le_one (u : Word) (h : weight u ≤ 1) : u = 0 ∨ ∃ k, k < 64 ∧ u = 1#64 <<< k := by
  have hmem : ∀ i, i < 64 → (u.getLsbD i = true ↔ i ∈ (List.range 64).filter fun i => u.getLsbD i) := by
    intro i hi
    simp [hi]
  rcases Nat.eq_zero_or_pos (weight u) with h0 | h0
  · left
    rw [weight, List.length_eq_zero_iff] at h0
    apply BitVec.eq_of_getLsbD_eq
    intro i hi
    have := hmem i hi
    rw [h0] at this
    simpa using this
  · right
    have h1 : weight u = 1 := by omega
    rw [weight, List.length_eq_one_iff] at h1
    obtain ⟨k, hk⟩ := h1
    have hk64 : k < 64 := by
      have : k ∈ (List.range 64).filter fun i => u.getLsbD i := by rw [hk]; simp
      simp at this
      exact this.1
    refine ⟨k, hk64, ?_⟩
    apply BitVec.eq_of_getLsbD_eq
    intro i hi
    have := hmem i hi
    rw [hk, List.mem_singleton] at this
    rw [Bool.eq_iff_iff, this, BitVec.getLsbD_shiftLeft, BitVec.getLsbD_one]
    simp [hi]
    omega

end Sys2Proof.Machine
end

