-- ==== Sys2Proof/Laws/State.lean ====
section
/-! SUPPORT. Laws/State.lean: what each named update of a state record does to each field, so that no later proof unfolds an
update. -/

namespace Sys2Proof.Machine

@[simp] theorem Control.raise_ie (f : Fault) (c : Control) : (c.raise f).ie = c.ie := rfl
@[simp] theorem Control.raise_inCs (f : Fault) (c : Control) : (c.raise f).inCs = c.inCs := rfl
@[simp] theorem Control.raise_savedIe (f : Fault) (c : Control) : (c.raise f).savedIe = c.savedIe := rfl
@[simp] theorem Control.raise_fault (f : Fault) (c : Control) : (c.raise f).fault = some f := rfl

@[simp] theorem Control.mask_ie (c : Control) : (c.mask).ie = false := rfl
@[simp] theorem Control.mask_inCs (c : Control) : (c.mask).inCs = true := rfl
@[simp] theorem Control.mask_savedIe (c : Control) : (c.mask).savedIe = c.ie := rfl
@[simp] theorem Control.mask_fault (c : Control) : (c.mask).fault = c.fault := rfl

@[simp] theorem Control.unmask_ie (c : Control) : (c.unmask).ie = c.savedIe := rfl
@[simp] theorem Control.unmask_inCs (c : Control) : (c.unmask).inCs = false := rfl
@[simp] theorem Control.unmask_savedIe (c : Control) : (c.unmask).savedIe = c.savedIe := rfl
@[simp] theorem Control.unmask_fault (c : Control) : (c.unmask).fault = c.fault := rfl

@[simp] theorem TxNode.setBatch_cfg (t : TxNode) : (t.setBatch).cfg = t.cfg := rfl
@[simp] theorem TxNode.setBatch_v (t : TxNode) : (t.setBatch).v = t.v := rfl
@[simp] theorem TxNode.setBatch_buf (t : TxNode) : (t.setBatch).buf = t.buf := rfl
@[simp] theorem TxNode.setBatch_fill (t : TxNode) : (t.setBatch).fill = t.fill := rfl
@[simp] theorem TxNode.setBatch_batch (t : TxNode) : (t.setBatch).batch = true := rfl
@[simp] theorem TxNode.setBatch_slotFull (t : TxNode) : (t.setBatch).slotFull = t.slotFull := rfl
@[simp] theorem TxNode.setBatch_slotData (t : TxNode) : (t.setBatch).slotData = t.slotData := rfl
@[simp] theorem TxNode.setBatch_uartPend (t : TxNode) : (t.setBatch).uartPend = t.uartPend := rfl
@[simp] theorem TxNode.setBatch_uartByte (t : TxNode) : (t.setBatch).uartByte = t.uartByte := rfl
@[simp] theorem TxNode.setBatch_ctl (t : TxNode) : (t.setBatch).ctl = t.ctl := rfl
@[simp] theorem TxNode.setBatch_dataL (t : TxNode) : (t.setBatch).dataL = t.dataL := rfl
@[simp] theorem TxNode.setBatch_clkL (t : TxNode) : (t.setBatch).clkL = t.clkL := rfl
@[simp] theorem TxNode.setBatch_latchL (t : TxNode) : (t.setBatch).latchL = t.latchL := rfl
@[simp] theorem TxNode.setBatch_sr (t : TxNode) : (t.setBatch).sr = t.sr := rfl
@[simp] theorem TxNode.setBatch_out (t : TxNode) : (t.setBatch).out = t.out := rfl
@[simp] theorem TxNode.setBatch_ltrace (t : TxNode) : (t.setBatch).ltrace = t.ltrace := rfl
@[simp] theorem TxNode.setBatch_etrace (t : TxNode) : (t.setBatch).etrace = t.etrace ++ [.batchComplete] := rfl

@[simp] theorem TxNode.clearBatch_cfg (t : TxNode) : (t.clearBatch).cfg = t.cfg := rfl
@[simp] theorem TxNode.clearBatch_v (t : TxNode) : (t.clearBatch).v = t.v := rfl
@[simp] theorem TxNode.clearBatch_buf (t : TxNode) : (t.clearBatch).buf = t.buf := rfl
@[simp] theorem TxNode.clearBatch_fill (t : TxNode) : (t.clearBatch).fill = t.fill := rfl
@[simp] theorem TxNode.clearBatch_batch (t : TxNode) : (t.clearBatch).batch = false := rfl
@[simp] theorem TxNode.clearBatch_slotFull (t : TxNode) : (t.clearBatch).slotFull = t.slotFull := rfl
@[simp] theorem TxNode.clearBatch_slotData (t : TxNode) : (t.clearBatch).slotData = t.slotData := rfl
@[simp] theorem TxNode.clearBatch_uartPend (t : TxNode) : (t.clearBatch).uartPend = t.uartPend := rfl
@[simp] theorem TxNode.clearBatch_uartByte (t : TxNode) : (t.clearBatch).uartByte = t.uartByte := rfl
@[simp] theorem TxNode.clearBatch_ctl (t : TxNode) : (t.clearBatch).ctl = t.ctl := rfl
@[simp] theorem TxNode.clearBatch_dataL (t : TxNode) : (t.clearBatch).dataL = t.dataL := rfl
@[simp] theorem TxNode.clearBatch_clkL (t : TxNode) : (t.clearBatch).clkL = t.clkL := rfl
@[simp] theorem TxNode.clearBatch_latchL (t : TxNode) : (t.clearBatch).latchL = t.latchL := rfl
@[simp] theorem TxNode.clearBatch_sr (t : TxNode) : (t.clearBatch).sr = t.sr := rfl
@[simp] theorem TxNode.clearBatch_out (t : TxNode) : (t.clearBatch).out = t.out := rfl
@[simp] theorem TxNode.clearBatch_ltrace (t : TxNode) : (t.clearBatch).ltrace = t.ltrace := rfl
@[simp] theorem TxNode.clearBatch_etrace (t : TxNode) : (t.clearBatch).etrace = t.etrace := rfl

@[simp] theorem TxNode.clearSlot_cfg (t : TxNode) : (t.clearSlot).cfg = t.cfg := rfl
@[simp] theorem TxNode.clearSlot_v (t : TxNode) : (t.clearSlot).v = t.v := rfl
@[simp] theorem TxNode.clearSlot_buf (t : TxNode) : (t.clearSlot).buf = t.buf := rfl
@[simp] theorem TxNode.clearSlot_fill (t : TxNode) : (t.clearSlot).fill = t.fill := rfl
@[simp] theorem TxNode.clearSlot_batch (t : TxNode) : (t.clearSlot).batch = t.batch := rfl
@[simp] theorem TxNode.clearSlot_slotFull (t : TxNode) : (t.clearSlot).slotFull = false := rfl
@[simp] theorem TxNode.clearSlot_slotData (t : TxNode) : (t.clearSlot).slotData = t.slotData := rfl
@[simp] theorem TxNode.clearSlot_uartPend (t : TxNode) : (t.clearSlot).uartPend = t.uartPend := rfl
@[simp] theorem TxNode.clearSlot_uartByte (t : TxNode) : (t.clearSlot).uartByte = t.uartByte := rfl
@[simp] theorem TxNode.clearSlot_ctl (t : TxNode) : (t.clearSlot).ctl = t.ctl := rfl
@[simp] theorem TxNode.clearSlot_dataL (t : TxNode) : (t.clearSlot).dataL = t.dataL := rfl
@[simp] theorem TxNode.clearSlot_clkL (t : TxNode) : (t.clearSlot).clkL = t.clkL := rfl
@[simp] theorem TxNode.clearSlot_latchL (t : TxNode) : (t.clearSlot).latchL = t.latchL := rfl
@[simp] theorem TxNode.clearSlot_sr (t : TxNode) : (t.clearSlot).sr = t.sr := rfl
@[simp] theorem TxNode.clearSlot_out (t : TxNode) : (t.clearSlot).out = t.out := rfl
@[simp] theorem TxNode.clearSlot_ltrace (t : TxNode) : (t.clearSlot).ltrace = t.ltrace := rfl
@[simp] theorem TxNode.clearSlot_etrace (t : TxNode) : (t.clearSlot).etrace = t.etrace := rfl

@[simp] theorem TxNode.fillSlot_cfg (c : Byte) (t : TxNode) : (t.fillSlot c).cfg = t.cfg := rfl
@[simp] theorem TxNode.fillSlot_v (c : Byte) (t : TxNode) : (t.fillSlot c).v = t.v := rfl
@[simp] theorem TxNode.fillSlot_buf (c : Byte) (t : TxNode) : (t.fillSlot c).buf = t.buf := rfl
@[simp] theorem TxNode.fillSlot_fill (c : Byte) (t : TxNode) : (t.fillSlot c).fill = t.fill := rfl
@[simp] theorem TxNode.fillSlot_batch (c : Byte) (t : TxNode) : (t.fillSlot c).batch = t.batch := rfl
@[simp] theorem TxNode.fillSlot_slotFull (c : Byte) (t : TxNode) : (t.fillSlot c).slotFull = true := rfl
@[simp] theorem TxNode.fillSlot_slotData (c : Byte) (t : TxNode) : (t.fillSlot c).slotData = c := rfl
@[simp] theorem TxNode.fillSlot_uartPend (c : Byte) (t : TxNode) : (t.fillSlot c).uartPend = t.uartPend := rfl
@[simp] theorem TxNode.fillSlot_uartByte (c : Byte) (t : TxNode) : (t.fillSlot c).uartByte = t.uartByte := rfl
@[simp] theorem TxNode.fillSlot_ctl (c : Byte) (t : TxNode) : (t.fillSlot c).ctl = t.ctl := rfl
@[simp] theorem TxNode.fillSlot_dataL (c : Byte) (t : TxNode) : (t.fillSlot c).dataL = t.dataL := rfl
@[simp] theorem TxNode.fillSlot_clkL (c : Byte) (t : TxNode) : (t.fillSlot c).clkL = t.clkL := rfl
@[simp] theorem TxNode.fillSlot_latchL (c : Byte) (t : TxNode) : (t.fillSlot c).latchL = t.latchL := rfl
@[simp] theorem TxNode.fillSlot_sr (c : Byte) (t : TxNode) : (t.fillSlot c).sr = t.sr := rfl
@[simp] theorem TxNode.fillSlot_out (c : Byte) (t : TxNode) : (t.fillSlot c).out = t.out := rfl
@[simp] theorem TxNode.fillSlot_ltrace (c : Byte) (t : TxNode) : (t.fillSlot c).ltrace = t.ltrace := rfl
@[simp] theorem TxNode.fillSlot_etrace (c : Byte) (t : TxNode) : (t.fillSlot c).etrace = t.etrace := rfl

@[simp] theorem TxNode.fillUart_cfg (c : Byte) (t : TxNode) : (t.fillUart c).cfg = t.cfg := rfl
@[simp] theorem TxNode.fillUart_v (c : Byte) (t : TxNode) : (t.fillUart c).v = t.v := rfl
@[simp] theorem TxNode.fillUart_buf (c : Byte) (t : TxNode) : (t.fillUart c).buf = t.buf := rfl
@[simp] theorem TxNode.fillUart_fill (c : Byte) (t : TxNode) : (t.fillUart c).fill = t.fill := rfl
@[simp] theorem TxNode.fillUart_batch (c : Byte) (t : TxNode) : (t.fillUart c).batch = t.batch := rfl
@[simp] theorem TxNode.fillUart_slotFull (c : Byte) (t : TxNode) : (t.fillUart c).slotFull = t.slotFull := rfl
@[simp] theorem TxNode.fillUart_slotData (c : Byte) (t : TxNode) : (t.fillUart c).slotData = t.slotData := rfl
@[simp] theorem TxNode.fillUart_uartPend (c : Byte) (t : TxNode) : (t.fillUart c).uartPend = true := rfl
@[simp] theorem TxNode.fillUart_uartByte (c : Byte) (t : TxNode) : (t.fillUart c).uartByte = c := rfl
@[simp] theorem TxNode.fillUart_ctl (c : Byte) (t : TxNode) : (t.fillUart c).ctl = t.ctl := rfl
@[simp] theorem TxNode.fillUart_dataL (c : Byte) (t : TxNode) : (t.fillUart c).dataL = t.dataL := rfl
@[simp] theorem TxNode.fillUart_clkL (c : Byte) (t : TxNode) : (t.fillUart c).clkL = t.clkL := rfl
@[simp] theorem TxNode.fillUart_latchL (c : Byte) (t : TxNode) : (t.fillUart c).latchL = t.latchL := rfl
@[simp] theorem TxNode.fillUart_sr (c : Byte) (t : TxNode) : (t.fillUart c).sr = t.sr := rfl
@[simp] theorem TxNode.fillUart_out (c : Byte) (t : TxNode) : (t.fillUart c).out = t.out := rfl
@[simp] theorem TxNode.fillUart_ltrace (c : Byte) (t : TxNode) : (t.fillUart c).ltrace = t.ltrace := rfl
@[simp] theorem TxNode.fillUart_etrace (c : Byte) (t : TxNode) : (t.fillUart c).etrace = t.etrace := rfl

@[simp] theorem TxNode.clearUart_cfg (t : TxNode) : (t.clearUart).cfg = t.cfg := rfl
@[simp] theorem TxNode.clearUart_v (t : TxNode) : (t.clearUart).v = t.v := rfl
@[simp] theorem TxNode.clearUart_buf (t : TxNode) : (t.clearUart).buf = t.buf := rfl
@[simp] theorem TxNode.clearUart_fill (t : TxNode) : (t.clearUart).fill = t.fill := rfl
@[simp] theorem TxNode.clearUart_batch (t : TxNode) : (t.clearUart).batch = t.batch := rfl
@[simp] theorem TxNode.clearUart_slotFull (t : TxNode) : (t.clearUart).slotFull = t.slotFull := rfl
@[simp] theorem TxNode.clearUart_slotData (t : TxNode) : (t.clearUart).slotData = t.slotData := rfl
@[simp] theorem TxNode.clearUart_uartPend (t : TxNode) : (t.clearUart).uartPend = false := rfl
@[simp] theorem TxNode.clearUart_uartByte (t : TxNode) : (t.clearUart).uartByte = t.uartByte := rfl
@[simp] theorem TxNode.clearUart_ctl (t : TxNode) : (t.clearUart).ctl = t.ctl := rfl
@[simp] theorem TxNode.clearUart_dataL (t : TxNode) : (t.clearUart).dataL = t.dataL := rfl
@[simp] theorem TxNode.clearUart_clkL (t : TxNode) : (t.clearUart).clkL = t.clkL := rfl
@[simp] theorem TxNode.clearUart_latchL (t : TxNode) : (t.clearUart).latchL = t.latchL := rfl
@[simp] theorem TxNode.clearUart_sr (t : TxNode) : (t.clearUart).sr = t.sr := rfl
@[simp] theorem TxNode.clearUart_out (t : TxNode) : (t.clearUart).out = t.out := rfl
@[simp] theorem TxNode.clearUart_ltrace (t : TxNode) : (t.clearUart).ltrace = t.ltrace := rfl
@[simp] theorem TxNode.clearUart_etrace (t : TxNode) : (t.clearUart).etrace = t.etrace := rfl

@[simp] theorem TxNode.raise_cfg (f : Fault) (t : TxNode) : (t.raise f).cfg = t.cfg := rfl
@[simp] theorem TxNode.raise_v (f : Fault) (t : TxNode) : (t.raise f).v = t.v := rfl
@[simp] theorem TxNode.raise_buf (f : Fault) (t : TxNode) : (t.raise f).buf = t.buf := rfl
@[simp] theorem TxNode.raise_fill (f : Fault) (t : TxNode) : (t.raise f).fill = t.fill := rfl
@[simp] theorem TxNode.raise_batch (f : Fault) (t : TxNode) : (t.raise f).batch = t.batch := rfl
@[simp] theorem TxNode.raise_slotFull (f : Fault) (t : TxNode) : (t.raise f).slotFull = t.slotFull := rfl
@[simp] theorem TxNode.raise_slotData (f : Fault) (t : TxNode) : (t.raise f).slotData = t.slotData := rfl
@[simp] theorem TxNode.raise_uartPend (f : Fault) (t : TxNode) : (t.raise f).uartPend = t.uartPend := rfl
@[simp] theorem TxNode.raise_uartByte (f : Fault) (t : TxNode) : (t.raise f).uartByte = t.uartByte := rfl
@[simp] theorem TxNode.raise_ctl (f : Fault) (t : TxNode) : (t.raise f).ctl = t.ctl.raise f := rfl
@[simp] theorem TxNode.raise_dataL (f : Fault) (t : TxNode) : (t.raise f).dataL = t.dataL := rfl
@[simp] theorem TxNode.raise_clkL (f : Fault) (t : TxNode) : (t.raise f).clkL = t.clkL := rfl
@[simp] theorem TxNode.raise_latchL (f : Fault) (t : TxNode) : (t.raise f).latchL = t.latchL := rfl
@[simp] theorem TxNode.raise_sr (f : Fault) (t : TxNode) : (t.raise f).sr = t.sr := rfl
@[simp] theorem TxNode.raise_out (f : Fault) (t : TxNode) : (t.raise f).out = t.out := rfl
@[simp] theorem TxNode.raise_ltrace (f : Fault) (t : TxNode) : (t.raise f).ltrace = t.ltrace := rfl
@[simp] theorem TxNode.raise_etrace (f : Fault) (t : TxNode) : (t.raise f).etrace = t.etrace := rfl

@[simp] theorem TxNode.csEnter_cfg (t : TxNode) : (t.csEnter).cfg = t.cfg := rfl
@[simp] theorem TxNode.csEnter_v (t : TxNode) : (t.csEnter).v = t.v := rfl
@[simp] theorem TxNode.csEnter_buf (t : TxNode) : (t.csEnter).buf = t.buf := rfl
@[simp] theorem TxNode.csEnter_fill (t : TxNode) : (t.csEnter).fill = t.fill := rfl
@[simp] theorem TxNode.csEnter_batch (t : TxNode) : (t.csEnter).batch = t.batch := rfl
@[simp] theorem TxNode.csEnter_slotFull (t : TxNode) : (t.csEnter).slotFull = t.slotFull := rfl
@[simp] theorem TxNode.csEnter_slotData (t : TxNode) : (t.csEnter).slotData = t.slotData := rfl
@[simp] theorem TxNode.csEnter_uartPend (t : TxNode) : (t.csEnter).uartPend = t.uartPend := rfl
@[simp] theorem TxNode.csEnter_uartByte (t : TxNode) : (t.csEnter).uartByte = t.uartByte := rfl
@[simp] theorem TxNode.csEnter_ctl (t : TxNode) : (t.csEnter).ctl = t.ctl.csEnter := rfl
@[simp] theorem TxNode.csEnter_dataL (t : TxNode) : (t.csEnter).dataL = t.dataL := rfl
@[simp] theorem TxNode.csEnter_clkL (t : TxNode) : (t.csEnter).clkL = t.clkL := rfl
@[simp] theorem TxNode.csEnter_latchL (t : TxNode) : (t.csEnter).latchL = t.latchL := rfl
@[simp] theorem TxNode.csEnter_sr (t : TxNode) : (t.csEnter).sr = t.sr := rfl
@[simp] theorem TxNode.csEnter_out (t : TxNode) : (t.csEnter).out = t.out := rfl
@[simp] theorem TxNode.csEnter_ltrace (t : TxNode) : (t.csEnter).ltrace = t.ltrace := rfl
@[simp] theorem TxNode.csEnter_etrace (t : TxNode) : (t.csEnter).etrace = t.etrace := rfl

@[simp] theorem TxNode.csExit_cfg (t : TxNode) : (t.csExit).cfg = t.cfg := rfl
@[simp] theorem TxNode.csExit_v (t : TxNode) : (t.csExit).v = t.v := rfl
@[simp] theorem TxNode.csExit_buf (t : TxNode) : (t.csExit).buf = t.buf := rfl
@[simp] theorem TxNode.csExit_fill (t : TxNode) : (t.csExit).fill = t.fill := rfl
@[simp] theorem TxNode.csExit_batch (t : TxNode) : (t.csExit).batch = t.batch := rfl
@[simp] theorem TxNode.csExit_slotFull (t : TxNode) : (t.csExit).slotFull = t.slotFull := rfl
@[simp] theorem TxNode.csExit_slotData (t : TxNode) : (t.csExit).slotData = t.slotData := rfl
@[simp] theorem TxNode.csExit_uartPend (t : TxNode) : (t.csExit).uartPend = t.uartPend := rfl
@[simp] theorem TxNode.csExit_uartByte (t : TxNode) : (t.csExit).uartByte = t.uartByte := rfl
@[simp] theorem TxNode.csExit_ctl (t : TxNode) : (t.csExit).ctl = t.ctl.csExit := rfl
@[simp] theorem TxNode.csExit_dataL (t : TxNode) : (t.csExit).dataL = t.dataL := rfl
@[simp] theorem TxNode.csExit_clkL (t : TxNode) : (t.csExit).clkL = t.clkL := rfl
@[simp] theorem TxNode.csExit_latchL (t : TxNode) : (t.csExit).latchL = t.latchL := rfl
@[simp] theorem TxNode.csExit_sr (t : TxNode) : (t.csExit).sr = t.sr := rfl
@[simp] theorem TxNode.csExit_out (t : TxNode) : (t.csExit).out = t.out := rfl
@[simp] theorem TxNode.csExit_ltrace (t : TxNode) : (t.csExit).ltrace = t.ltrace := rfl
@[simp] theorem TxNode.csExit_etrace (t : TxNode) : (t.csExit).etrace = t.etrace := rfl

@[simp] theorem TxNode.bufferDigit_cfg (d : BitVec 4) (t : TxNode) : (t.bufferDigit d).cfg = t.cfg := rfl
@[simp] theorem TxNode.bufferDigit_v (d : BitVec 4) (t : TxNode) : (t.bufferDigit d).v = t.v := rfl
@[simp] theorem TxNode.bufferDigit_buf (d : BitVec 4) (t : TxNode) : (t.bufferDigit d).buf = t.buf.set t.fill ⟨d, true⟩ := rfl
@[simp] theorem TxNode.bufferDigit_fill (d : BitVec 4) (t : TxNode) : (t.bufferDigit d).fill = t.fill := rfl
@[simp] theorem TxNode.bufferDigit_batch (d : BitVec 4) (t : TxNode) : (t.bufferDigit d).batch = t.batch := rfl
@[simp] theorem TxNode.bufferDigit_slotFull (d : BitVec 4) (t : TxNode) : (t.bufferDigit d).slotFull = t.slotFull := rfl
@[simp] theorem TxNode.bufferDigit_slotData (d : BitVec 4) (t : TxNode) : (t.bufferDigit d).slotData = t.slotData := rfl
@[simp] theorem TxNode.bufferDigit_uartPend (d : BitVec 4) (t : TxNode) : (t.bufferDigit d).uartPend = t.uartPend := rfl
@[simp] theorem TxNode.bufferDigit_uartByte (d : BitVec 4) (t : TxNode) : (t.bufferDigit d).uartByte = t.uartByte := rfl
@[simp] theorem TxNode.bufferDigit_ctl (d : BitVec 4) (t : TxNode) : (t.bufferDigit d).ctl = t.ctl := rfl
@[simp] theorem TxNode.bufferDigit_dataL (d : BitVec 4) (t : TxNode) : (t.bufferDigit d).dataL = t.dataL := rfl
@[simp] theorem TxNode.bufferDigit_clkL (d : BitVec 4) (t : TxNode) : (t.bufferDigit d).clkL = t.clkL := rfl
@[simp] theorem TxNode.bufferDigit_latchL (d : BitVec 4) (t : TxNode) : (t.bufferDigit d).latchL = t.latchL := rfl
@[simp] theorem TxNode.bufferDigit_sr (d : BitVec 4) (t : TxNode) : (t.bufferDigit d).sr = t.sr := rfl
@[simp] theorem TxNode.bufferDigit_out (d : BitVec 4) (t : TxNode) : (t.bufferDigit d).out = t.out := rfl
@[simp] theorem TxNode.bufferDigit_ltrace (d : BitVec 4) (t : TxNode) : (t.bufferDigit d).ltrace = t.ltrace := rfl
@[simp] theorem TxNode.bufferDigit_etrace (d : BitVec 4) (t : TxNode) : (t.bufferDigit d).etrace = t.etrace := rfl

@[simp] theorem TxNode.flip_cfg (b : BlockIdx) (s : Byte) (t : TxNode) : (t.flip b s).cfg = t.cfg := rfl
@[simp] theorem TxNode.flip_v (b : BlockIdx) (s : Byte) (t : TxNode) : (t.flip b s).v = t.v.set b (t.flipped b s) := rfl
@[simp] theorem TxNode.flip_buf (b : BlockIdx) (s : Byte) (t : TxNode) : (t.flip b s).buf = t.buf := rfl
@[simp] theorem TxNode.flip_fill (b : BlockIdx) (s : Byte) (t : TxNode) : (t.flip b s).fill = t.fill := rfl
@[simp] theorem TxNode.flip_batch (b : BlockIdx) (s : Byte) (t : TxNode) : (t.flip b s).batch = t.batch := rfl
@[simp] theorem TxNode.flip_slotFull (b : BlockIdx) (s : Byte) (t : TxNode) : (t.flip b s).slotFull = t.slotFull := rfl
@[simp] theorem TxNode.flip_slotData (b : BlockIdx) (s : Byte) (t : TxNode) : (t.flip b s).slotData = t.slotData := rfl
@[simp] theorem TxNode.flip_uartPend (b : BlockIdx) (s : Byte) (t : TxNode) : (t.flip b s).uartPend = t.uartPend := rfl
@[simp] theorem TxNode.flip_uartByte (b : BlockIdx) (s : Byte) (t : TxNode) : (t.flip b s).uartByte = t.uartByte := rfl
@[simp] theorem TxNode.flip_ctl (b : BlockIdx) (s : Byte) (t : TxNode) : (t.flip b s).ctl = t.ctl := rfl
@[simp] theorem TxNode.flip_dataL (b : BlockIdx) (s : Byte) (t : TxNode) : (t.flip b s).dataL = t.dataL := rfl
@[simp] theorem TxNode.flip_clkL (b : BlockIdx) (s : Byte) (t : TxNode) : (t.flip b s).clkL = t.clkL := rfl
@[simp] theorem TxNode.flip_latchL (b : BlockIdx) (s : Byte) (t : TxNode) : (t.flip b s).latchL = t.latchL := rfl
@[simp] theorem TxNode.flip_sr (b : BlockIdx) (s : Byte) (t : TxNode) : (t.flip b s).sr = t.sr := rfl
@[simp] theorem TxNode.flip_out (b : BlockIdx) (s : Byte) (t : TxNode) : (t.flip b s).out = t.out := rfl
@[simp] theorem TxNode.flip_ltrace (b : BlockIdx) (s : Byte) (t : TxNode) : (t.flip b s).ltrace = t.ltrace := rfl
@[simp] theorem TxNode.flip_etrace (b : BlockIdx) (s : Byte) (t : TxNode) : (t.flip b s).etrace = t.etrace ++ [.applied b (t.target b s) (t.correction b s)] := rfl

@[simp] theorem RxNode.storeSample_cfg (o : Word) (x : RxNode) : (x.storeSample o).cfg = x.cfg := rfl
@[simp] theorem RxNode.storeSample_sampled (o : Word) (x : RxNode) : (x.storeSample o).sampled = o := rfl
@[simp] theorem RxNode.storeSample_sampledValid (o : Word) (x : RxNode) : (x.storeSample o).sampledValid = true := rfl
@[simp] theorem RxNode.storeSample_ctl (o : Word) (x : RxNode) : (x.storeSample o).ctl = x.ctl := rfl
@[simp] theorem RxNode.storeSample_txout (o : Word) (x : RxNode) : (x.storeSample o).txout = x.txout := rfl
@[simp] theorem RxNode.storeSample_sending (o : Word) (x : RxNode) : (x.storeSample o).sending = x.sending := rfl

@[simp] theorem RxNode.raise_cfg (f : Fault) (x : RxNode) : (x.raise f).cfg = x.cfg := rfl
@[simp] theorem RxNode.raise_sampled (f : Fault) (x : RxNode) : (x.raise f).sampled = x.sampled := rfl
@[simp] theorem RxNode.raise_sampledValid (f : Fault) (x : RxNode) : (x.raise f).sampledValid = x.sampledValid := rfl
@[simp] theorem RxNode.raise_ctl (f : Fault) (x : RxNode) : (x.raise f).ctl = x.ctl.raise f := rfl
@[simp] theorem RxNode.raise_txout (f : Fault) (x : RxNode) : (x.raise f).txout = x.txout := rfl
@[simp] theorem RxNode.raise_sending (f : Fault) (x : RxNode) : (x.raise f).sending = x.sending := rfl

@[simp] theorem RxNode.csEnter_cfg (x : RxNode) : (x.csEnter).cfg = x.cfg := rfl
@[simp] theorem RxNode.csEnter_sampled (x : RxNode) : (x.csEnter).sampled = x.sampled := rfl
@[simp] theorem RxNode.csEnter_sampledValid (x : RxNode) : (x.csEnter).sampledValid = x.sampledValid := rfl
@[simp] theorem RxNode.csEnter_ctl (x : RxNode) : (x.csEnter).ctl = x.ctl.csEnter := rfl
@[simp] theorem RxNode.csEnter_txout (x : RxNode) : (x.csEnter).txout = x.txout := rfl
@[simp] theorem RxNode.csEnter_sending (x : RxNode) : (x.csEnter).sending = x.sending := rfl

@[simp] theorem RxNode.csExit_cfg (x : RxNode) : (x.csExit).cfg = x.cfg := rfl
@[simp] theorem RxNode.csExit_sampled (x : RxNode) : (x.csExit).sampled = x.sampled := rfl
@[simp] theorem RxNode.csExit_sampledValid (x : RxNode) : (x.csExit).sampledValid = x.sampledValid := rfl
@[simp] theorem RxNode.csExit_ctl (x : RxNode) : (x.csExit).ctl = x.ctl.csExit := rfl
@[simp] theorem RxNode.csExit_txout (x : RxNode) : (x.csExit).txout = x.txout := rfl
@[simp] theorem RxNode.csExit_sending (x : RxNode) : (x.csExit).sending = x.sending := rfl

@[simp] theorem State.answer_tx (x : Word) (s : State) : (s.answer x).tx = s.tx := rfl
@[simp] theorem State.answer_rx (x : Word) (s : State) : (s.answer x).rx = s.rx := rfl
@[simp] theorem State.answer_schedule (x : Word) (s : State) : (s.answer x).schedule = s.schedule := rfl
@[simp] theorem State.answer_site (x : Word) (s : State) : (s.answer x).site = s.site := rfl
@[simp] theorem State.answer_hostOut (x : Word) (s : State) : (s.answer x).hostOut = s.hostOut := rfl
@[simp] theorem State.answer_env (x : Word) (s : State) : (s.answer x).env = s.env := rfl
@[simp] theorem State.answer_results (x : Word) (s : State) : (s.answer x).results = s.results ++ [x] := rfl

@[simp] theorem State.serialSend_tx (s : State) : (s.serialSend).tx = s.tx := rfl
@[simp] theorem State.serialSend_rx (s : State) : (s.serialSend).rx = { s.rx with txout := s.rx.txout ++ s.rx.sending.take s.hostOut, sending := s.rx.sending.drop s.hostOut } := rfl
@[simp] theorem State.serialSend_schedule (s : State) : (s.serialSend).schedule = s.schedule := rfl
@[simp] theorem State.serialSend_site (s : State) : (s.serialSend).site = s.site := rfl
@[simp] theorem State.serialSend_hostOut (s : State) : (s.serialSend).hostOut = s.hostOut - s.rx.sending.length := rfl
@[simp] theorem State.serialSend_env (s : State) : (s.serialSend).env = s.env := rfl
@[simp] theorem State.serialSend_results (s : State) : (s.serialSend).results = s.results := rfl

@[simp] theorem TxNode.openDigit_cfg (d : BitVec 4) (t : TxNode) : (t.openDigit d).cfg = t.cfg := rfl
@[simp] theorem TxNode.openDigit_v (d : BitVec 4) (t : TxNode) : (t.openDigit d).v = t.v := rfl
@[simp] theorem TxNode.openDigit_buf (d : BitVec 4) (t : TxNode) : (t.openDigit d).buf = t.buf.set t.fill ⟨d, true⟩ := rfl
@[simp] theorem TxNode.openDigit_fill (d : BitVec 4) (t : TxNode) : (t.openDigit d).fill = t.fill + 1 := rfl
@[simp] theorem TxNode.openDigit_batch (d : BitVec 4) (t : TxNode) : (t.openDigit d).batch = t.batch := rfl
@[simp] theorem TxNode.openDigit_slotFull (d : BitVec 4) (t : TxNode) : (t.openDigit d).slotFull = t.slotFull := rfl
@[simp] theorem TxNode.openDigit_slotData (d : BitVec 4) (t : TxNode) : (t.openDigit d).slotData = t.slotData := rfl
@[simp] theorem TxNode.openDigit_uartPend (d : BitVec 4) (t : TxNode) : (t.openDigit d).uartPend = t.uartPend := rfl
@[simp] theorem TxNode.openDigit_uartByte (d : BitVec 4) (t : TxNode) : (t.openDigit d).uartByte = t.uartByte := rfl
@[simp] theorem TxNode.openDigit_ctl (d : BitVec 4) (t : TxNode) : (t.openDigit d).ctl = t.ctl := rfl
@[simp] theorem TxNode.openDigit_dataL (d : BitVec 4) (t : TxNode) : (t.openDigit d).dataL = t.dataL := rfl
@[simp] theorem TxNode.openDigit_clkL (d : BitVec 4) (t : TxNode) : (t.openDigit d).clkL = t.clkL := rfl
@[simp] theorem TxNode.openDigit_latchL (d : BitVec 4) (t : TxNode) : (t.openDigit d).latchL = t.latchL := rfl
@[simp] theorem TxNode.openDigit_sr (d : BitVec 4) (t : TxNode) : (t.openDigit d).sr = t.sr := rfl
@[simp] theorem TxNode.openDigit_out (d : BitVec 4) (t : TxNode) : (t.openDigit d).out = t.out := rfl
@[simp] theorem TxNode.openDigit_ltrace (d : BitVec 4) (t : TxNode) : (t.openDigit d).ltrace = t.ltrace := rfl
@[simp] theorem TxNode.openDigit_etrace (d : BitVec 4) (t : TxNode) : (t.openDigit d).etrace = t.etrace := rfl

@[simp] theorem TxNode.lastDigit_cfg (d : BitVec 4) (t : TxNode) : (t.lastDigit d).cfg = t.cfg := rfl
@[simp] theorem TxNode.lastDigit_v (d : BitVec 4) (t : TxNode) : (t.lastDigit d).v = t.v := rfl
@[simp] theorem TxNode.lastDigit_buf (d : BitVec 4) (t : TxNode) : (t.lastDigit d).buf = t.buf.set t.fill ⟨d, true⟩ := rfl
@[simp] theorem TxNode.lastDigit_fill (d : BitVec 4) (t : TxNode) : (t.lastDigit d).fill = 0 := rfl
@[simp] theorem TxNode.lastDigit_batch (d : BitVec 4) (t : TxNode) : (t.lastDigit d).batch = t.batch := rfl
@[simp] theorem TxNode.lastDigit_slotFull (d : BitVec 4) (t : TxNode) : (t.lastDigit d).slotFull = t.slotFull := rfl
@[simp] theorem TxNode.lastDigit_slotData (d : BitVec 4) (t : TxNode) : (t.lastDigit d).slotData = t.slotData := rfl
@[simp] theorem TxNode.lastDigit_uartPend (d : BitVec 4) (t : TxNode) : (t.lastDigit d).uartPend = t.uartPend := rfl
@[simp] theorem TxNode.lastDigit_uartByte (d : BitVec 4) (t : TxNode) : (t.lastDigit d).uartByte = t.uartByte := rfl
@[simp] theorem TxNode.lastDigit_ctl (d : BitVec 4) (t : TxNode) : (t.lastDigit d).ctl = t.ctl := rfl
@[simp] theorem TxNode.lastDigit_dataL (d : BitVec 4) (t : TxNode) : (t.lastDigit d).dataL = t.dataL := rfl
@[simp] theorem TxNode.lastDigit_clkL (d : BitVec 4) (t : TxNode) : (t.lastDigit d).clkL = t.clkL := rfl
@[simp] theorem TxNode.lastDigit_latchL (d : BitVec 4) (t : TxNode) : (t.lastDigit d).latchL = t.latchL := rfl
@[simp] theorem TxNode.lastDigit_sr (d : BitVec 4) (t : TxNode) : (t.lastDigit d).sr = t.sr := rfl
@[simp] theorem TxNode.lastDigit_out (d : BitVec 4) (t : TxNode) : (t.lastDigit d).out = t.out := rfl
@[simp] theorem TxNode.lastDigit_ltrace (d : BitVec 4) (t : TxNode) : (t.lastDigit d).ltrace = t.ltrace := rfl
@[simp] theorem TxNode.lastDigit_etrace (d : BitVec 4) (t : TxNode) : (t.lastDigit d).etrace = t.etrace := rfl

end Sys2Proof.Machine
end

