-- ==== Sys2Proof/Laws/Control.lean ====
section
/-! SUPPORT. Laws/Control.lean: what a critical section, a raised fault and the sequencing after it can do. -/

namespace Sys2Proof.Machine

@[simp] theorem Control.alive_iff (c : Control) : c.alive = true ↔ c.fault = none := by simp [Control.alive]

@[simp] theorem Control.alive_eq_false (c : Control) : c.alive = false ↔ c.fault ≠ none := by
  simp [Control.alive, Option.ne_none_iff_isSome]

/-- The node may open a critical section: it has not faulted and none is open. -/
structure Control.Calm (c : Control) : Prop where
  noFault : c.fault = none
  outside : c.inCs = false

/-- The control state after a step that opened and closed one critical section: SAVED_IE keeps the saved IE (60_exceptions.md R145, R146). -/
def Control.afterSection (c : Control) : Control := { c with savedIe := c.ie }

@[simp] theorem Control.afterSection_ie (c : Control) : c.afterSection.ie = c.ie := rfl
@[simp] theorem Control.afterSection_inCs (c : Control) : c.afterSection.inCs = c.inCs := rfl
@[simp] theorem Control.afterSection_savedIe (c : Control) : c.afterSection.savedIe = c.ie := rfl
@[simp] theorem Control.afterSection_fault (c : Control) : c.afterSection.fault = c.fault := rfl
@[simp] theorem Control.afterSection_afterSection (c : Control) : c.afterSection.afterSection = c.afterSection := rfl

theorem Control.Calm.afterSection {c : Control} (h : c.Calm) : c.afterSection.Calm := ⟨h.noFault, h.outside⟩

theorem Control.csEnter_outside {c : Control} (h : c.inCs = false) : c.csEnter = c.mask := by simp [Control.csEnter, h]

theorem Control.csEnter_inside {c : Control} (h : c.inCs = true) : c.csEnter = c.raise .nest := by simp [Control.csEnter, h]

theorem Control.csExit_inside {c : Control} (h : c.inCs = true) : c.csExit = c.unmask := by simp [Control.csExit, h]

theorem Control.csExit_outside {c : Control} (h : c.inCs = false) : c.csExit = c.raise .nest := by simp [Control.csExit, h]

/-- A section that opens and closes leaves the control state as before but for SAVED_IE (60_exceptions.md R146). -/
theorem Control.unmask_mask {c : Control} (h : c.inCs = false) : c.mask.unmask = c.afterSection := by
  cases c
  simp_all [Control.mask, Control.unmask, Control.afterSection]

theorem TxNode.andThen_alive {t : TxNode} (f : TxNode → TxNode) (h : t.ctl.fault = none) : t.andThen f = f t := by
  simp [TxNode.andThen, h]

theorem TxNode.andThen_faulted {t : TxNode} (f : TxNode → TxNode) (h : t.ctl.fault ≠ none) : t.andThen f = t := by
  simp [TxNode.andThen, h]

/-- A property that the first part gives and the second part keeps holds after both. -/
theorem TxNode.andThen_induct {P : TxNode → Prop} {t : TxNode} {f : TxNode → TxNode} (ht : P t)
    (hf : t.ctl.fault = none → P (f t)) : P (t.andThen f) := by
  by_cases h : t.ctl.fault = none
  · rw [TxNode.andThen_alive f h]
    exact hf h
  · rw [TxNode.andThen_faulted f h]
    exact ht

end Sys2Proof.Machine
end

