-- ==== Sys2Proof/Laws/Encoder.lean ====
section
/-! SUPPORT. Laws/Encoder.lean: all that APPLY can do (42_encoder.md R90, R92), and what it leaves in V. -/

namespace Sys2Proof.Machine

/-- The transmitter after an APPLY that runs: V[b] and the event, and SAVED_IE (42_encoder.md R90). -/
def TxNode.applied (t : TxNode) (b : BlockIdx) (s : Byte) : TxNode := { t.flip b s with ctl := t.ctl.afterSection }

theorem TxNode.apply_block {t : TxNode} {b : BlockIdx} (s : Byte) (hb : t.cfg.k ≤ b.val) :
    t.apply b s = t.raise (.block b) := by simp [TxNode.apply, hb]

theorem TxNode.apply_nested {t : TxNode} {b : BlockIdx} (s : Byte) (hb : b.val < t.cfg.k) (hc : t.ctl.inCs = true) :
    t.apply b s = t.raise .nest := by
  simp [TxNode.apply, Nat.not_le.mpr hb, TxNode.andThen, TxNode.csEnter, TxNode.raise, Control.csEnter_inside hc]

theorem TxNode.apply_runs {t : TxNode} {b : BlockIdx} (s : Byte) (hb : b.val < t.cfg.k) (hc : t.ctl.Calm) :
    t.apply b s = t.applied b s := by
  have h1 : t.ctl.csEnter = t.ctl.mask := Control.csEnter_outside hc.outside
  simp only [TxNode.apply, Nat.not_le.mpr hb, if_false]
  rw [TxNode.andThen_alive _ (by simp [h1, hc.noFault])]
  simp only [TxNode.csExit, TxNode.flip_ctl, TxNode.csEnter_ctl, h1]
  rw [Control.csExit_inside (by simp), Control.unmask_mask hc.outside]
  rfl

/-- The three things APPLY can do on a transmitter that has not faulted. -/
theorem TxNode.apply_cases (t : TxNode) (b : BlockIdx) (s : Byte) (h : t.ctl.fault = none) :
    (t.cfg.k ≤ b.val ∧ t.apply b s = t.raise (.block b)) ∨
    (b.val < t.cfg.k ∧ t.ctl.inCs = true ∧ t.apply b s = t.raise .nest) ∨
    (b.val < t.cfg.k ∧ t.ctl.Calm ∧ t.apply b s = t.applied b s) := by
  rcases Nat.lt_or_ge b.val t.cfg.k with hb | hb
  · cases hc : t.ctl.inCs with
    | true => exact .inr (.inl ⟨hb, rfl, t.apply_nested s hb hc⟩)
    | false => exact .inr (.inr ⟨hb, ⟨h, hc⟩, t.apply_runs s hb ⟨h, hc⟩⟩)
  · exact .inl ⟨hb, t.apply_block s hb⟩

/-- A legal width gives at most six check bits and at most 63 wires. -/
theorem rAt_le_six {c : CfgTx} {b : Nat} (h : legalWidth (c.rAt b) = true) : c.rAt b ≤ 6 := by
  rw [legalWidth_iff] at h
  omega

/-- V[b] after APPLY when V[b] fits its block: the correction XORed in (42_encoder.md R90 step 4). -/
theorem TxNode.flipped_eq {t : TxNode} {b : BlockIdx} (s : Byte) (hr : t.cfg.rAt b ≤ 6)
    (hv : t.v[b].toNat < 2 ^ t.cfg.nAt b) : t.flipped b s = t.v[b] ^^^ t.correction b s := by
  rw [TxNode.flipped, maskLow_xor, maskLow_of_lt hv]
  congr 1
  exact maskLow_of_lt (mincorr_lt _ _ hr)

/-- The syndrome of V[b] after APPLY is the reduced target (42_encoder.md R94). -/
theorem TxNode.syn_flipped {t : TxNode} {b : BlockIdx} (s : Byte) (hr : t.cfg.rAt b ≤ 6) :
    syn (t.flipped b s) (t.cfg.rAt b) = t.target b s := by
  rw [TxNode.flipped, CfgTx.nAt, syn_maskLow, syn_linear, TxNode.correction, syn_of_mincorr _ _ hr, maskLow_xor,
    maskLow_of_lt (syn_lt t.v[b] (t.cfg.rAt b)), TxNode.target, maskLow_maskLow, BitVec.xor_comm _ (syn _ _),
    ← BitVec.xor_assoc, BitVec.xor_self, BitVec.zero_xor]

theorem TxNode.flipped_lt (t : TxNode) (b : BlockIdx) (s : Byte) : (t.flipped b s).toNat < 2 ^ t.cfg.nAt b :=
  maskLow_toNat_lt _ _

theorem TxNode.applied_v (t : TxNode) (b b' : BlockIdx) (s : Byte) :
    (t.applied b s).v[b'] = if b' = b then t.flipped b s else t.v[b'] := by
  change (t.v.set b (t.flipped b s))[b'] = _
  by_cases h : b' = b
  · subst h; simp
  · have : (b : Nat) ≠ (b' : Nat) := fun e => h (Fin.ext e.symm)
    simp [h, this]

/-- A bit of the aggregate vector is a bit of some active block, shifted to its place (42_encoder.md R100). -/
theorem TxNode.getLsbD_agg (t : TxNode) (p : Nat) :
    t.agg.getLsbD p = t.cfg.blocks.any fun b => (t.v[b] <<< t.cfg.off b).getLsbD p := by
  have key : ∀ (l : List BlockIdx) (a : Word),
      (l.foldl (fun (a : Word) (b : BlockIdx) => a ||| (t.v[b] <<< t.cfg.off b)) a).getLsbD p =
        (a.getLsbD p || l.any fun b => (t.v[b] <<< t.cfg.off b).getLsbD p) := by
    intro l
    induction l with
    | nil => simp
    | cons x l ih =>
      intro a
      rw [List.foldl_cons, ih, BitVec.getLsbD_or, List.any_cons, Bool.or_assoc]
  rw [TxNode.agg, key]
  simp

end Sys2Proof.Machine
end

