-- ==== Sys2Proof/Laws/Driver.lean ====
section
/-! SUPPORT. Laws/Driver.lean: all that REFRESH can do (44_driver.md R113 to R124). -/

namespace Sys2Proof.Machine

/-- A transmitter whose lines, chain and line trace are replaced. -/
def TxNode.withLines (t : TxNode) (dataL clkL latchL : Bool) (sr out : Word) (es : List LineEvent) : TxNode :=
  { t with dataL := dataL, clkL := clkL, latchL := latchL, sr := sr, out := out, ltrace := t.ltrace ++ es }

/-- A list of line events changes lines, chain and line trace only, and the trace grows by the list. -/
theorem TxNode.lineEvents_eq (es : List LineEvent) (t : TxNode) :
    t.lineEvents es = t.withLines (t.lineEvents es).dataL (t.lineEvents es).clkL (t.lineEvents es).latchL
      (t.lineEvents es).sr (t.lineEvents es).out es := by
  induction es generalizing t with
  | nil => simp [TxNode.lineEvents, TxNode.withLines]
  | cons e es ih =>
    have hstep : t.lineEvents (e :: es) = (t.lineEvent e).lineEvents es := rfl
    rw [hstep]
    conv_lhs => rw [ih (t.lineEvent e)]
    cases e with
    | wait d => simp [TxNode.withLines, TxNode.lineEvent]
    | line l x => cases l <;> simp [TxNode.withLines, TxNode.lineEvent, TxNode.setLine]

theorem TxNode.lineEvents_append (t : TxNode) (es fs : List LineEvent) :
    t.lineEvents (es ++ fs) = (t.lineEvents es).lineEvents fs := by simp [TxNode.lineEvents]

/-- The chain after the bits `n − 1 .. 0` of `a`, from a clock level and a chain content: one shift for each bit, but for a bit
whose clock was already high (44_driver.md R118). -/
def chainAfter (c : CfgTx) (a : Word) : Nat → Bool → Word → Word
  | 0, _, sr     => sr
  | j + 1, clk, sr =>
    chainAfter c a j false (if clk then sr else chainShift c.chainLen sr (pol c.drvPol (a.getLsbD j)))

/-- The five events of one bit. -/
theorem TxNode.lineEvents_bit (t : TxNode) (hp : Nat) (x : Bool) :
    t.lineEvents (bitEvents hp x) =
      t.withLines x false t.latchL (if t.clkL then t.sr else chainShift t.cfg.chainLen t.sr x) t.out (bitEvents hp x) := by
  cases h : t.clkL <;>
    simp [TxNode.lineEvents, bitEvents, TxNode.lineEvent, TxNode.setLine, TxNode.withLines, h]

/-- The data line after the bits `n − 1 .. 0`. -/
def TxNode.dataAfter (t : TxNode) (a : Word) (n : Nat) : Bool := if n = 0 then t.dataL else pol t.cfg.drvPol (a.getLsbD 0)

/-- The events of the bits `n − 1 .. 0`. -/
theorem TxNode.lineEvents_shift (a : Word) (n : Nat) (t : TxNode) :
    t.lineEvents (shiftEvents t.cfg a n) =
      t.withLines (t.dataAfter a n) (decide (n = 0) && t.clkL) t.latchL (chainAfter t.cfg a n t.clkL t.sr) t.out
        (shiftEvents t.cfg a n) := by
  induction n generalizing t with
  | zero => simp [TxNode.lineEvents, shiftEvents, TxNode.withLines, TxNode.dataAfter, chainAfter]
  | succ j ih =>
    rw [shiftEvents, TxNode.lineEvents_append, TxNode.lineEvents_bit]
    have h := ih (t.withLines (pol t.cfg.drvPol (a.getLsbD j)) false t.latchL
      (if t.clkL then t.sr else chainShift t.cfg.chainLen t.sr (pol t.cfg.drvPol (a.getLsbD j))) t.out
      (bitEvents t.cfg.halfPeriod (pol t.cfg.drvPol (a.getLsbD j))))
    simp only [TxNode.withLines] at h ⊢
    rw [h, chainAfter]
    cases j <;> simp [TxNode.dataAfter, shiftEvents]

/-- The chain and the outputs after a REFRESH. -/
def TxNode.chainRefreshed (t : TxNode) : Word := chainAfter t.cfg t.agg t.cfg.totalBits t.clkL t.sr

/-- The transmitter after a REFRESH that runs (44_driver.md R113, R124). -/
def TxNode.refreshed (t : TxNode) : TxNode :=
  { t.withLines (t.dataAfter t.agg t.cfg.totalBits) (decide (t.cfg.totalBits = 0) && t.clkL) true t.chainRefreshed
      t.chainRefreshed (refreshEvents t.cfg t.agg) with
    ctl := t.ctl.afterSection, etrace := t.etrace ++ [.refreshed t.agg] }

theorem TxNode.lineEvents_refresh (t : TxNode) (a : Word) :
    t.lineEvents (refreshEvents t.cfg a) =
      t.withLines (t.dataAfter a t.cfg.totalBits) (decide (t.cfg.totalBits = 0) && t.clkL) true
        (chainAfter t.cfg a t.cfg.totalBits t.clkL t.sr) (chainAfter t.cfg a t.cfg.totalBits t.clkL t.sr)
        (refreshEvents t.cfg a) := by
  have h0 : t.lineEvents (refreshEvents t.cfg a) =
      (((t.lineEvent (.line .latch false)).lineEvents (shiftEvents t.cfg a t.cfg.totalBits)).lineEvent
        (.line .latch true)) := by
    simp [TxNode.lineEvents, refreshEvents]
  have h1 := TxNode.lineEvents_shift a t.cfg.totalBits (t.lineEvent (.line .latch false))
  have hcfg : (t.lineEvent (.line .latch false)).cfg = t.cfg := rfl
  rw [hcfg] at h1
  rw [h0, h1]
  simp [TxNode.withLines, TxNode.lineEvent, TxNode.setLine, TxNode.dataAfter, refreshEvents]

theorem TxNode.refresh_nested {t : TxNode} (hc : t.ctl.inCs = true) : t.refresh = t.raise .nest := by
  simp [TxNode.refresh, TxNode.andThen, TxNode.csEnter, TxNode.raise, Control.csEnter_inside hc]

theorem TxNode.refresh_runs {t : TxNode} (hc : t.ctl.Calm) : t.refresh = t.refreshed := by
  have h1 : t.ctl.csEnter = t.ctl.mask := Control.csEnter_outside hc.outside
  have hm : t.ctl.mask.csExit = t.ctl.afterSection := by
    rw [Control.csExit_inside (by simp), Control.unmask_mask hc.outside]
  have h2 := TxNode.lineEvents_refresh t.csEnter t.csEnter.agg
  rw [TxNode.refresh, TxNode.andThen_alive _ (by simp [h1, hc.noFault])]
  simp only
  rw [h2, TxNode.andThen_alive _ (by simp [TxNode.withLines, h1, hm, hc.noFault])]
  simp only [TxNode.csExit, TxNode.withLines, TxNode.csEnter_ctl, h1, hm]
  rfl

/-- The two things REFRESH can do on a transmitter that has not faulted. -/
theorem TxNode.refresh_cases (t : TxNode) (h : t.ctl.fault = none) :
    (t.ctl.inCs = true ∧ t.refresh = t.raise .nest) ∨ (t.ctl.Calm ∧ t.refresh = t.refreshed) := by
  cases hc : t.ctl.inCs with
  | true => exact .inl ⟨rfl, t.refresh_nested hc⟩
  | false => exact .inr ⟨⟨h, hc⟩, t.refresh_runs ⟨h, hc⟩⟩

/-! ### The events of the bits (44_driver.md R114) -/

theorem length_shiftEvents (c : CfgTx) (a : Word) (n : Nat) : (shiftEvents c a n).length = 5 * n := by
  induction n with
  | zero => rfl
  | succ n ih =>
    rw [shiftEvents, List.length_append, ih, show (bitEvents c.halfPeriod (pol c.drvPol (a.getLsbD n))).length = 5 from rfl]
    omega

/-- Event `k` of bit `j`. -/
theorem getElem?_shiftEvents (c : CfgTx) (a : Word) (n j : Nat) (hj : j < n) (k : Nat) (hk : k < 5) :
    (shiftEvents c a n)[5 * (n - 1 - j) + k]? = (bitEvents c.halfPeriod (pol c.drvPol (a.getLsbD j)))[k]? := by
  induction n with
  | zero => omega
  | succ n ih =>
    have hl : (bitEvents c.halfPeriod (pol c.drvPol (a.getLsbD n))).length = 5 := rfl
    rw [shiftEvents]
    by_cases h : j = n
    · subst h
      rw [List.getElem?_append_left (by rw [hl]; omega)]
      congr 1
      omega
    · rw [List.getElem?_append_right (by rw [hl]; omega), hl, ← ih (by omega)]
      congr 1
      omega

/-! ### The bits of the chain (44_driver.md R121, R122) -/

/-- The chain never holds a bit beyond its stages. -/
theorem chainAfter_lt (c : CfgTx) (a : Word) (n : Nat) (clk : Bool) (sr : Word) (h : sr.toNat < 2 ^ c.chainLen) :
    (chainAfter c a n clk sr).toNat < 2 ^ c.chainLen := by
  induction n generalizing clk sr with
  | zero => exact h
  | succ j ih =>
    rw [chainAfter]
    apply ih
    split
    · exact h
    · exact maskLow_toNat_lt _ _

theorem getLsbD_chainShift (len : Nat) (sr : Word) (x : Bool) (p : Nat) (hp : p < 64) :
    (chainShift len sr x).getLsbD p = (decide (p < len) && (if p = 0 then x else sr.getLsbD (p - 1))) := by
  rw [chainShift, getLsbD_maskLow]
  congr 1
  rw [BitVec.getLsbD_or, BitVec.getLsbD_shiftLeft, BitVec.getLsbD_setWidth]
  cases p with
  | zero => simp
  | succ p => simp [hp]

/-- With the clock low, `n` shifts put bit `p < n` of the vector in stage `p` and move the old stages up by `n`
(44_driver.md R121). -/
theorem getLsbD_chainAfter (c : CfgTx) (a : Word) (n : Nat) (sr : Word) (p : Nat) (hp : p < 64) (hn : 0 < n) :
    (chainAfter c a n false sr).getLsbD p =
      (decide (p < c.chainLen) && (if p < n then pol c.drvPol (a.getLsbD p) else sr.getLsbD (p - n))) := by
  induction n generalizing sr with
  | zero => omega
  | succ j ih =>
    rw [chainAfter, if_neg (by simp)]
    rcases Nat.eq_zero_or_pos j with rfl | hj
    · rw [chainAfter, getLsbD_chainShift _ _ _ _ hp]
      by_cases h0 : p = 0
      · simp [h0]
      · simp [h0]
    · rw [ih _ hj]
      by_cases hl : p < c.chainLen
      · by_cases h1 : p < j
        · simp [h1, Nat.lt_succ_of_lt h1]
        · rw [if_neg h1, getLsbD_chainShift _ _ _ _ (by omega)]
          have hd : decide (p - j < c.chainLen) = true := by simp; omega
          rw [hd, Bool.true_and]
          by_cases h2 : p = j
          · subst h2
            simp
          · rw [if_neg (by omega), if_neg (by omega), Nat.sub_sub]
      · simp [hl]

/-- With the clock high, the first of the `n + 1` edges is lost (44_driver.md R122). -/
theorem getLsbD_chainAfter_high (c : CfgTx) (a : Word) (n : Nat) (sr : Word) (p : Nat) (hp : p < 64) (hn : 0 < n) :
    (chainAfter c a (n + 1) true sr).getLsbD p =
      (decide (p < c.chainLen) && (if p < n then pol c.drvPol (a.getLsbD p) else sr.getLsbD (p - n))) := by
  rw [chainAfter, if_pos rfl, getLsbD_chainAfter _ _ _ _ _ hp hn]

end Sys2Proof.Machine
end

