-- ==== Sys2Proof/Laws/Transmitter.lean ====
section
/-! SUPPORT. Laws/Transmitter.lean: all that a step can do to the transmitter record, as one list of parts; a property that every
part keeps is kept by every step. -/

namespace Sys2Proof.Machine

/-- `P` is kept by every part of a transmitter step, each taken on a transmitter that has not faulted. -/
structure TxNode.Kept (P : TxNode → Prop) : Prop where
  raise      : ∀ t f, t.ctl.fault = none → P t → P (t.raise f)
  csEnter    : ∀ t, t.ctl.Calm → P t → P { t with ctl := t.ctl.mask }
  csExit     : ∀ t, t.ctl.fault = none → t.ctl.inCs = true → P t → P { t with ctl := t.ctl.unmask }
  applied    : ∀ t b s, b.val < t.cfg.k → t.ctl.Calm → P t → P (t.applied b s)
  refreshed  : ∀ t, t.ctl.Calm → P t → P t.refreshed
  setBatch   : ∀ t, t.ctl.fault = none → P t → P t.setBatch
  clearBatch : ∀ t, t.ctl.fault = none → P t → P t.clearBatch
  resetFill  : ∀ t, t.ctl.fault = none → P t → P { t with fill := 0 }
  openDigit  : ∀ t d, t.ctl.fault = none → t.fill.val + 1 ≠ t.cfg.k → P t → P (t.openDigit d)
  lastDigit  : ∀ t d, t.ctl.fault = none → t.fill.val + 1 = t.cfg.k → P t → P (t.lastDigit d)
  clearSlot  : ∀ t, t.ctl.fault = none → P t → P t.clearSlot
  fillSlot   : ∀ t c, t.ctl.fault = none → P t → P (t.fillSlot c)
  clearUart  : ∀ t, t.ctl.fault = none → P t → P t.clearUart
  fillUart   : ∀ t c, t.ctl.fault = none → P t → P (t.fillUart c)

namespace TxKept
variable {P : TxNode → Prop}

theorem apply (hk : TxNode.Kept P) {t : TxNode} (b : BlockIdx) (s : Byte) (hf : t.ctl.fault = none) (h : P t) :
    P (t.apply b s) := by
  rcases t.apply_cases b s hf with ⟨_, e⟩ | ⟨_, _, e⟩ | ⟨hb, hc, e⟩ <;> rw [e]
  · exact hk.raise _ _ hf h
  · exact hk.raise _ _ hf h
  · exact hk.applied _ _ _ hb hc h

theorem refresh (hk : TxNode.Kept P) {t : TxNode} (hf : t.ctl.fault = none) (h : P t) : P t.refresh := by
  rcases t.refresh_cases hf with ⟨_, e⟩ | ⟨hc, e⟩ <;> rw [e]
  · exact hk.raise _ _ hf h
  · exact hk.refreshed _ hc h

theorem applyBuffered (hk : TxNode.Kept P) {t : TxNode} (b : BlockIdx) (hf : t.ctl.fault = none) (h : P t) :
    P (t.applyBuffered b) := by
  rw [TxNode.applyBuffered]
  split
  · exact apply hk _ _ hf h
  · exact hk.raise _ _ hf h

theorem refreshPerBlock (hk : TxNode.Kept P) {t : TxNode} (hf : t.ctl.fault = none) (h : P t) : P t.refreshPerBlock := by
  rw [TxNode.refreshPerBlock]
  split
  · exact refresh hk hf h
  · exact h

theorem applyBlocks (hk : TxNode.Kept P) (bs : List BlockIdx) {t : TxNode} (hf : t.ctl.fault = none) (h : P t) :
    P (TxNode.applyBlocks bs t) := by
  induction bs generalizing t with
  | nil => exact h
  | cons b bs ih =>
    have h1 : P (t.applyBuffered b) := applyBuffered hk b hf h
    have h2 : P ((t.applyBuffered b).andThen TxNode.refreshPerBlock) :=
      TxNode.andThen_induct h1 fun hf' => refreshPerBlock hk hf' h1
    rw [TxNode.applyBlocks]
    exact TxNode.andThen_induct h2 fun hf' => ih hf' h2

theorem refreshUnder (hk : TxNode.Kept P) (ps : List RefreshPolicy) {t : TxNode} (hf : t.ctl.fault = none) (h : P t) :
    P (TxNode.refreshUnder ps t) := by
  rw [TxNode.refreshUnder]
  split
  · exact refresh hk hf h
  · exact h

theorem feedDigit (hk : TxNode.Kept P) (d : BitVec 4) {t : TxNode} (hf : t.ctl.fault = none) (h : P t) :
    P (t.feedDigit d) := by
  rw [TxNode.feedDigit]
  split
  · next he =>
    have h1 : P (t.lastDigit d) := hk.lastDigit t d hf he h
    exact TxNode.andThen_induct (applyBlocks hk _ hf h1) fun hf' => refreshUnder hk _ hf' (applyBlocks hk _ hf h1)
  · next he => exact refreshUnder hk _ hf (hk.openDigit t d hf he h)

theorem feedNibble (hk : TxNode.Kept P) (x : BitVec 4) {t : TxNode} (hf : t.ctl.fault = none) (h : P t) :
    P (t.feedNibble x) :=
  TxNode.andThen_induct (apply hk _ _ hf h) fun hf' => refresh hk hf' (apply hk _ _ hf h)

theorem feed (hk : TxNode.Kept P) (c : InputClass) {t : TxNode} (hf : t.ctl.fault = none) (h : P t) : P (t.feed c) := by
  cases c with
  | nibTerm e => exact hk.setBatch _ hf h
  | nibData hi lo =>
    exact TxNode.andThen_induct (feedNibble hk _ hf h) fun hf' => feedNibble hk _ hf' (feedNibble hk _ hf h)
  | hexTerm e =>
    rw [TxNode.feed, TxNode.feedHexTerm]
    split
    · exact hk.resetFill _ hf (hk.setBatch _ hf h)
    · exact hk.setBatch _ hf h
  | hexDig09 d => exact feedDigit hk _ hf h
  | hexDiguc d => exact feedDigit hk _ hf h
  | hexDiglc d => exact feedDigit hk _ hf h
  | hexDiscard c => exact h

theorem poll (hk : TxNode.Kept P) {t : TxNode} (hf : t.ctl.fault = none) (h : P t) : P t.poll := by
  rw [TxNode.poll]
  split
  · exact feed hk _ hf (hk.clearSlot _ hf h)
  · exact h

theorem control (hk : TxNode.Kept P) {t : TxNode} (hf : t.ctl.fault = none) (h : P t) :
    P { t with ctl := t.ctl.csEnter } ∧ P { t with ctl := t.ctl.csExit } := by
  cases hc : t.ctl.inCs with
  | true =>
    rw [Control.csEnter_inside hc, Control.csExit_inside hc]
    exact ⟨hk.raise _ _ hf h, hk.csExit _ hf hc h⟩
  | false =>
    rw [Control.csEnter_outside hc, Control.csExit_outside hc]
    exact ⟨hk.csEnter _ ⟨hf, hc⟩ h, hk.raise _ _ hf h⟩

theorem onTx (f : TxNode → TxNode) {s : State} (hf : s.tx.ctl.fault = none → P s.tx → P (f s.tx)) (h : P s.tx) :
    P (s.onTx f).tx := by
  rw [State.onTx]
  split
  · next he => exact hf (by simpa [State.txEnabled] using he) h
  · exact h

theorem onSite (f : Control → Control) {s : State}
    (hf : s.tx.ctl.fault = none → P s.tx → P { s.tx with ctl := f s.tx.ctl }) (h : P s.tx) :
    P (s.onSite fun s => s.mapSite f).tx := by
  rw [State.onSite]
  split
  · next he =>
    rw [State.mapSite]
    cases hs : s.site with
    | tx => exact hf (by simpa [State.siteEnabled, hs, State.txEnabled] using he) h
    | rx => exact h
  · exact h

theorem feedUnder (p : Policy) (f : TxNode → TxNode) {s t : State} (he : s.feedUnder p f = .next t)
    (hf : s.tx.ctl.fault = none → P s.tx → P (f s.tx)) (h : P s.tx) : P t.tx := by
  rw [State.feedUnder] at he
  split at he
  · cases he
    exact onTx f hf h
  · cases he

theorem drawOverrun (f : TxNode → TxNode) {s : State} (h : P s.tx) (hf : P (f s.tx)) : P (s.drawOverrun f).tx := by
  change P (if s.env.overrunReplaces then f s.tx else s.tx)
  split
  · exact hf
  · exact h

theorem codecRequest (hk : TxNode.Kept P) (legal : Bool) (i : Instr) (x : Word) {s : State} (h : P s.tx) :
    P (Machine.codecRequest legal i x s).tx := by
  cases legal with
  | true =>
    rw [Machine.codecRequest, State.onSite]
    split <;> exact h
  | false =>
    exact onSite (·.raise (.refused i)) (fun hf h => hk.raise _ _ hf h) h

end TxKept

/-- The receiver's requests leave the transmitter alone. -/
theorem State.serialSend_tx' (s : State) : s.serialSend.tx = s.tx := rfl

theorem State.readPort_tx (s : State) (p : Port) : (s.readPort p).tx = s.tx := by
  rw [State.readPort]
  split <;> rfl

theorem State.readPort_rx (s : State) (p : Port) : (s.readPort p).rx = s.rx := by
  rw [State.readPort]
  split <;> rfl

theorem State.takeSample_tx (s : State) : s.takeSample.tx = s.tx := by
  simp [State.takeSample, State.readPort_tx]

theorem State.sample_tx (s : State) : s.sample.tx = s.tx := by
  rw [State.sample]
  simp only
  split
  · rw [State.takeSample_tx]
  · rfl

theorem State.report_tx (s : State) : s.report.tx = s.tx := by
  rw [State.report]
  split <;> rfl

theorem State.rxCycle_tx (s : State) : s.rxCycle.tx = s.tx := by
  change (if s.sample.rx.ctl.alive then s.sample.report else s.sample).tx = s.tx
  split
  · rw [State.report_tx, State.sample_tx]
  · rw [State.sample_tx]

theorem State.onRx_tx (f : State → State) (s : State) (hf : (f s).tx = s.tx) : (s.onRx f).tx = s.tx := by
  rw [State.onRx]
  split
  · exact hf
  · rfl

/-- A transmitter step on a node that has not faulted is taken. -/
theorem State.onTx_runs (f : TxNode → TxNode) {s : State} (h : s.tx.ctl.fault = none) :
    s.onTx f = { s with tx := f s.tx } := by simp [State.onTx, State.txEnabled, h]

/-- A property that every part keeps is kept by every instruction. -/
theorem exec_keeps_tx {P : TxNode → Prop} (hk : TxNode.Kept P) (i : Instr) {s t : State} (he : exec i s = .next t)
    (h : P s.tx) : P t.tx := by
  cases i with
  | nibTerm e => exact TxKept.feedUnder _ _ he (fun hf h => TxKept.feed hk (.nibTerm e) hf h) h
  | nibData hi lo => exact TxKept.feedUnder _ _ he (fun hf h => TxKept.feed hk (.nibData hi lo) hf h) h
  | hexTerm e => exact TxKept.feedUnder _ _ he (fun hf h => TxKept.feed hk (.hexTerm e) hf h) h
  | hexDig09 d => exact TxKept.feedUnder _ _ he (fun hf h => TxKept.feedDigit hk _ hf h) h
  | hexDiguc d => exact TxKept.feedUnder _ _ he (fun hf h => TxKept.feedDigit hk _ hf h) h
  | hexDiglc d => exact TxKept.feedUnder _ _ he (fun hf h => TxKept.feedDigit hk _ hf h) h
  | hexDiscard c => exact TxKept.feedUnder _ _ he (fun _ h => h) h
  | syn v r => cases he; exact TxKept.codecRequest hk _ _ _ h
  | mincorr x r => cases he; exact TxKept.codecRequest hk _ _ _ h
  | apply b d => cases he; exact TxKept.onTx _ (fun hf h => TxKept.apply hk _ _ hf h) h
  | applyBatch => cases he; exact TxKept.onTx _ (fun hf h => TxKept.applyBlocks hk _ hf h) h
  | refresh => cases he; exact TxKept.onTx _ (fun hf h => TxKept.refresh hk hf h) h
  | poll => cases he; exact TxKept.onTx _ (fun hf h => TxKept.poll hk hf h) h
  | ackBatch => cases he; exact TxKept.onTx _ (fun hf h => hk.clearBatch _ hf h) h
  | csEnter => cases he; exact TxKept.onSite _ (fun hf h => (TxKept.control hk hf h).1) h
  | csExit => cases he; exact TxKept.onSite _ (fun hf h => (TxKept.control hk hf h).2) h
  | uartArrive c =>
    cases he
    split
    · next hf =>
      have hf : s.tx.ctl.fault = none := by simpa [State.txEnabled] using hf
      rw [State.uartArrive]
      split
      · exact TxKept.drawOverrun _ h (hk.fillUart _ _ hf h)
      · exact hk.fillUart _ _ hf h
    · exact h
  | isrRx =>
    cases he
    split
    · next hf =>
      have hf : s.tx.ctl.fault = none := by
        simp only [Bool.and_eq_true, State.txEnabled, Control.alive_iff] at hf
        exact hf.1
      have h1 := hk.clearUart _ hf h
      rw [State.isrBody]
      split
      · exact TxKept.drawOverrun (s := { s with tx := s.tx.clearUart }) _ h1 (hk.fillSlot _ _ hf h1)
      · exact hk.fillSlot _ _ hf h1
    · exact h
  | sample => cases he; rw [State.onRx_tx _ _ (State.sample_tx s)]; exact h
  | report => cases he; rw [State.onRx_tx _ _ (State.report_tx s)]; exact h
  | rxCycle => cases he; rw [State.onRx_tx _ _ (State.rxCycle_tx s)]; exact h
  | reservedE => cases he; exact TxKept.onSite _ (fun hf h => hk.raise _ _ hf h) h
  | reservedF => cases he; exact TxKept.onSite _ (fun hf h => hk.raise _ _ hf h) h

/-- The four things a step can be. -/
theorem step_cases {s t : State} (h : step s = .next t) :
    (s.schedule = [] ∧ t = s) ∨
    (∃ rest, s.schedule = .transmitReady :: rest ∧ t = ({ s with schedule := rest } : State).transmitReady) ∨
    (∃ n w rest i, s.schedule = .request n w :: rest ∧ decodeRequest w = .ok i ∧
      exec i { s with schedule := rest, site := n } = .next t) := by
  rw [step, State.fetch] at h
  cases hs : s.schedule with
  | nil => rw [hs] at h; cases h; exact .inl ⟨rfl, rfl⟩
  | cons u rest =>
    rw [hs] at h
    cases u with
    | transmitReady => cases h; exact .inr (.inl ⟨rest, rfl, rfl⟩)
    | request n w =>
      simp only at h
      cases hd : decodeRequest w with
      | ok i => rw [hd] at h; exact .inr (.inr ⟨n, w, rest, i, rfl, hd, h⟩)
      | error e => rw [hd] at h; cases h

theorem State.transmitReady_tx (s : State) : s.transmitReady.tx = s.tx := by
  unfold State.transmitReady
  split <;> rfl

/-- A property that every part keeps is kept by every step. -/
theorem step_keeps_tx {P : TxNode → Prop} (hk : TxNode.Kept P) {s t : State} (he : step s = .next t) (h : P s.tx) : P t.tx := by
  rcases step_cases he with ⟨_, rfl⟩ | ⟨rest, _, rfl⟩ | ⟨n, w, rest, i, _, _, e⟩
  · exact h
  · rw [State.transmitReady_tx]; exact h
  · exact exec_keeps_tx hk i e h

end Sys2Proof.Machine
end

