-- ==== Sys2Proof/Laws/Batch.lean ====
section
/-! SUPPORT. Laws/Batch.lean: all that APPLYBATCH can do when it runs through (42_encoder.md R93), and the frame that APPLY and
REFRESH share. -/

namespace Sys2Proof.Machine

/-! ### The shared frame -/

/-- A transmitter that differs in V, SAVED_IE, the lines, the chain and the traces at most. -/
def TxNode.DrivenFrom (t u : TxNode) : Prop :=
  u = { t with
    v := u.v, ctl := { t.ctl with savedIe := u.ctl.savedIe }, dataL := u.dataL, clkL := u.clkL, latchL := u.latchL,
    sr := u.sr, out := u.out, ltrace := u.ltrace, etrace := u.etrace }

theorem TxNode.DrivenFrom.refl (t : TxNode) : t.DrivenFrom t := rfl

theorem TxNode.DrivenFrom.trans {t u w : TxNode} (h : t.DrivenFrom u) (h' : u.DrivenFrom w) : t.DrivenFrom w := by
  unfold TxNode.DrivenFrom at *
  rw [h] at h'
  exact h'

theorem TxNode.applied_etrace (t : TxNode) (b : BlockIdx) (s : Byte) :
    (t.applied b s).etrace = t.etrace ++ [.applied b (t.target b s) (t.correction b s)] := rfl

theorem TxNode.refreshed_etrace (t : TxNode) : t.refreshed.etrace = t.etrace ++ [.refreshed t.agg] := rfl

theorem TxNode.applied_driven (t : TxNode) (b : BlockIdx) (s : Byte) : t.DrivenFrom (t.applied b s) := rfl

theorem TxNode.refreshed_driven (t : TxNode) : t.DrivenFrom t.refreshed := rfl

theorem TxNode.DrivenFrom.cfg {t u : TxNode} (h : t.DrivenFrom u) : u.cfg = t.cfg := by rw [h]
theorem TxNode.DrivenFrom.buf {t u : TxNode} (h : t.DrivenFrom u) : u.buf = t.buf := by rw [h]
theorem TxNode.DrivenFrom.fill {t u : TxNode} (h : t.DrivenFrom u) : u.fill = t.fill := by rw [h]
theorem TxNode.DrivenFrom.batch {t u : TxNode} (h : t.DrivenFrom u) : u.batch = t.batch := by rw [h]
theorem TxNode.DrivenFrom.slotFull {t u : TxNode} (h : t.DrivenFrom u) : u.slotFull = t.slotFull := by rw [h]
theorem TxNode.DrivenFrom.fault {t u : TxNode} (h : t.DrivenFrom u) : u.ctl.fault = t.ctl.fault := by rw [h]
theorem TxNode.DrivenFrom.inCs {t u : TxNode} (h : t.DrivenFrom u) : u.ctl.inCs = t.ctl.inCs := by rw [h]
theorem TxNode.DrivenFrom.ie {t u : TxNode} (h : t.DrivenFrom u) : u.ctl.ie = t.ctl.ie := by rw [h]
theorem TxNode.DrivenFrom.calm {t u : TxNode} (h : t.DrivenFrom u) (hc : t.ctl.Calm) : u.ctl.Calm :=
  ⟨h.fault.trans hc.noFault, h.inCs.trans hc.outside⟩

theorem TxNode.DrivenFrom.state {t u : TxNode} (h : t.DrivenFrom u) (s : State) (hs : s.tx = t) :
    s.DrivenFrom { s with tx := u } := by
  subst hs
  unfold State.DrivenFrom
  exact congrArg (fun x => ({ s with tx := x } : State)) h

theorem TxNode.Ready.calm {t : TxNode} (h : t.Ready) : t.ctl.Calm := ⟨h.noFault, h.outside⟩

theorem TxNode.DrivenFrom.ready {t u : TxNode} (h : t.DrivenFrom u) (hr : t.Ready) : u.Ready :=
  ⟨by rw [h.cfg]; exact hr.wellFormed, h.fault.trans hr.noFault, h.inCs.trans hr.outside⟩

/-- APPLY as a request, when it runs. -/
theorem exec_apply {s : State} (h : s.tx.Ready) (b : BlockIdx) (d : Byte) (hb : b.val < s.tx.cfg.k) :
    exec (.apply b d) s = .next { s with tx := s.tx.applied b d } := by
  rw [exec, execApply, State.onTx_runs _ h.noFault, TxNode.apply_runs _ hb h.calm]

/-- REFRESH as a request, when it runs. -/
theorem exec_refresh {s : State} (h : s.tx.Ready) : exec .refresh s = .next { s with tx := s.tx.refreshed } := by
  rw [exec, execRefresh, State.onTx_runs _ h.noFault, TxNode.refresh_runs h.calm]

/-! ### The loop of APPLYBATCH -/

/-- One round of the loop: APPLY of the block's digit, and a REFRESH under PER_BLOCK_APPLY. -/
def TxNode.roundDone (b : BlockIdx) (t : TxNode) : TxNode :=
  if t.cfg.refreshPolicy = .perBlockApply then (t.applied b (zext8 t.buf[b].digit)).refreshed
  else t.applied b (zext8 t.buf[b].digit)

theorem TxNode.roundDone_driven (b : BlockIdx) (t : TxNode) : t.DrivenFrom (t.roundDone b) := by
  rw [TxNode.roundDone]
  split
  · exact (t.applied_driven _ _).trans (TxNode.refreshed_driven _)
  · exact t.applied_driven _ _

/-- All rounds for the given blocks. -/
def TxNode.roundsDone : List BlockIdx → TxNode → TxNode
  | [], t      => t
  | b :: bs, t => TxNode.roundsDone bs (t.roundDone b)

theorem TxNode.roundsDone_driven (bs : List BlockIdx) (t : TxNode) : t.DrivenFrom (TxNode.roundsDone bs t) := by
  induction bs generalizing t with
  | nil => exact .refl t
  | cons b bs ih => exact (t.roundDone_driven b).trans (ih _)

/-- The loop runs through active, written blocks, with no fault and no open section, and goes on with the others. -/
theorem TxNode.applyBlocks_append (bs cs : List BlockIdx) {t : TxNode} (hc : t.ctl.Calm)
    (hb : ∀ b ∈ bs, b.val < t.cfg.k ∧ t.buf[b].written = true) :
    TxNode.applyBlocks (bs ++ cs) t = TxNode.applyBlocks cs (TxNode.roundsDone bs t) := by
  induction bs generalizing t with
  | nil => rfl
  | cons b bs ih =>
    obtain ⟨hk, hw⟩ := hb b (by simp)
    have h1 : t.applyBuffered b = t.applied b (zext8 t.buf[b].digit) := by
      rw [TxNode.applyBuffered, if_pos hw, TxNode.apply_runs _ hk hc]
    have hc1 : (t.applied b (zext8 t.buf[b].digit)).ctl.Calm := (t.applied_driven _ _).calm hc
    have h2 : (t.applyBuffered b).andThen TxNode.refreshPerBlock = t.roundDone b := by
      rw [h1, TxNode.andThen_alive _ hc1.noFault, TxNode.refreshPerBlock, TxNode.roundDone]
      rw [(t.applied_driven b (zext8 t.buf[b].digit)).cfg, TxNode.refresh_runs hc1]
    have hd := t.roundDone_driven b
    rw [List.cons_append, TxNode.applyBlocks, h2, TxNode.andThen_alive _ (hd.calm hc).noFault, TxNode.roundsDone]
    refine ih (hd.calm hc) fun b' hb' => ?_
    rw [hd.cfg, hd.buf]
    exact hb b' (by simp [hb'])

theorem TxNode.applyBlocks_runs (bs : List BlockIdx) {t : TxNode} (hc : t.ctl.Calm)
    (hb : ∀ b ∈ bs, b.val < t.cfg.k ∧ t.buf[b].written = true) : TxNode.applyBlocks bs t = TxNode.roundsDone bs t := by
  have h := TxNode.applyBlocks_append bs [] hc hb
  rwa [List.append_nil] at h

/-- The loop ends where a fault is raised (60_exceptions.md R142). -/
theorem TxNode.applyBlocks_raises {b : BlockIdx} (bs : List BlockIdx) {t : TxNode} {f : Fault} (h : t.applyBuffered b = t.raise f) :
    TxNode.applyBlocks (b :: bs) t = t.raise f := by
  have hf : (t.raise f).ctl.fault ≠ none := by simp [TxNode.raise, Control.raise]
  rw [TxNode.applyBlocks, h, TxNode.andThen_faulted _ hf, TxNode.andThen_faulted _ hf]

/-- The loop ends at an entry that was never written (10_state.md R42). -/
theorem TxNode.applyBlocks_unwritten {b : BlockIdx} {bs : List BlockIdx} {t : TxNode} (hw : t.buf[b].written = false) :
    TxNode.applyBlocks (b :: bs) t = t.raise .unwritten :=
  TxNode.applyBlocks_raises bs (by rw [TxNode.applyBuffered, hw]; rfl)

/-- The loop ends at its first block when a critical section is open (60_exceptions.md R145). -/
theorem TxNode.applyBlocks_nested {b : BlockIdx} {bs : List BlockIdx} {t : TxNode} (hb : b.val < t.cfg.k)
    (hw : t.buf[b].written = true) (hc : t.ctl.inCs = true) : TxNode.applyBlocks (b :: bs) t = t.raise .nest :=
  TxNode.applyBlocks_raises bs (by rw [TxNode.applyBuffered, if_pos hw, TxNode.apply_nested _ hb hc])

theorem TxNode.roundDone_v (b b' : BlockIdx) (t : TxNode) :
    (t.roundDone b).v[b'] = if b' = b then t.flipped b (zext8 t.buf[b].digit) else t.v[b'] := by
  have : (t.roundDone b).v = t.v.set b (t.flipped b (zext8 t.buf[b].digit)) := by
    rw [TxNode.roundDone]
    split <;> rfl
  rw [this, set_block]

/-- A block outside the loop keeps its vector, and a block of the loop is flipped once (42_encoder.md R93). -/
theorem TxNode.roundsDone_v (bs : List BlockIdx) (hn : bs.Nodup) (t : TxNode) (b : BlockIdx) :
    (TxNode.roundsDone bs t).v[b] = if b ∈ bs then t.flipped b (zext8 t.buf[b].digit) else t.v[b] := by
  induction bs generalizing t with
  | nil => simp [TxNode.roundsDone]
  | cons x bs ih =>
    obtain ⟨hx, hn⟩ := List.nodup_cons.mp hn
    rw [TxNode.roundsDone, ih hn]
    have hd := t.roundDone_driven x
    by_cases hb : b = x
    · subst hb
      rw [if_neg hx, if_pos (by simp), TxNode.roundDone_v, if_pos rfl]
    · have hv : (t.roundDone x).v[b] = t.v[b] := by rw [TxNode.roundDone_v, if_neg hb]
      simp only [List.mem_cons, hb, false_or]
      split
      · rw [TxNode.flipped, TxNode.correction, TxNode.target, hv, hd.cfg, hd.buf]
        rfl
      · exact hv

theorem TxNode.roundsDone_refreshes (bs : List BlockIdx) (t : TxNode) :
    refreshCount (TxNode.roundsDone bs t).etrace =
      refreshCount t.etrace + if t.cfg.refreshPolicy = .perBlockApply then bs.length else 0 := by
  induction bs generalizing t with
  | nil => simp [TxNode.roundsDone]
  | cons b bs ih =>
    have hd := t.roundDone_driven b
    have h1 : refreshCount (t.roundDone b).etrace =
        refreshCount t.etrace + if t.cfg.refreshPolicy = .perBlockApply then 1 else 0 := by
      rw [TxNode.roundDone]
      split
      · rw [TxNode.refreshed_etrace, TxNode.applied_etrace, refreshCount_append, refreshCount_append,
          refreshCount_applied, refreshCount_refreshed]
      · rw [TxNode.applied_etrace, refreshCount_append, refreshCount_applied]
    rw [TxNode.roundsDone, ih, hd.cfg, h1]
    split
    · rw [List.length_cons]; omega
    · rfl

theorem TxNode.roundsDone_savedIe (bs : List BlockIdx) (t : TxNode) :
    (TxNode.roundsDone bs t).ctl.savedIe = if bs = [] then t.ctl.savedIe else t.ctl.ie := by
  induction bs generalizing t with
  | nil => simp [TxNode.roundsDone]
  | cons b bs ih =>
    have hd := t.roundDone_driven b
    have h1 : (t.roundDone b).ctl.savedIe = t.ctl.ie := by
      rw [TxNode.roundDone]
      split <;> rfl
    rw [TxNode.roundsDone, ih, h1, hd.ie]
    simp

/-- APPLYBATCH when it runs through. -/
theorem TxNode.applyBatch_runs {t : TxNode} (hc : t.ctl.Calm)
    (hw : ∀ b : BlockIdx, b.val < t.cfg.k → t.buf[b].written = true) : t.applyBatch = TxNode.roundsDone t.cfg.blocks t :=
  TxNode.applyBlocks_runs _ hc fun b hb => ⟨(t.cfg.mem_blocks b).mp hb, hw b ((t.cfg.mem_blocks b).mp hb)⟩

end Sys2Proof.Machine
end

