-- ==== Sys2Proof/Laws/Decode.lean ====
section
/-! SUPPORT. Laws/Decode.lean: what a packed request record holds in each of its fields (log 1). -/

namespace Sys2Proof

theorem getLsbD_packRecord (tag : BitVec 4) (x : BitVec 72) (i : Nat) :
    (packRecord tag x).getLsbD i = if i < 4 then tag.getLsbD i else if i < 8 then false else x.getLsbD (i - 8) := by
  rw [packRecord, BitVec.getLsbD_append, BitVec.getLsbD_append]
  by_cases h4 : i < 4
  · simp [h4, show i < 8 by omega]
  · by_cases h8 : i < 8
    · simp [h4, h8]
    · simp [h4, h8]

theorem packRecord_tag (tag : BitVec 4) (x : BitVec 72) : (packRecord tag x).extractLsb' 0 4 = tag := by
  apply BitVec.eq_of_getLsbD_eq
  intro i hi
  rw [BitVec.getLsbD_extractLsb', getLsbD_packRecord]
  simp [hi]

theorem packRecord_unused (tag : BitVec 4) (x : BitVec 72) : (packRecord tag x).extractLsb' 4 4 = 0#4 := by
  apply BitVec.eq_of_getLsbD_eq
  intro i hi
  rw [BitVec.getLsbD_extractLsb', getLsbD_packRecord, if_neg (by omega), if_pos (by omega)]
  simp

theorem packRecord_field (tag : BitVec 4) (x : BitVec 72) (s n : Nat) :
    (packRecord tag x).extractLsb' (8 + s) n = x.extractLsb' s n := by
  apply BitVec.eq_of_getLsbD_eq
  intro i _
  rw [BitVec.getLsbD_extractLsb', BitVec.getLsbD_extractLsb', getLsbD_packRecord, if_neg (by omega), if_neg (by omega),
    show 8 + s + i - 8 = s + i by omega]

/-- A packed record is decoded by its tag. -/
theorem decodeRequest_packRecord (tag : BitVec 4) (x : BitVec 72) :
    decodeRequest (packRecord tag x) = decodeTag (packRecord tag x) tag.toFin := by
  rw [decodeRequest, packRecord_unused, packRecord_tag, if_pos rfl]

/-- Operands that end below bit `n` leave no bit above them. -/
theorem withZeroAbove_packRecord {tag : BitVec 4} {x : BitVec 72} {n : Nat} {i : Instr} (h : x.toNat < 2 ^ n) :
    withZeroAbove (packRecord tag x) (8 + n) i = .ok i := by
  have h0 : (packRecord tag x).toNat / 2 ^ (8 + n) = 0 := by
    apply Nat.div_eq_of_lt
    rw [toNat_lt_iff_getLsbD]
    intro i hi
    rw [getLsbD_packRecord, if_neg (by omega), if_neg (by omega)]
    exact (toNat_lt_iff_getLsbD x).mp h _ (by omega)
  rw [withZeroAbove, if_pos h0]

/-- The lower of two operands. -/
theorem extract_low {m n k : Nat} (hi : BitVec m) (lo : BitVec n) (h : n ≤ k) :
    ((hi ++ lo).setWidth k).extractLsb' 0 n = lo := by
  apply BitVec.eq_of_getLsbD_eq
  intro i hi'
  rw [BitVec.getLsbD_extractLsb', BitVec.getLsbD_setWidth, BitVec.getLsbD_append]
  simp [hi', show i < k by omega]

/-- The upper of two operands. -/
theorem extract_high {m n k : Nat} (hi : BitVec m) (lo : BitVec n) (h : m + n ≤ k) :
    ((hi ++ lo).setWidth k).extractLsb' n m = hi := by
  apply BitVec.eq_of_getLsbD_eq
  intro i hi'
  rw [BitVec.getLsbD_extractLsb', BitVec.getLsbD_setWidth, BitVec.getLsbD_append]
  simp [hi', show n + i < k by omega]

end Sys2Proof
end

