-- ==== Sys2Proof/Laws/Framer.lean ====
section
/-! SUPPORT. Laws/Framer.lean: what the FEED of a byte does when it runs through (43_framer.md R104 to R109). -/

namespace Sys2Proof.Machine

/-! ### NIBBLE -/

theorem TxNode.feedNibble_runs {t : TxNode} (x : BitVec 4) (hc : t.ctl.Calm) (hk : 1 ≤ t.cfg.k) :
    t.feedNibble x = (t.applied 0 (zext8 x)).refreshed := by
  have hc1 := (t.applied_driven 0 (zext8 x)).calm hc
  rw [TxNode.feedNibble, TxNode.apply_runs _ (show (0 : BlockIdx).val < t.cfg.k from hk) hc, TxNode.andThen_alive _ hc1.noFault,
    TxNode.refresh_runs hc1]

theorem TxNode.nibble_driven (t : TxNode) (x : BitVec 4) : t.DrivenFrom (t.applied 0 (zext8 x)).refreshed :=
  (t.applied_driven _ _).trans (TxNode.refreshed_driven _)

theorem TxNode.feedNibData_runs {t : TxNode} (hi lo : BitVec 4) (hc : t.ctl.Calm) (hk : 1 ≤ t.cfg.k) :
    t.feedNibData hi lo = (((t.applied 0 (zext8 hi)).refreshed).applied 0 (zext8 lo)).refreshed := by
  have hd := t.nibble_driven hi
  rw [TxNode.feedNibData, TxNode.feedNibble_runs hi hc hk, TxNode.andThen_alive _ (hd.calm hc).noFault,
    TxNode.feedNibble_runs lo (hd.calm hc) (by rw [hd.cfg]; exact hk)]

theorem TxNode.feedNibData_driven (t : TxNode) (hi lo : BitVec 4) :
    t.DrivenFrom (((t.applied 0 (zext8 hi)).refreshed).applied 0 (zext8 lo)).refreshed :=
  (t.nibble_driven hi).trans (TxNode.nibble_driven _ lo)

/-! ### HEXBLOCK -/

/-- A REFRESH, or nothing. -/
def TxNode.refreshedIf (c : Bool) (t : TxNode) : TxNode := if c then t.refreshed else t

theorem TxNode.refreshedIf_driven (c : Bool) (t : TxNode) : t.DrivenFrom (t.refreshedIf c) := by
  cases c
  · exact .refl t
  · exact t.refreshed_driven

theorem TxNode.refreshedIf_refreshes (c : Bool) (t : TxNode) :
    refreshCount (t.refreshedIf c).etrace = refreshCount t.etrace + if c then 1 else 0 := by
  cases c
  · rfl
  · rw [TxNode.refreshedIf, if_pos rfl, TxNode.refreshed_etrace, refreshCount_append, refreshCount_refreshed]
    rfl

theorem TxNode.refreshUnder_runs {t : TxNode} (ps : List RefreshPolicy) (hc : t.ctl.Calm) :
    TxNode.refreshUnder ps t = t.refreshedIf (ps.contains t.cfg.refreshPolicy) := by
  rw [TxNode.refreshUnder, TxNode.refreshedIf, TxNode.refresh_runs hc]

/-- A digit of a batch that it does not complete. -/
theorem TxNode.feedDigit_open {t : TxNode} (d : BitVec 4) (hc : t.ctl.Calm) (hf : t.fill.val + 1 ≠ t.cfg.k) :
    t.feedDigit d = (t.openDigit d).refreshedIf ([RefreshPolicy.perDigit].contains t.cfg.refreshPolicy) := by
  rw [TxNode.feedDigit, if_neg hf, TxNode.refreshUnder_runs _ (t := t.openDigit d) hc]
  rfl

/-- The entries of the active blocks are written once a digit completes a batch. -/
theorem TxNode.lastDigit_written {t : TxNode} (d : BitVec 4) (hf : t.fill.val + 1 = t.cfg.k)
    (hw : ∀ j : BlockIdx, j.val < t.fill.val → t.buf[j].written = true) (b : BlockIdx) (hb : b.val < t.cfg.k) :
    (t.lastDigit d).buf[b].written = true := by
  have h : (t.lastDigit d).buf[b] = if b = t.fill then ⟨d, true⟩ else t.buf[b] := set_block t.buf t.fill b ⟨d, true⟩
  rw [h]
  split
  · rfl
  · next hne => exact hw b (by have : b.val ≠ t.fill.val := fun e => hne (Fin.ext e); omega)

theorem TxNode.lastDigit_entry (t : TxNode) (d : BitVec 4) (b : BlockIdx) :
    (t.lastDigit d).buf[b] = if b = t.fill then ⟨d, true⟩ else t.buf[b] := set_block t.buf t.fill b ⟨d, true⟩

/-- A digit that completes a batch. -/
theorem TxNode.feedDigit_last {t : TxNode} (d : BitVec 4) (hc : t.ctl.Calm) (hf : t.fill.val + 1 = t.cfg.k)
    (hw : ∀ j : BlockIdx, j.val < t.fill.val → t.buf[j].written = true) :
    t.feedDigit d = (TxNode.roundsDone t.cfg.blocks (t.lastDigit d)).refreshedIf
      ([RefreshPolicy.perBatch, .perDigit].contains t.cfg.refreshPolicy) := by
  have hd := TxNode.roundsDone_driven t.cfg.blocks (t.lastDigit d)
  have hc1 := hd.calm (show (t.lastDigit d).ctl.Calm from hc)
  have h1 : (t.lastDigit d).applyBatch = TxNode.roundsDone t.cfg.blocks (t.lastDigit d) :=
    TxNode.applyBatch_runs (t := t.lastDigit d) hc (t.lastDigit_written d hf hw)
  rw [TxNode.feedDigit, if_pos hf, h1, TxNode.andThen_alive _ hc1.noFault, TxNode.refreshUnder_runs _ hc1, hd.cfg]
  rfl

/-! ### All classes -/

/-- What a FEED leaves alone on a transmitter on which it can run through: no fault is raised, no section stays open, IE and the
slot are as before. -/
structure TxNode.FeedFrame (t u : TxNode) : Prop where
  fault    : u.ctl.fault = t.ctl.fault
  inCs     : u.ctl.inCs = t.ctl.inCs
  ie       : u.ctl.ie = t.ctl.ie
  slotFull : u.slotFull = t.slotFull

theorem TxNode.DrivenFrom.feedFrame {t u : TxNode} (h : t.DrivenFrom u) : t.FeedFrame u := ⟨h.fault, h.inCs, h.ie, h.slotFull⟩

theorem TxNode.feedDigit_frame {t : TxNode} (d : BitVec 4) (hc : t.ctl.Calm)
    (hw : ∀ j : BlockIdx, j.val < t.fill.val → t.buf[j].written = true) : t.FeedFrame (t.feedDigit d) := by
  by_cases hf : t.fill.val + 1 = t.cfg.k
  · rw [TxNode.feedDigit_last d hc hf hw]
    have h := (TxNode.roundsDone_driven t.cfg.blocks (t.lastDigit d)).trans (TxNode.refreshedIf_driven
      ([RefreshPolicy.perBatch, .perDigit].contains t.cfg.refreshPolicy) _)
    exact ⟨h.fault, h.inCs, h.ie, h.slotFull⟩
  · rw [TxNode.feedDigit_open d hc hf]
    have h := TxNode.refreshedIf_driven ([RefreshPolicy.perDigit].contains t.cfg.refreshPolicy) (t.openDigit d)
    exact ⟨h.fault, h.inCs, h.ie, h.slotFull⟩

/-- The FEED of any class runs through on a calm transmitter (43_framer.md R102 "FEED raises none"). -/
theorem TxNode.feed_frame {t : TxNode} (c : InputClass) (hc : t.ctl.Calm) (hk : 1 ≤ t.cfg.k)
    (hw : ∀ j : BlockIdx, j.val < t.fill.val → t.buf[j].written = true) : t.FeedFrame (t.feed c) := by
  cases c with
  | nibTerm e => exact ⟨rfl, rfl, rfl, rfl⟩
  | nibData hi lo =>
    rw [TxNode.feed, TxNode.feedNibData_runs hi lo hc hk]
    exact (t.feedNibData_driven hi lo).feedFrame
  | hexTerm e => exact ⟨rfl, rfl, rfl, rfl⟩
  | hexDig09 d => exact TxNode.feedDigit_frame _ hc hw
  | hexDiguc d => exact TxNode.feedDigit_frame _ hc hw
  | hexDiglc d => exact TxNode.feedDigit_frame _ hc hw
  | hexDiscard c => exact ⟨rfl, rfl, rfl, rfl⟩

/-- The meaning of an input class under its own policy is its FEED. -/
theorem exec_toInstr (x : InputClass) (s : State) (hf : s.tx.ctl.fault = none) (hp : s.tx.cfg.policy = x.policy) :
    exec x.toInstr s = .next { s with tx := s.tx.feed x } := by
  have he : s.txEnabled = true := by simp [State.txEnabled, hf]
  cases x <;> simp only [InputClass.policy] at hp <;>
    simp [exec, InputClass.toInstr, execNibTerm, execNibData, execHexTerm, execHexDig09, execHexDiguc, execHexDiglc,
      execHexDiscard, State.feedUnder, hp, State.onTx, he, TxNode.feed]

/-- A byte decodes to a class of the policy it is decoded under. -/
theorem decodeByte_policy (p : Policy) (c : Byte) : (decodeByte p c).policy = p := by
  cases p
  · simp only [decodeByte, decodeNibble]
    split
    · rfl
    · split <;> rfl
  · simp only [decodeByte, decodeHexblock]
    repeat' split
    all_goals rfl

end Sys2Proof.Machine
end

