-- ==== Sys2Proof/Laws/PerInstr.lean ====
section
/-! SUPPORT. Laws/PerInstr.lean: per instruction, that its encoding stands in its row of spec/opcode_table.json and in no row of
higher priority (30_encoding.md R67, R74). -/

namespace Sys2Proof.Laws.Opsel

/-- A (match, mask) cube of spec/opcode_table.json. -/
structure Cube where
  value : Byte
  mask  : Byte
  deriving DecidableEq, Repr

/-- The byte lies in the cube. -/
def Cube.holds (q : Cube) (c : Byte) : Bool := (c &&& q.mask) == q.value

/-- The cubes of the terminator classes. -/
def termCubes : List Cube := [⟨0x0D#8, 0xFF#8⟩, ⟨0x0A#8, 0xFF#8⟩]

/-- The cubes of the digit classes. -/
def digitCubes : List Cube :=
  [⟨0x30#8, 0xF8#8⟩, ⟨0x38#8, 0xFE#8⟩, ⟨0x41#8, 0xFF#8⟩, ⟨0x42#8, 0xFE#8⟩, ⟨0x44#8, 0xFE#8⟩, ⟨0x46#8, 0xFF#8⟩,
   ⟨0x61#8, 0xFF#8⟩, ⟨0x62#8, 0xFE#8⟩, ⟨0x64#8, 0xFE#8⟩, ⟨0x66#8, 0xFF#8⟩]

/-- The cube of a request tag. -/
def tagCube (tag : BitVec 4) : List Cube := [⟨tag.setWidth 8, 0x0F#8⟩]

/-- The cubes of an instruction's row. -/
def cubes : Instr → List Cube
  | .nibTerm _     => termCubes
  | .nibData _ _   => [⟨0, 0⟩]
  | .hexTerm _     => termCubes
  | .hexDig09 _    => digitCubes.take 2
  | .hexDiguc _    => (digitCubes.drop 2).take 4
  | .hexDiglc _    => digitCubes.drop 6
  | .hexDiscard _  => [⟨0, 0⟩]
  | .syn _ _       => tagCube 0x0
  | .mincorr _ _   => tagCube 0x1
  | .apply _ _     => tagCube 0x2
  | .applyBatch    => tagCube 0x3
  | .refresh       => tagCube 0x4
  | .poll          => tagCube 0x5
  | .ackBatch      => tagCube 0x6
  | .csEnter       => tagCube 0x7
  | .csExit        => tagCube 0x8
  | .uartArrive _  => tagCube 0x9
  | .isrRx         => tagCube 0xA
  | .sample        => tagCube 0xB
  | .report        => tagCube 0xC
  | .rxCycle       => tagCube 0xD
  | .reservedE     => tagCube 0xE
  | .reservedF     => tagCube 0xF

/-- The cubes of the rows that come before an instruction's catch-all row. -/
def higherCubes : Instr → List Cube
  | .nibTerm _     => []
  | .nibData _ _   => termCubes
  | .hexTerm _     => []
  | .hexDig09 _    => termCubes
  | .hexDiguc _    => termCubes
  | .hexDiglc _    => termCubes
  | .hexDiscard _  => termCubes ++ digitCubes
  | .syn _ _       => []
  | .mincorr _ _   => []
  | .apply _ _     => []
  | .applyBatch    => []
  | .refresh       => []
  | .poll          => []
  | .ackBatch      => []
  | .csEnter       => []
  | .csExit        => []
  | .uartArrive _  => []
  | .isrRx         => []
  | .sample        => []
  | .report        => []
  | .rxCycle       => []
  | .reservedE     => []
  | .reservedF     => []

/-- The byte of a code that the table's rows are about: the input byte, or the first byte of the record. -/
def firstByte : Code → Byte
  | .byte _ c => c
  | .record w => w.extractLsb' 0 8

/-- The encoding lies in its own row, and a well-formed instruction's in no row of higher priority. -/
def Statement (i : Instr) : Prop :=
  ((cubes i).any fun q => q.holds (firstByte (encode i))) = true ∧
    (i.WellFormed → ((higherCubes i).any fun q => q.holds (firstByte (encode i))) = false)

theorem firstByte_record (tag : BitVec 4) (x : BitVec 72) : firstByte (.record (packRecord tag x)) = 0#4 ++ tag := by
  apply BitVec.eq_of_getLsbD_eq
  intro i hi
  rw [firstByte, BitVec.getLsbD_extractLsb', getLsbD_packRecord, BitVec.getLsbD_append]
  by_cases h : i < 4 <;> simp [h, hi]

/-- A record lies in the cube of its tag. -/
theorem record (tag : BitVec 4) (x : BitVec 72) :
    ((tagCube tag).any fun q => q.holds (firstByte (.record (packRecord tag x)))) = true := by
  rw [firstByte_record]
  revert tag
  decide

theorem nibTerm (t : Terminator) : Statement (.nibTerm t) := by
  unfold Statement
  cases t <;> decide

theorem nibData (hi lo : BitVec 4) : Statement (.nibData hi lo) := by
  unfold Statement
  revert hi lo
  decide

theorem hexTerm (t : Terminator) : Statement (.hexTerm t) := by
  unfold Statement
  cases t <;> decide

theorem hexDig09 (d : Fin 10) : Statement (.hexDig09 d) := by
  unfold Statement
  revert d
  decide

theorem hexDiguc (d : Fin 6) : Statement (.hexDiguc d) := by
  unfold Statement
  revert d
  decide

theorem hexDiglc (d : Fin 6) : Statement (.hexDiglc d) := by
  unfold Statement
  revert d
  decide

theorem hexDiscard (c : Byte) : Statement (.hexDiscard c) := by
  unfold Statement
  revert c
  decide

theorem syn (v : Word) (r : BitVec 3) : Statement (.syn v r) := ⟨record _ _, fun _ => rfl⟩
theorem mincorr (t : Byte) (r : BitVec 3) : Statement (.mincorr t r) := ⟨record _ _, fun _ => rfl⟩
theorem apply (b : BlockIdx) (s : Byte) : Statement (.apply b s) := ⟨record _ _, fun _ => rfl⟩
theorem applyBatch : Statement .applyBatch := ⟨record _ _, fun _ => rfl⟩
theorem refresh : Statement .refresh := ⟨record _ _, fun _ => rfl⟩
theorem poll : Statement .poll := ⟨record _ _, fun _ => rfl⟩
theorem ackBatch : Statement .ackBatch := ⟨record _ _, fun _ => rfl⟩
theorem csEnter : Statement .csEnter := ⟨record _ _, fun _ => rfl⟩
theorem csExit : Statement .csExit := ⟨record _ _, fun _ => rfl⟩
theorem uartArrive (c : Byte) : Statement (.uartArrive c) := ⟨record _ _, fun _ => rfl⟩
theorem isrRx : Statement .isrRx := ⟨record _ _, fun _ => rfl⟩
theorem sample : Statement .sample := ⟨record _ _, fun _ => rfl⟩
theorem report : Statement .report := ⟨record _ _, fun _ => rfl⟩
theorem rxCycle : Statement .rxCycle := ⟨record _ _, fun _ => rfl⟩
theorem reservedE : Statement .reservedE := ⟨record _ _, fun _ => rfl⟩
theorem reservedF : Statement .reservedF := ⟨record _ _, fun _ => rfl⟩

end Sys2Proof.Laws.Opsel
end

