-- ==== Sys2Proof/Laws/Receiver.lean ====
section
/-! SUPPORT. Laws/Receiver.lean: all that a step can do to the receiver record and to the count of reports given in advance, as one
list of parts; a property that every part keeps is kept by every step. -/

namespace Sys2Proof.Machine

/-! ### The observed vector (45_sampler.md R126, R127, R128) -/

/-- Bit `q` of what a port read returns is the level of pin `q`. -/
theorem getLsbD_portLevels (pins : PortPins) (q : Fin 8) : (portLevels pins).getLsbD q.val = pinReads pins[q] := by
  rw [portLevels, BitVec.getLsbD_setWidth, BitVec.getLsbD_ofBoolListLE]
  simp [q.isLt]

theorem pinReads_eq (l : PinLevel) : pinReads l = decide (l ≠ .low) := by cases l <;> rfl

/-- Driven pins read as the byte that drives them. -/
theorem portLevels_driven (x : Byte) : portLevels (drivenPins x) = x := by
  apply BitVec.eq_of_getLsbD_eq
  intro i hi
  rw [show i = (⟨i, hi⟩ : Fin 8).val from rfl, getLsbD_portLevels, drivenPins, Fin.getElem_fin, Vector.getElem_ofFn]
  split
  · next h => exact h.symm
  · next h => exact (Bool.not_eq_true _ ▸ h).symm

theorem getLsbD_observedBits (c : CfgRx) (a b : Byte) (n k : Nat) (hn : n ≤ 64) :
    (observedBits c a b n).getLsbD k = (decide (k < n) && observedBit c a b k) := by
  induction n with
  | zero => simp [observedBits]
  | succ n ih =>
    rw [observedBits, BitVec.getLsbD_or, ih (by omega)]
    by_cases hk : k = n
    · subst hk
      cases observedBit c a b k <;> simp [BitVec.getLsbD_twoPow]; omega
    · have hx : (if observedBit c a b n then BitVec.twoPow 64 n else 0#64).getLsbD k = false := by
        split
        · simp [BitVec.getLsbD_twoPow, Ne.symm hk]
        · simp
      rw [show (if observedBit c a b n = true then BitVec.twoPow 64 n else 0) =
        (if observedBit c a b n = true then BitVec.twoPow 64 n else 0#64) from rfl, hx, Bool.or_false]
      congr 1
      simp only [decide_eq_decide]
      omega

theorem getLsbD_observe (c : CfgRx) (a b : Byte) (k : Nat) (hn : c.nRx ≤ 64) :
    (observe c a b).getLsbD k = (decide (k < c.nRx) && observedBit c a b k) := getLsbD_observedBits c a b c.nRx k hn

/-! ### The requests -/

/-- The receiver after a SAMPLE that runs (45_sampler.md R126). -/
def RxNode.sampledAs (x : RxNode) (o : Word) : RxNode := { x with sampled := o, sampledValid := true, ctl := x.ctl.afterSection }

theorem State.sample_nested {s : State} (hc : s.rx.ctl.inCs = true) : s.sample = { s with rx := s.rx.raise .nest } := by
  simp [State.sample, RxNode.csEnter, Control.csEnter_inside hc, RxNode.raise]

theorem State.portByte_rx (s : State) (x : RxNode) (p : Port) (h : x.cfg = s.rx.cfg) :
    ({ s with rx := x } : State).portByte p = s.portByte p := by simp [State.portByte, h]

theorem State.readPort_env (s : State) (x : RxNode) (p : Port) (h : x.cfg = s.rx.cfg) :
    (({ s with rx := x } : State).readPort p).env = (s.readPort p).env := by
  simp only [State.readPort, h]
  split <;> rfl

/-- A port read changes the environment only. -/
theorem State.readPort_eq (s : State) (p : Port) : s.readPort p = { s with env := (s.readPort p).env } := by
  rw [State.readPort]
  split <;> rfl

/-- SAMPLE when it runs. -/
theorem State.sample_runs {s : State} (hc : s.rx.ctl.Calm) :
    s.sample = { s with
      env := ((s.readPort .a).readPort .b).env
      rx := s.rx.sampledAs (observe s.rx.cfg (s.portByte .a) ((s.readPort .a).portByte .b)) } := by
  have h1 : s.rx.ctl.csEnter = s.rx.ctl.mask := Control.csEnter_outside hc.outside
  have h2 : s.rx.ctl.mask.csExit = s.rx.ctl.afterSection := by
    rw [Control.csExit_inside (by simp), Control.unmask_mask hc.outside]
  have ha : s.rx.csEnter.ctl.alive = true := by simp [RxNode.csEnter, h1, hc.noFault]
  rw [State.sample]
  simp only [ha, if_true]
  have key : ∀ s' : State, s'.takeSample = { s' with
      env := ((s'.readPort .a).readPort .b).env
      rx := s'.rx.csExit.storeSample (observe s'.rx.cfg (s'.portByte .a) ((s'.readPort .a).portByte .b)) } := by
    intro s'
    rw [State.takeSample]
    rw [State.readPort_eq (s'.readPort .a) .b, State.readPort_eq s' .a]
  rw [key]
  have hcfg : s.rx.csEnter.cfg = s.rx.cfg := rfl
  have e1 : (({ s with rx := s.rx.csEnter } : State).readPort .a) = { (s.readPort .a) with rx := s.rx.csEnter } := by
    rw [State.readPort_eq, State.readPort_env _ _ _ hcfg, State.readPort_eq s .a]
  have hcfg' : s.rx.csEnter.cfg = (s.readPort .a).rx.cfg := by rw [State.readPort_rx]; rfl
  rw [e1, State.readPort_env _ _ _ hcfg', State.portByte_rx _ _ _ hcfg, State.portByte_rx _ _ _ hcfg']
  simp only [RxNode.csExit, RxNode.csEnter, h1, h2]
  rfl

/-- REPORT when it runs (46_reporter.md R132, R135). -/
theorem State.report_runs {s : State} (hv : s.rx.sampledValid = true) :
    s.report = { s with
      hostOut := s.hostOut - (reportFrame s.rx.syndrome).length
      rx := { s.rx with
        txout := s.rx.txout ++ (reportFrame s.rx.syndrome).take s.hostOut
        sending := (reportFrame s.rx.syndrome).drop s.hostOut } } := by
  rw [State.report, if_pos hv]
  rfl

theorem State.report_unwritten {s : State} (hv : s.rx.sampledValid = false) :
    s.report = { s with rx := s.rx.raise .unwritten } := by simp [State.report, hv]

/-- RXCYCLE when it runs: SAMPLE, and REPORT of what it stored (46_reporter.md R136). -/
theorem State.rxCycle_runs {s : State} (hc : s.rx.ctl.Calm) : s.rxCycle = s.sample.report := by
  have h : s.sample.rx.ctl.alive = true := by rw [State.sample_runs hc]; simp [RxNode.sampledAs, hc.noFault]
  rw [State.rxCycle]
  simp [h]

theorem State.rxCycle_nested {s : State} (hc : s.rx.ctl.inCs = true) : s.rxCycle = { s with rx := s.rx.raise .nest } := by
  rw [State.rxCycle]
  simp [State.sample_nested hc, RxNode.raise]

/-- Every request that the receiver serves leaves the state as it is while a byte of a report is held (46_reporter.md R136). -/
theorem State.exec_held {s : State} (i : Instr) (hs : s.rx.sending ≠ [])
    (hi : i.owner = some .rx ∨ (i.owner = none ∧ s.site = .rx)) : exec i s = .next s := by
  have h : s.rxEnabled = false := by simp [State.rxEnabled, hs]
  have hsite (hx : s.site = .rx) : s.siteEnabled = false := by simp [State.siteEnabled, hx, h]
  have hon (f : State → State) (hx : s.site = .rx) : s.onSite f = s := by simp [State.onSite, hsite hx]
  cases i <;> simp [Instr.owner] at hi
  case syn | mincorr => simp [exec, execSyn, execMincorr, codecRequest, hon _ hi]
  case csEnter | csExit => simp [exec, execCsEnter, execCsExit, hon _ hi]
  case reservedE | reservedF => simp [exec, execReservedE, execReservedF, State.refuse, hon _ hi]
  case sample | report | rxCycle => simp [exec, execSample, execReport, execRxCycle, State.onRx, h]

/-- A turn of HOST_OUT sends the next byte of a held report (46_reporter.md R135). -/
theorem State.step_held (s : State) (rest : List Turn) (c : Byte) (cs : List Byte)
    (ht : s.schedule = .transmitReady :: rest) (hf : s.rx.ctl.fault = none) (hs : s.rx.sending = c :: cs)
    (hh : s.hostOut = 0) :
    step s = .next { s with schedule := rest, rx := { s.rx with txout := s.rx.txout ++ [c], sending := cs } } := by
  simp [step, State.fetch, ht, State.transmitReady, hf, State.serialSend, hs, hh]

/-! ### The parts -/

/-- `P` is kept by every part of a step, as a property of the receiver record and of the reports given in advance. -/
structure RxNode.Kept (P : RxNode → Nat → Prop) : Prop where
  raise    : ∀ x n f, x.ctl.fault = none → x.sending = [] → P x n → P (x.raise f) n
  csEnter  : ∀ x n, x.ctl.Calm → x.sending = [] → P x n → P { x with ctl := x.ctl.mask } n
  csExit   : ∀ x n, x.ctl.fault = none → x.ctl.inCs = true → x.sending = [] → P x n → P { x with ctl := x.ctl.unmask } n
  sampled  : ∀ x n a b, x.ctl.Calm → x.sending = [] → P x n → P (x.sampledAs (observe x.cfg a b)) n
  reported : ∀ x n, x.ctl.fault = none → x.sending = [] → x.sampledValid = true → P x n →
    P { x with txout := x.txout ++ (reportFrame x.syndrome).take n, sending := (reportFrame x.syndrome).drop n }
      (n - (reportFrame x.syndrome).length)
  ready    : ∀ x n, x.ctl.fault = none → P x n →
    P { x with txout := x.txout ++ x.sending.take (n + 1), sending := x.sending.drop (n + 1) } (n + 1 - x.sending.length)
  notReady : ∀ x n, x.ctl.fault ≠ none → P x n → P x (n + 1)

namespace RxKept
variable {P : RxNode → Nat → Prop}

theorem onRx (f : State → State) {s : State}
    (hf : s.rx.ctl.fault = none → s.rx.sending = [] → P s.rx s.hostOut → P (f s).rx (f s).hostOut)
    (h : P s.rx s.hostOut) : P (s.onRx f).rx (s.onRx f).hostOut := by
  rw [State.onRx]
  split
  · next he =>
    have he : s.rx.ctl.fault = none ∧ s.rx.sending = [] := by simpa [State.rxEnabled] using he
    exact hf he.1 he.2 h
  · exact h

theorem onSite (f : Control → Control) {s : State}
    (hf : s.rx.ctl.fault = none → s.rx.sending = [] → P s.rx s.hostOut → P { s.rx with ctl := f s.rx.ctl } s.hostOut)
    (h : P s.rx s.hostOut) :
    P (s.onSite fun s => s.mapSite f).rx (s.onSite fun s => s.mapSite f).hostOut := by
  rw [State.onSite]
  split
  · next he =>
    rw [State.mapSite]
    cases hs : s.site with
    | tx => exact h
    | rx =>
      have he : s.rx.ctl.fault = none ∧ s.rx.sending = [] := by
        simpa [State.siteEnabled, hs, State.rxEnabled] using he
      exact hf he.1 he.2 h
  · exact h

theorem sample (hk : RxNode.Kept P) {s : State} (hf : s.rx.ctl.fault = none) (hs : s.rx.sending = [])
    (h : P s.rx s.hostOut) : P s.sample.rx s.sample.hostOut := by
  cases hc : s.rx.ctl.inCs with
  | true => rw [State.sample_nested hc]; exact hk.raise _ _ _ hf hs h
  | false => rw [State.sample_runs ⟨hf, hc⟩]; exact hk.sampled _ _ _ _ ⟨hf, hc⟩ hs h

theorem report (hk : RxNode.Kept P) {s : State} (hf : s.rx.ctl.fault = none) (hs : s.rx.sending = [])
    (h : P s.rx s.hostOut) : P s.report.rx s.report.hostOut := by
  cases hv : s.rx.sampledValid with
  | true => rw [State.report_runs hv]; exact hk.reported _ _ hf hs hv h
  | false => rw [State.report_unwritten hv]; exact hk.raise _ _ _ hf hs h

theorem rxCycle (hk : RxNode.Kept P) {s : State} (hf : s.rx.ctl.fault = none) (hs : s.rx.sending = [])
    (h : P s.rx s.hostOut) : P s.rxCycle.rx s.rxCycle.hostOut := by
  cases hc : s.rx.ctl.inCs with
  | true => rw [State.rxCycle_nested hc]; exact hk.raise _ _ _ hf hs h
  | false =>
    have h1 := sample hk hf hs h
    have h2 := State.sample_runs (s := s) ⟨hf, hc⟩
    rw [State.rxCycle_runs ⟨hf, hc⟩]
    exact report hk (by rw [h2]; exact hf) (by rw [h2]; exact hs) h1

theorem control (hk : RxNode.Kept P) {x : RxNode} {n : Nat} (hf : x.ctl.fault = none) (hs : x.sending = []) (h : P x n) :
    P { x with ctl := x.ctl.csEnter } n ∧ P { x with ctl := x.ctl.csExit } n := by
  cases hc : x.ctl.inCs with
  | true =>
    rw [Control.csEnter_inside hc, Control.csExit_inside hc]
    exact ⟨hk.raise _ _ _ hf hs h, hk.csExit _ _ hf hc hs h⟩
  | false =>
    rw [Control.csEnter_outside hc, Control.csExit_outside hc]
    exact ⟨hk.csEnter _ _ ⟨hf, hc⟩ hs h, hk.raise _ _ _ hf hs h⟩

theorem codecRequest (hk : RxNode.Kept P) (legal : Bool) (i : Instr) (x : Word) {s : State} (h : P s.rx s.hostOut) :
    P (Machine.codecRequest legal i x s).rx (Machine.codecRequest legal i x s).hostOut := by
  cases legal with
  | true =>
    rw [Machine.codecRequest, State.onSite]
    split <;> exact h
  | false => exact onSite (·.raise (.refused i)) (fun hf hs h => hk.raise _ _ _ hf hs h) h

end RxKept

/-- The transmitter's requests leave the receiver alone. -/
theorem State.onTx_rx (f : TxNode → TxNode) (s : State) : (s.onTx f).rx = s.rx ∧ (s.onTx f).hostOut = s.hostOut := by
  rw [State.onTx]
  split <;> exact ⟨rfl, rfl⟩

theorem State.feedUnder_rx {p : Policy} {f : TxNode → TxNode} {s t : State} (h : s.feedUnder p f = .next t) :
    t.rx = s.rx ∧ t.hostOut = s.hostOut := by
  rw [State.feedUnder] at h
  split at h
  · cases h
    exact s.onTx_rx f
  · cases h

theorem State.uartArrive_rx (c : Byte) (s : State) : (s.uartArrive c).rx = s.rx ∧ (s.uartArrive c).hostOut = s.hostOut := by
  rw [State.uartArrive]
  split <;> exact ⟨rfl, rfl⟩

theorem State.isrBody_rx (s : State) : s.isrBody.rx = s.rx ∧ s.isrBody.hostOut = s.hostOut := by
  rw [State.isrBody]
  split <;> exact ⟨rfl, rfl⟩

/-- An instruction that only the transmitter serves leaves the receiver and HOST_OUT alone. -/
theorem exec_tx_rx (i : Instr) {s t : State} (he : exec i s = .next t) (ho : i.owner = some .tx) :
    t.rx = s.rx ∧ t.hostOut = s.hostOut := by
  cases i <;> first | (cases ho; done) | skip
  case nibTerm => exact State.feedUnder_rx he
  case nibData => exact State.feedUnder_rx he
  case hexTerm => exact State.feedUnder_rx he
  case hexDig09 => exact State.feedUnder_rx he
  case hexDiguc => exact State.feedUnder_rx he
  case hexDiglc => exact State.feedUnder_rx he
  case hexDiscard => exact State.feedUnder_rx he
  case apply => cases he; exact State.onTx_rx _ _
  case applyBatch => cases he; exact State.onTx_rx _ _
  case refresh => cases he; exact State.onTx_rx _ _
  case poll => cases he; exact State.onTx_rx _ _
  case ackBatch => cases he; exact State.onTx_rx _ _
  case uartArrive c =>
    cases he
    split
    · exact State.uartArrive_rx c s
    · exact ⟨rfl, rfl⟩
  case isrRx =>
    cases he
    split
    · exact State.isrBody_rx s
    · exact ⟨rfl, rfl⟩

/-- A property that every part keeps is kept by every instruction. -/
theorem exec_keeps_rx {P : RxNode → Nat → Prop} (hk : RxNode.Kept P) (i : Instr) {s t : State} (he : exec i s = .next t)
    (h : P s.rx s.hostOut) : P t.rx t.hostOut := by
  by_cases ho : i.owner = some .tx
  · obtain ⟨h1, h2⟩ := exec_tx_rx i he ho
    rw [h1, h2]
    exact h
  · cases i <;> first | (exact absurd rfl ho) | skip
    case syn => cases he; exact RxKept.codecRequest hk _ _ _ h
    case mincorr => cases he; exact RxKept.codecRequest hk _ _ _ h
    case csEnter => cases he; exact RxKept.onSite _ (fun hf hs h => (RxKept.control hk hf hs h).1) h
    case csExit => cases he; exact RxKept.onSite _ (fun hf hs h => (RxKept.control hk hf hs h).2) h
    case sample => cases he; exact RxKept.onRx _ (fun hf hs h => RxKept.sample hk hf hs h) h
    case report => cases he; exact RxKept.onRx _ (fun hf hs h => RxKept.report hk hf hs h) h
    case rxCycle => cases he; exact RxKept.onRx _ (fun hf hs h => RxKept.rxCycle hk hf hs h) h
    case reservedE => cases he; exact RxKept.onSite _ (fun hf hs h => hk.raise _ _ _ hf hs h) h
    case reservedF => cases he; exact RxKept.onSite _ (fun hf hs h => hk.raise _ _ _ hf hs h) h

/-- A property that every part keeps is kept by every step. -/
theorem step_keeps_rx {P : RxNode → Nat → Prop} (hk : RxNode.Kept P) {s t : State} (he : step s = .next t)
    (h : P s.rx s.hostOut) : P t.rx t.hostOut := by
  rcases step_cases he with ⟨_, rfl⟩ | ⟨rest, _, rfl⟩ | ⟨n, w, rest, i, _, _, e⟩
  · exact h
  · unfold State.transmitReady
    simp only
    split
    · next ha => exact hk.ready _ _ (by simpa using ha) h
    · next ha => exact hk.notReady _ _ (by simpa using ha) h
  · exact exec_keeps_rx hk i e h

end Sys2Proof.Machine
end

