-- ==== Sys2Proof/Tests/Slice0.lean ====
section
/-! SUPPORT. Tests/Slice0.lean: the WellFormed smoke tests, decoding of words written out by hand, one or two steps per instruction
with results from 95_test_vectors.md, and a witness for the hypotheses of every statement. -/

namespace Sys2Proof.Tests
open Sys2Proof Sys2Proof.Machine

/-! ### Helpers -/

/-- The transmitter configuration of V6: one block with R = 4, NIBBLE. -/
def cfgNib : CfgTx := CfgTx.legacy .nibble false 1 ⟨0, 1, 2⟩

/-- The transmitter configuration of V7: two blocks with R = 4, HEXBLOCK. -/
def cfgHex (p : RefreshPolicy) (reset : Bool) : CfgTx :=
  ⟨2, [4, 4], 30, .hexblock, p, reset, 1, .activeHigh, ⟨0, 1, 2⟩⟩

/-- The receiver configuration of V10: default map with PINMAP_B = (0, 1, 2). -/
def cfgRx (p : Polarity) : CfgRx := CfgRx.standard p 0 1 2

/-- A receiver that maps all fifteen bits, for the round trip. -/
def cfgWide : CfgRx :=
  ⟨4, [(0, ⟨.a, 0⟩), (1, ⟨.a, 1⟩), (2, ⟨.a, 2⟩), (3, ⟨.a, 3⟩), (4, ⟨.a, 4⟩), (5, ⟨.a, 5⟩), (6, ⟨.a, 6⟩), (7, ⟨.a, 7⟩),
    (8, ⟨.b, 0⟩), (9, ⟨.b, 1⟩), (10, ⟨.b, 2⟩), (11, ⟨.b, 3⟩), (12, ⟨.b, 4⟩), (13, ⟨.b, 5⟩), (14, ⟨.b, 6⟩)], .activeHigh⟩

/-- After reset with a NIBBLE transmitter. -/
def nib : State := State.resetWith cfgNib (cfgRx .activeHigh) ResetDraws.zero

/-- After reset with a HEXBLOCK transmitter. -/
def hex (p : RefreshPolicy) (reset : Bool) : State := State.resetWith (cfgHex p reset) (cfgRx .activeLow) ResetDraws.zero

/-- The same with the first digit of a batch, 3, stored. -/
def hexHalf (p : RefreshPolicy) (reset : Bool) : State :=
  let s := hex p reset
  { s with tx := { s.tx with buf := s.tx.buf.set 0 ⟨3, true⟩, fill := 1 } }

/-- A batch of two stored digits, 3 and 10. -/
def hexFull (p : RefreshPolicy) : State :=
  let s := hex p false
  { s with tx := { s.tx with buf := (s.tx.buf.set 0 ⟨3, true⟩).set 1 ⟨10, true⟩ } }

/-- Block 0 holds a given vector. -/
def withV (v : Word) (s : State) : State := { s with tx := { s.tx with v := s.tx.v.set 0 v } }

/-- A byte stands in the event slot. -/
def withSlot (c : Byte) (s : State) : State := { s with tx := { s.tx with slotFull := true, slotData := c } }

/-- A byte is pending. -/
def withUart (c : Byte) (s : State) : State := { s with tx := { s.tx with uartPend := true, uartByte := c } }

/-- ENV's next answers. -/
def withPins (a b : PortPins) (s : State) : State := { s with env := { s.env with portA := [a], portB := [b] } }

/-- ENV's next answers, every pin driven. -/
def withPorts (a b : Byte) (s : State) : State := withPins (drivenPins a) (drivenPins b) s

/-- A port none of whose pins is driven. -/
def floatingPins : PortPins := Vector.replicate 8 .floating

/-- A port whose pins 0 to 3 are grounded and whose others float. -/
def lowNibble : PortPins := #v[.low, .low, .low, .low, .floating, .floating, .floating, .floating]

/-- The receiver holds a valid sample. -/
def withSample (o : Word) (s : State) : State := { s with rx := { s.rx with sampled := o, sampledValid := true } }

/-- A critical section is open at both nodes. -/
def inside (s : State) : State :=
  { s with
    tx := { s.tx with ctl := ⟨false, true, true, none⟩ }
    rx := { s.rx with ctl := ⟨false, true, true, none⟩ } }

/-- Shared requests are taken at the receiver. -/
def atRx (s : State) : State := { s with site := .rx }

/-- The given turns are scheduled. -/
def withTurns (us : List Turn) (s : State) : State := { s with schedule := us }

/-- HOST_OUT is ready for the given number of bytes. -/
def withReady (n : Nat) (s : State) : State := { s with hostOut := n }

/-- What an observation shows of the next state, none at a stop. -/
def see {α : Type} (f : State → α) : Host.Outcome State Fault Refusal → Option α
  | .next s    => some (f s)
  | .fault _   => none
  | .refused _ => none

/-- V of the blocks 0 and 1. -/
def vOf (s : State) : Word × Word := (s.tx.v[0], s.tx.v[1])

/-! ### The checks refuse ill-formed terms -/

theorem test_wf_nibData : (Instr.nibData 0x0 0xD).wellFormed = false := by decide
theorem test_wf_discardTerm : (Instr.hexDiscard 0x0A#8).wellFormed = false := by decide
theorem test_wf_discardDigit : (Instr.hexDiscard 0x61#8).wellFormed = false := by decide
theorem test_wf_syn : (Instr.syn 0 7#3).wellFormed = false := by decide
theorem test_wf_mincorr : (Instr.mincorr 3 2#3).wellFormed = false := by decide
theorem test_wf_reserved : Instr.reservedE.wellFormed = false ∧ Instr.reservedF.wellFormed = false := by decide

/-- 95_test_vectors.md V13: the two well-formed rows. -/
theorem test_cfg_ok : cfgNib.failed = none ∧ (cfgRx .activeLow).failed = none ∧
    ({ cfgHex .perBatch false with k := 4, r := [4, 4, 4, 4], totalBits := 60 } : CfgTx).failed = none := by decide

theorem test_cfg_k : ({ cfgNib with k := 5 } : CfgTx).failed = some .chkK := by decide
theorem test_cfg_k0 : ({ cfgNib with k := 0 } : CfgTx).failed = some .chkK := by decide
theorem test_cfg_r : ({ cfgNib with r := [7] } : CfgTx).failed = some .chkR := by decide
theorem test_cfg_nsum : ({ cfgHex .perBatch false with r := [6, 6] } : CfgTx).failed = some .chkNsum := by decide
theorem test_cfg_total : ({ cfgNib with totalBits := 14 } : CfgTx).failed = some .chkTotal := by decide
theorem test_cfg_total5 : ({ cfgHex .perBatch false with k := 1, r := [5], totalBits := 15 } : CfgTx).failed = some .chkTotal := by
  decide
theorem test_cfg_nib : ({ cfgHex .perBatch false with policy := .nibble } : CfgTx).failed = some .chkNib := by decide
theorem test_cfg_nib3 : ({ cfgNib with r := [3] } : CfgTx).failed = some .chkNib := by decide
theorem test_cfg_rrx : ({ cfgRx .activeLow with rRx := 5 } : CfgRx).failed = some .chkRrx := by decide
theorem test_cfg_pin : (⟨3, [(8, ⟨.b, 0⟩)], .activeLow⟩ : CfgRx).failed = some .chkPin := by decide
theorem test_cfg_hp : ({ cfgNib with halfPeriod := 0 } : CfgTx).failed = some .chkHp := by decide
theorem test_cfg_pins : ({ cfgNib with drvPins := ⟨1, 1, 2⟩ } : CfgTx).failed = some .chkDrvPins := by decide

/-- V13 and 60_exceptions.md R143: a failed check shows in FAULT from reset. -/
theorem test_cfg_fault :
    (State.resetWith { cfgNib with k := 5 } (cfgRx .activeLow) ResetDraws.zero).tx.ctl.fault = some (.cfg .chkK) := by decide

/-! ### Decoding of words written out by hand (30_encoding.md R65 to R67; 95_test_vectors.md V5) -/

theorem test_decode_nibTerm : decode (.byte .nibble 0b00001010#8) = .ok (.nibTerm .lf) := by decide
theorem test_decode_nibData : decode (.byte .nibble 0b10110000#8) = .ok (.nibData 0xB#4 0x0#4) := by decide
theorem test_decode_hexTerm : decode (.byte .hexblock 0b00001101#8) = .ok (.hexTerm .cr) := by decide
theorem test_decode_hexDig09 : decode (.byte .hexblock 0b00111001#8) = .ok (.hexDig09 9) := by decide
theorem test_decode_hexDiguc : decode (.byte .hexblock 0b01000001#8) = .ok (.hexDiguc 0) := by decide
theorem test_decode_hexDiglc : decode (.byte .hexblock 0b01100110#8) = .ok (.hexDiglc 5) := by decide
theorem test_decode_hexDiscard : decode (.byte .hexblock 0b00101111#8) = .ok (.hexDiscard 0x2F#8) := by decide

/-- `SYN 0x0810, 4`: tag 0, then v, then r. -/
theorem test_decode_syn : decode (.record 0x04000000000000081000#80) = .ok (.syn 0x0810#64 4#3) := by decide

/-- `MINCORR 11, 4`: tag 1, t = 0x0B, r = 100. -/
theorem test_decode_mincorr : decode (.record 0b100000010110000_0001#80) = .ok (.mincorr 11#8 4#3) := by decide

/-- `APPLY 1, 0x0B`: tag 2, b = 01, s = 00001011. -/
theorem test_decode_apply : decode (.record 0b00001011_01_0000_0010#80) = .ok (.apply 1 0x0B#8) := by decide

/-- `UART_ARRIVE 'A'`: tag 9, c = 0x41. -/
theorem test_decode_uart : decode (.record 0b01000001_0000_1001#80) = .ok (.uartArrive 0x41#8) := by decide

/-- The tags without operands. -/
theorem test_decode_tags :
    decode (.record 0x3#80) = .ok .applyBatch ∧ decode (.record 0x4#80) = .ok .refresh ∧ decode (.record 0x5#80) = .ok .poll ∧
    decode (.record 0x6#80) = .ok .ackBatch ∧ decode (.record 0x7#80) = .ok .csEnter ∧ decode (.record 0x8#80) = .ok .csExit ∧
    decode (.record 0xA#80) = .ok .isrRx ∧ decode (.record 0xB#80) = .ok .sample ∧ decode (.record 0xC#80) = .ok .report ∧
    decode (.record 0xD#80) = .ok .rxCycle ∧ decode (.record 0xE#80) = .ok .reservedE ∧ decode (.record 0xF#80) = .ok .reservedF := by
  decide

/-- A bit outside the record's layout is rejected by name (log 28). -/
theorem test_decode_unused : decode (.record 0x15#80) = .error .unusedBits ∧ decode (.record 0x105#80) = .error .unusedBits := by
  decide

/-! ### The instructions, with results from 95_test_vectors.md -/

/-- V1 with E1, E2 and the masked bit 15. -/
theorem test_syn : syn 0x0400 4 = 11 ∧ syn 0x0810 4 = 9 ∧ syn 0x8000 4 = 0 ∧ syn 0x4000000000000000 6 = 63 ∧
    syn 0x2A 3 = 0 := by decide

/-- V1, last row, and the pure result. -/
theorem test_syn_request : see (·.tx.ctl.fault) (exec (.syn 1 7#3) nib) = some (some (.refused (.syn 1 7#3))) ∧
    see (·.results) (exec (.syn 0x0810 4#3) nib) = some [9] := by decide

/-- V2. -/
theorem test_mincorr : mincorr 11 4 = 0x400 ∧ mincorr 27 4 = 0x400 ∧ mincorr 16 4 = 0 ∧ mincorr 15 3 = 0x40 ∧
    mincorr 255 6 = 0x4000000000000000 := by decide

theorem test_mincorr_request : see (·.results) (exec (.mincorr 12 4#3) nib) = some [0x800] ∧
    see (·.rx.ctl.fault) (exec (.mincorr 3 2#3) (atRx nib)) = some (some (.refused (.mincorr 3 2#3))) := by decide

/-- V3, rows 2, 4 and 5. -/
theorem test_apply : see vOf (exec (.apply 0 9) (withV 0x10 nib)) = some (0x0810, 0) ∧
    see vOf (exec (.apply 0 0) (withV 0x0810 nib)) = some (0x0910, 0) ∧
    see vOf (exec (.apply 0 0x1B) nib) = some (0x0400, 0) := by decide

/-- V3, last row, and the event of E1. -/
theorem test_apply_block : see (·.tx.ctl.fault) (exec (.apply 1 5) nib) = some (some (.block 1)) ∧
    see (·.tx.etrace) (exec (.apply 0 0xB) nib) = some [.applied 0 11 0x400] := by decide

/-- 42_encoder.md R93, the example. -/
theorem test_applyBatch : see vOf (exec .applyBatch (hexFull .perBatch)) = some (0x0004, 0x0200) ∧
    see (·.tx.ltrace) (exec .applyBatch (hexFull .perBatch)) = some [] := by decide

/-- 10_state.md R42: the entry of block 1 was never written; block 0's APPLY is kept. -/
theorem test_applyBatch_unwritten : see (fun s => (s.tx.v[0], s.tx.ctl.fault)) (exec .applyBatch (hexHalf .perBatch false)) =
    some (0x0004, some .unwritten) := by decide

set_option maxRecDepth 20000 in
/-- V7, row 5: the two aggregate vectors under PER_BLOCK_APPLY. -/
theorem test_applyBatch_perBlock : see (·.tx.etrace) (exec .applyBatch (hexFull .perBlockApply)) =
    some [.applied 0 3 0x4, .refreshed 0x4, .applied 1 10 0x200, .refreshed 0x01000004] := by decide

/-- The transmitter of V9: one block with R = 3 and V = 0x05. -/
def v9 (p : Polarity) (clk : Bool) (sr : Word) : State :=
  let c : CfgTx := ⟨1, [3], 7, .hexblock, .perBatch, false, 1, p, ⟨0, 1, 2⟩⟩
  withV 0x05 (State.resetWith c (cfgRx .activeLow) { ResetDraws.zero with clkL := clk, sr := sr })

/-- V9, the four rows: OUT and the end levels. -/
theorem test_refresh :
    see (fun s => (s.tx.out, s.tx.dataL, s.tx.clkL, s.tx.latchL)) (exec .refresh (v9 .activeHigh false 0)) =
      some (0x05, true, false, true) ∧
    see (fun s => (s.tx.out, s.tx.dataL, s.tx.clkL, s.tx.latchL)) (exec .refresh (v9 .activeLow false 0)) =
      some (0x7A, false, false, true) ∧
    see (·.tx.out) (exec .refresh (v9 .activeHigh true 0x7F)) = some 0x45 ∧
    see (·.tx.out) (exec .refresh (v9 .activeHigh true 0)) = some 0x05 := by decide

/-- V9: 37 events, the last data event is bit 0. -/
theorem test_refresh_trace :
    see (fun s => (s.tx.ltrace.length, s.tx.ltrace[0]?, s.tx.ltrace[31]?, s.tx.ltrace[36]?))
      (exec .refresh (v9 .activeHigh false 0)) =
      some (37, some (.line .latch false), some (.line .data true), some (.line .latch true)) := by decide

/-- V6, row 1. -/
theorem test_nibData : see (fun s => (s.tx.v[0], s.tx.etrace)) (exec (.nibData 5 9) nib) =
    some (0x0810, [.applied 0 5 0x10, .refreshed 0x0010, .applied 0 9 0x800, .refreshed 0x0810]) := by decide

set_option maxRecDepth 20000 in
/-- V6, row 4. -/
theorem test_nibData_zero : see (fun s => (s.tx.v[0], s.tx.out)) (exec (.nibData 0 0xB) nib) = some (0x0400, 0x0400) := by decide

/-- V6, last row. -/
theorem test_nibTerm : see (fun s => (s.tx.v[0], s.tx.batch, s.tx.etrace)) (exec (.nibTerm .cr) (withV 0x0810 nib)) =
    some (0x0810, true, [.batchComplete]) := by decide

/-- V7, rows 6 and 7. -/
theorem test_hexTerm : see (fun s => (s.tx.fill, s.tx.batch)) (exec (.hexTerm .cr) (hexHalf .perBatch false)) = some (1, true) ∧
    see (fun s => (s.tx.fill, s.tx.batch)) (exec (.hexTerm .cr) (hexHalf .perBatch true)) = some (0, true) := by decide

/-- V7, rows 1 and 3. -/
theorem test_hexDig09 : see (fun s => (s.tx.fill, s.tx.buf[0], s.tx.etrace)) (exec (.hexDig09 3) (hex .perBatch false)) =
      some (1, ⟨3, true⟩, []) ∧
    see (fun s => (s.tx.fill, s.tx.etrace)) (exec (.hexDig09 3) (hex .perDigit false)) = some (1, [.refreshed 0]) := by decide

/-- V7, row 4. -/
theorem test_hexDiguc : see (fun s => (s.tx.fill, s.tx.buf[1], vOf s)) (exec (.hexDiguc 0) (hexHalf .perDigit false)) =
    some (0, ⟨10, true⟩, 0x4, 0x200) := by decide

/-- V7, row 2. -/
theorem test_hexDiglc : see (fun s => (s.tx.fill, vOf s, lastRefreshed s.tx.etrace))
    (exec (.hexDiglc 0) (hexHalf .perBatch false)) = some (0, (0x4, 0x200), some 0x01000004) := by decide

/-- V7, last row. -/
theorem test_hexDiscard : exec (.hexDiscard 0x47#8) (hexHalf .perBatch false) = .next (hexHalf .perBatch false) := by rfl

/-- V8, rows 1 and 2. -/
theorem test_poll : see (fun s => (s.tx.slotFull, s.tx.batch, s.tx.etrace)) (exec .poll (withSlot 0x0D nib)) =
      some (false, true, [.batchComplete]) ∧
    see (fun s => (s.tx.slotFull, s.tx.batch)) (exec .poll nib) = some (false, false) := by decide

/-- V8, row 4. -/
theorem test_ackBatch : see (fun s => (s.tx.batch, s.tx.etrace))
    (exec .ackBatch { nib with tx := nib.tx.setBatch }) = some (false, [.batchComplete]) := by decide

/-- V12, rows 1 and 3. -/
theorem test_csEnter : see (fun s => s.tx.ctl) (exec .csEnter nib) = some ⟨false, true, true, none⟩ ∧
    see (fun s => s.rx.ctl.fault) (exec .csEnter (atRx (inside nib))) = some (some .nest) := by decide

/-- V12, rows 2 and 4. -/
theorem test_csExit : see (fun s => (s.rx.ctl.ie, s.rx.ctl.inCs)) (exec .csExit (atRx (inside nib))) = some (true, false) ∧
    see (fun s => s.tx.ctl.fault) (exec .csExit nib) = some (some .nest) := by decide

/-- V12, row 5, and both outcomes of row 6. -/
theorem test_uartArrive : see (fun s => (s.tx.uartPend, s.tx.uartByte)) (exec (.uartArrive 0x41) nib) = some (true, 0x41) ∧
    see (fun s => s.tx.uartByte) (exec (.uartArrive 0x42) { withUart 0x41 nib with env := ⟨[], [], [true], 0⟩ }) = some 0x42 ∧
    see (fun s => s.tx.uartByte) (exec (.uartArrive 0x42) { withUart 0x41 nib with env := ⟨[], [], [false], 0⟩ }) = some 0x41 := by
  decide

/-- V12, rows 7 to 9. -/
theorem test_isrRx : see (fun s => (s.tx.uartPend, s.tx.slotFull, s.tx.slotData)) (exec .isrRx (withUart 0x35 nib)) =
      some (false, true, 0x35) ∧
    see (fun s => (s.tx.uartPend, s.tx.slotData))
      (exec .isrRx { withUart 0x36 (withSlot 0x35 nib) with env := ⟨[], [], [false], 0⟩ }) = some (false, 0x35) ∧
    see (fun s => s.tx.uartPend) (exec .isrRx (withUart 0x35 (inside nib))) = some true := by decide

/-- V10, rows 1 and 7 (ACTIVE_LOW). -/
theorem test_sample_low : see (fun s => (s.rx.sampled, s.rx.sampledValid)) (exec .sample (withPorts 0xF0 0xFF (hex .perBatch false))) =
      some (0x000F, true) ∧
    see (fun s => s.rx.sampled) (exec .sample (withPorts 0xFF 0xFB (hex .perBatch false))) = some 0x0400 := by decide

/-- V10, rows 5 and 8 (ACTIVE_HIGH). -/
theorem test_sample_high : see (fun s => s.rx.sampled) (exec .sample (withPorts 0xFF 0xFF nib)) = some 0x07FF ∧
    see (fun s => s.rx.sampled) (exec .sample (withPorts 0x00 0xF8 nib)) = some 0 := by decide

/-- E3 with its grounded and floating pins, and V10, the row where all pins float. -/
theorem test_sample_floating : see (·.rx.sampled) (exec .sample (withPins lowNibble floatingPins (hex .perBatch false))) = some 0x000F ∧
    see (·.rx.sampled) (exec .sample (withPins floatingPins floatingPins (hex .perBatch false))) = some 0x0000 := by decide

/-- V11: syndromes 4, 11 and 14, and the codeword that sends nothing. -/
theorem test_report : see (·.rx.txout) (exec .report (withReady 3 (withSample 0x000F nib))) = some [0x34, 0x0D, 0x0A] ∧
    see (·.rx.txout) (exec .report (withReady 3 (withSample 0x0400 nib))) = some [0x42, 0x0D, 0x0A] ∧
    see (·.rx.txout) (exec .report (withReady 3 (withSample 0x0410 nib))) = some [0x45, 0x0D, 0x0A] ∧
    see (·.rx.txout) (exec .report (withReady 3 (withSample 0x0007 nib))) = some [] := by decide

/-- V11, the direct REPORT before any SAMPLE. -/
theorem test_report_unwritten : see (·.rx.ctl.fault) (exec .report nib) = some (some .unwritten) := by decide

/-- V11, the RXCYCLE below the table. -/
theorem test_rxCycle : see (fun s => (s.rx.sampled, s.rx.txout)) (exec .rxCycle (withReady 3 (withPorts 0x40 0x00 nib))) =
    some (0x0040, [0x37, 0x0D, 0x0A]) := by decide

/-- V13, last row. -/
theorem test_reservedE : see (·.tx.ctl.fault) (exec .reservedE nib) = some (some (.refused .reservedE)) := by decide
theorem test_reservedF : see (·.rx.ctl.fault) (exec .reservedF (atRx nib)) = some (some (.refused .reservedF)) := by decide

/-- The very next step runs a placed word: REFRESH, and the digit 'A'. -/
theorem test_withFetchWord : see (fun s => s.tx.ltrace.length) (step (State.reset.withFetchWord 8 0x4)) = some 77 ∧
    see (fun s => s.tx.etrace) (step (State.reset.withFetchWord 8 0x41)) =
      some [.applied 0 10 0x200, .refreshed 0x200] := by decide

/-! ### Witnesses: the hypotheses of each statement, met together

Each theorem is named after its statement; a statement with several clauses has a part for each, at the boundary values. -/

/-- Fields of `Sound` that hold of every test state by evaluation. -/
theorem sound_of {s : State} (h1 : s.tx.cfg.failed = none) (h2 : s.rx.cfg.failed = none)
    (hv : ∀ b : BlockIdx, s.tx.v[b].toNat < 2 ^ s.tx.cfg.nAt b) (hf : s.tx.fill.val < s.tx.cfg.k)
    (hw : ∀ j : BlockIdx, j.val < s.tx.fill.val → s.tx.buf[j].written = true)
    (hs : s.tx.sr.toNat < 2 ^ s.tx.cfg.chainLen) (ho : s.tx.out.toNat < 2 ^ s.tx.cfg.chainLen)
    (hm : s.tx.ctl.inCs = true → s.tx.ctl.ie = false) (hm' : s.rx.ctl.inCs = true → s.rx.ctl.ie = false)
    (hr : s.rx.sampled = 0) (hx : s.rx.sending = []) : s.Sound where
  tx := ⟨fun q hq => (by rw [h1] at hq; cases hq), hv, fun _ => hf, hw, hs, ho, hm⟩
  rx := ⟨fun q hq => (by rw [h2] at hq; cases hq), by rw [hr]; exact Nat.two_pow_pos _, fun _ k _ => by rw [hr]; simp, hm',
    by rw [hx]; exact List.nil_suffix, fun _ => hx⟩
  held := fun h => absurd hx h

/-- A transmitter in mid-run: the state of P1 after its first byte, with a terminator in the slot. -/
def shown : State :=
  let s := withSlot 0x0D (withV 0x0810 nib)
  { s with
    tx := { s.tx with
      latchL := true, sr := 0x0810, out := 0x0810
      etrace := [.applied 0 5 0x10, .refreshed 0x10, .applied 0 9 0x800, .refreshed 0x810] }
    schedule := [.request .tx 0x5#80] }

theorem ready_nib : nib.tx.Ready ∧ nib.rx.Ready := ⟨⟨by decide, by decide, by decide⟩, ⟨by decide, by decide, by decide, by decide⟩⟩
theorem ready_shown : shown.tx.Ready := ⟨by decide, by decide, by decide⟩
theorem ready_half (p : RefreshPolicy) (r : Bool) : (hexHalf p r).tx.Ready := by
  cases p <;> cases r <;> exact ⟨by decide, by decide, by decide⟩

theorem sound_nib : nib.Sound := by apply sound_of <;> decide
theorem sound_shown : shown.Sound := by apply sound_of <;> decide
theorem sound_hex : (hex .perDigit false).Sound := by apply sound_of <;> decide
theorem sound_half : (hexHalf .perBatch false).Sound := by apply sound_of <;> decide

theorem witness_DecodeEncodeAgree : (Instr.apply 3 0xFF#8).WellFormed ∧ (Instr.syn 1#64 3#3).WellFormed ∧
    (Instr.mincorr 0xFF#8 6#3).WellFormed ∧ (Instr.nibData 0xF 0xF).WellFormed ∧ (Instr.hexDiscard 0xFF#8).WellFormed := by decide

theorem witness_EveryCodeHasOneMeaning : decode (.record 0x3FC0002#80) = .error .unusedBits ∧
    decode (.record 0x3FF02#80) = .ok (.apply 3 0xFF#8) ∧ decode (.byte .hexblock 0x39#8) = .ok (.hexDig09 9) := by decide

theorem witness_NibbleClassesOfAByte : decodeByte .nibble 0x0D#8 = .nibTerm .cr ∧ decodeByte .nibble 0x0A#8 = .nibTerm .lf ∧
    decodeByte .nibble 0x0C#8 = .nibData 0x0 0xC ∧ decodeByte .nibble 0xFF#8 = .nibData 0xF 0xF := by decide

theorem witness_HexblockClassesOfAByte :
    decodeByte .hexblock 0x30#8 = .hexDig09 0 ∧ decodeByte .hexblock 0x39#8 = .hexDig09 9 ∧
    decodeByte .hexblock 0x41#8 = .hexDiguc 0 ∧ decodeByte .hexblock 0x46#8 = .hexDiguc 5 ∧
    decodeByte .hexblock 0x61#8 = .hexDiglc 0 ∧ decodeByte .hexblock 0x66#8 = .hexDiglc 5 ∧
    decodeByte .hexblock 0x2F#8 = .hexDiscard 0x2F#8 ∧ decodeByte .hexblock 0x3A#8 = .hexDiscard 0x3A#8 ∧
    decodeByte .hexblock 0x40#8 = .hexDiscard 0x40#8 ∧ decodeByte .hexblock 0x47#8 = .hexDiscard 0x47#8 ∧
    decodeByte .hexblock 0x60#8 = .hexDiscard 0x60#8 ∧ decodeByte .hexblock 0x67#8 = .hexDiscard 0x67#8 := by decide

theorem witness_StepRunsTheScheduledRequest :
    shown.schedule = [.request .tx 0x5#80] ∧ decode (.record 0x5#80) = .ok .poll ∧
    decode (.record 0x15#80) = .error .unusedBits ∧ (withTurns [.transmitReady] nib).schedule = [.transmitReady] ∧
    nib.schedule = [] := by decide

theorem witness_SynIsTheMatrixProduct : legalWidth 3 = true ∧ legalWidth 6 = true ∧ legalWidth 2 = false ∧ legalWidth 7 = false := by
  decide
theorem witness_SynIsLinear : legalWidth 4 = true ∧ syn (0x5 ^^^ 0x3) 4 = 1 := by decide
theorem witness_CorrectionHasItsTarget : legalWidth 4 = true ∧ (syn (mincorr 0x1B 4) 4).toNat = 11 := by decide
theorem witness_CorrectionIsUniqueMinimal : legalWidth 6 = true ∧ (63#8).toNat < 2 ^ 6 ∧ (0#8).toNat < 2 ^ 6 ∧
    (1#64 <<< 62).toNat < 2 ^ (2 ^ 6 - 1) ∧ syn (1#64 <<< 62) 6 = 63#8 ∧
    weight (1#64 <<< 62) ≤ weight (mincorr 63 6) := by decide

theorem witness_SynRequestAnswers : nib.siteEnabled = true ∧ nib.site = .tx ∧ (atRx nib).siteEnabled = true ∧
    (atRx nib).site = .rx ∧ legalWidth (6#3).toNat = true ∧ legalWidth (7#3).toNat = false := by decide
theorem witness_MincorrRequestAnswers : nib.siteEnabled = true ∧ nib.site = .tx ∧ (atRx nib).siteEnabled = true ∧
    (atRx nib).site = .rx ∧ legalWidth (3#3).toNat = true ∧ legalWidth (2#3).toNat = false := by decide

theorem witness_ApplyNextState : nib.tx.ctl.fault = none ∧ nib.tx.cfg.k ≤ (1 : BlockIdx).val ∧
    (0 : BlockIdx).val < nib.tx.cfg.k ∧ nib.tx.ctl.inCs = false ∧
    (inside nib).tx.ctl.fault = none ∧ (inside nib).tx.ctl.inCs = true := by decide
theorem witness_ApplyReachesTheTarget : shown.tx.Ready ∧ (0 : BlockIdx).val < shown.tx.cfg.k := ⟨ready_shown, by decide⟩
theorem witness_ApplyFlipsAtMostOneWire : shown.tx.Ready ∧ shown.tx.Sound ∧ (0 : BlockIdx).val < shown.tx.cfg.k :=
  ⟨ready_shown, sound_shown.tx, by decide⟩
theorem witness_ApplyTwiceIsApplyOnce : shown.tx.Ready ∧ (0 : BlockIdx).val < shown.tx.cfg.k := ⟨ready_shown, by decide⟩

theorem witness_ApplyBatchAppliesEveryBlock : (hexFull .perBlockApply).tx.Ready ∧
    ∀ b : BlockIdx, b.val < (hexFull .perBlockApply).tx.cfg.k → (hexFull .perBlockApply).tx.buf[b].written = true :=
  ⟨⟨by decide, by decide, by decide⟩, by decide⟩
theorem witness_ApplyBatchOfUnwrittenBufferFaults : (hexHalf .perBlockApply false).tx.ctl.fault = none ∧
    (hexHalf .perBlockApply false).tx.ctl.inCs = false ∧ (1 : BlockIdx).val < (hexHalf .perBlockApply false).tx.cfg.k ∧
    (hexHalf .perBlockApply false).tx.buf[1].written = false ∧
    (∀ b' : BlockIdx, b'.val < (1 : BlockIdx).val → (hexHalf .perBlockApply false).tx.buf[b'].written = true) ∧
    (inside (hex .perBatch false)).tx.ctl.fault = none ∧ (0 : BlockIdx).val < (inside (hex .perBatch false)).tx.cfg.k ∧
    (inside (hex .perBatch false)).tx.buf[0].written = false := by decide
theorem witness_AggregatePlacesEveryBlock : (hex .perDigit false).tx.cfg.WellFormed ∧ (hex .perDigit false).tx.Sound ∧
    (1 : BlockIdx).val < (hex .perDigit false).tx.cfg.k ∧ 14 < (hex .perDigit false).tx.cfg.nAt 1 ∧
    (hex .perDigit false).tx.cfg.nsum ≤ 30 := ⟨by decide, sound_hex.tx, by decide, by decide, by decide⟩

theorem witness_RefreshTraceShape : 0 < cfgNib.totalBits ∧ 14 < cfgNib.totalBits := by decide
theorem witness_RefreshNextState : nib.tx.ctl.fault = none ∧ nib.tx.ctl.inCs = false ∧ nib.tx.cfg.WellFormed ∧
    (inside nib).tx.ctl.fault = none ∧ (inside nib).tx.ctl.inCs = true := by decide
theorem witness_OutputsShowTheLastRefresh : shown.Sound ∧ shown.tx.BusShown ∧ ∃ t, step shown = .next t := by
  refine ⟨sound_shown, ?_, _, rfl⟩
  intro a ha
  have : a = 0x810 := by
    have h : lastRefreshed shown.tx.etrace = some 0x810 := by decide
    rw [h] at ha
    exact (Option.some.inj ha).symm
  subst this
  exact ⟨by decide, by decide, by decide, by decide⟩

theorem witness_PollFeedsTheSlotByte : shown.tx.slotFull = true ∧ shown.tx.Ready ∧ shown.tx.Sound ∧ nib.tx.slotFull = false :=
  ⟨by decide, ready_shown, sound_shown.tx, by decide⟩
theorem witness_DataByteIsTwoAppliesAndRefreshes : shown.tx.Ready ∧ shown.tx.cfg.policy = .nibble := ⟨ready_shown, by decide⟩
theorem witness_TerminatorsOnlySetBatch : nib.tx.ctl.fault = none ∧ nib.tx.cfg.policy = .nibble ∧
    (hexHalf .perBatch false).tx.ctl.fault = none ∧ (hexHalf .perBatch false).tx.cfg.policy = .hexblock ∧
    (hexHalf .perBatch false).tx.cfg.termResetsFill = false ∧ (hexHalf .perBatch true).tx.ctl.fault = none ∧
    (hexHalf .perBatch true).tx.cfg.termResetsFill = true := by decide
theorem witness_DigitOfAnOpenBatch : (Instr.hexDiglc 5).digit = some 15#4 ∧ (hex .perDigit false).tx.Ready ∧
    (hex .perDigit false).tx.cfg.policy = .hexblock ∧ (hex .perDigit false).tx.fill.val + 1 < (hex .perDigit false).tx.cfg.k :=
  ⟨by decide, ⟨by decide, by decide, by decide⟩, by decide, by decide⟩
theorem witness_DigitThatCompletesABatch : (Instr.hexDig09 9).digit = some 9#4 ∧ (hexHalf .perBatch false).tx.Ready ∧
    (hexHalf .perBatch false).tx.Sound ∧ (hexHalf .perBatch false).tx.cfg.policy = .hexblock ∧
    (hexHalf .perBatch false).tx.fill.val + 1 = (hexHalf .perBatch false).tx.cfg.k :=
  ⟨by decide, ready_half _ _, sound_half.tx, by decide, by decide⟩
theorem witness_DiscardedByteHasNoEffect : (withSlot 0x78 (hex .perBatch false)).tx.cfg.policy = .hexblock ∧
    (withSlot 0x78 (hex .perBatch false)).tx.ctl.fault = none ∧ (withSlot 0x78 (hex .perBatch false)).tx.slotFull = true ∧
    isTerminator 0x78#8 = false ∧ isHexDigit 0x78#8 = false := by decide
theorem witness_InputClassNeedsItsPolicy : nib.tx.cfg.policy ≠ (InputClass.hexDig09 0).policy ∧
    (hex .perBatch false).tx.cfg.policy ≠ (InputClass.nibTerm .cr).policy := by decide
theorem witness_RefreshesPerInputByte : shown.tx.Ready ∧ shown.tx.Sound ∧ shown.tx.slotFull = true :=
  ⟨ready_shown, sound_shown.tx, by decide⟩
theorem witness_AckBatchClearsBatch : nib.tx.ctl.fault = none := by decide

theorem witness_EnterMasksInterrupts : nib.siteEnabled = true ∧ nib.site = .tx ∧ nib.tx.ctl.inCs = false ∧
    (inside nib).siteEnabled = true ∧ (inside nib).tx.ctl.inCs = true ∧ (atRx nib).siteEnabled = true ∧ (atRx nib).site = .rx ∧
    (atRx nib).rx.ctl.inCs = false ∧ (atRx (inside nib)).siteEnabled = true ∧ (atRx (inside nib)).rx.ctl.inCs = true := by decide
theorem witness_ExitRestoresInterrupts : (inside nib).siteEnabled = true ∧ (inside nib).site = .tx ∧
    (inside nib).tx.ctl.inCs = true ∧ nib.siteEnabled = true ∧ nib.tx.ctl.inCs = false ∧ (atRx (inside nib)).siteEnabled = true ∧
    (atRx (inside nib)).site = .rx ∧ (atRx (inside nib)).rx.ctl.inCs = true ∧ (atRx nib).siteEnabled = true ∧
    (atRx nib).rx.ctl.inCs = false := by decide
theorem witness_ArrivalKeepsOneByte : nib.tx.ctl.fault = none ∧ nib.tx.uartPend = false ∧ (withUart 0x41 nib).tx.ctl.fault = none ∧
    (withUart 0x41 nib).tx.uartPend = true ∧ (withUart 0x41 nib).env.overrun = [] ∧
    (⟨[], [], [true, false], 0⟩ : Env).overrun = true :: [false] ∧ (⟨[], [], [false], 0⟩ : Env).overrun = false :: [] := by decide
theorem witness_InterruptMovesThePendingByte : (withUart 0x41 nib).tx.ctl.fault = none ∧ (withUart 0x41 nib).tx.uartPend = true ∧
    (withUart 0x41 nib).tx.ctl.ie = true ∧ (withUart 0x41 nib).tx.slotFull = false ∧
    (withUart 0x41 (withSlot 0x35 nib)).tx.slotFull = true ∧ (withUart 0x41 (withSlot 0x35 nib)).env.overrun = [] ∧
    (inside nib).tx.ctl.ie = false ∧ nib.tx.uartPend = false := by decide

theorem witness_OpenSectionRaisesNest :
    (inside (hexFull .perBatch)).tx.ctl.fault = none ∧ (inside (hexFull .perBatch)).tx.ctl.inCs = true ∧
    1 ≤ (inside (hexFull .perBatch)).tx.cfg.k ∧ (inside (hexFull .perBatch)).tx.buf[0].written = true ∧
    (inside (withSlot 0x59 nib)).tx.ctl.fault = none ∧ (inside (withSlot 0x59 nib)).tx.ctl.inCs = true ∧
    (inside (withSlot 0x59 nib)).tx.cfg.policy = .nibble ∧ 1 ≤ (inside (withSlot 0x59 nib)).tx.cfg.k ∧
    (inside (withSlot 0x59 nib)).tx.slotFull = true ∧ isTerminator (inside (withSlot 0x59 nib)).tx.slotData = false ∧
    (Instr.hexDig09 9).digit = some 9#4 ∧ (inside (hex .perDigit false)).tx.cfg.policy = .hexblock ∧
    (inside (hex .perDigit false)).tx.fill.val + 1 < (inside (hex .perDigit false)).tx.cfg.k ∧
    (inside (hexHalf .perBatch false)).tx.fill.val + 1 = (inside (hexHalf .perBatch false)).tx.cfg.k ∧
    (inside (hexHalf .perBatch false)).tx.buf[0].written = true ∧
    (inside nib).rx.ctl.fault = none ∧ (inside nib).rx.ctl.inCs = true ∧ (inside nib).rx.sending = [] := by decide
theorem witness_ReservedTagsAreRefused : nib.siteEnabled = true ∧ nib.site = .tx ∧ (atRx nib).siteEnabled = true ∧
    (atRx nib).site = .rx := by decide
theorem witness_PacedSendFeedsItsByte : nib.tx.Paced ∧ nib.tx.ctl.fault = none ∧ nib.tx.ctl.ie = true :=
  ⟨⟨by decide, by decide⟩, by decide, by decide⟩
theorem witness_QuiescentTransmitterWaits : nib.tx.Quiescent := ⟨by decide, by decide, by decide⟩

theorem witness_SampleNextState : nib.rx.ctl.fault = none ∧ nib.rx.sending = [] ∧ nib.rx.ctl.inCs = false ∧
    nib.rx.cfg.WellFormed ∧ (inside nib).rx.ctl.fault = none ∧ (inside nib).rx.sending = [] ∧ (inside nib).rx.ctl.inCs = true ∧
    nib.rx.cfg.pinOf 0 = some ⟨.a, 0⟩ ∧ nib.rx.cfg.pinOf 10 = some ⟨.b, 2⟩ ∧ nib.rx.cfg.pinOf 11 = none := by decide
theorem witness_PortReadsTakeListedAnswers : (withPorts 1 2 nib).rx.cfg.usesPort .a = true ∧ (withPorts 1 2 nib).env.portA = [drivenPins 1] ∧
    (withPorts 1 2 nib).rx.cfg.usesPort .b = true ∧ (withPorts 1 2 nib).env.portB = [drivenPins 2] ∧
    (⟨3, defaultPinMap 3 0 1 2, .activeLow⟩ : CfgRx).usesPort .b = false := by decide

theorem witness_FloatingPinReadsAsHigh : (withPins lowNibble floatingPins nib).rx.Ready ∧
    (withPins lowNibble floatingPins nib).env.portA = [lowNibble] ∧ (withPins lowNibble floatingPins nib).env.portB = [floatingPins] ∧
    nib.rx.cfg.pinOf 3 = some ⟨.a, 3⟩ ∧ lowNibble[3] = .low ∧ nib.rx.cfg.pinOf 4 = some ⟨.a, 4⟩ ∧ lowNibble[4] = .floating ∧
    nib.rx.cfg.polRx = .activeHigh ∧ (hex .perBatch false).rx.cfg.polRx = .activeLow :=
  ⟨⟨by decide, by decide, by decide, by decide⟩, rfl, rfl, by decide, rfl, by decide, rfl, rfl, rfl⟩

/-- Two environments that differ on port B pins 3 to 7 only, which the default map does not name. -/
theorem witness_UnmappedPinsHaveNoInfluence :
    nib.rx.Ready ∧ (⟨[drivenPins 0x40], [drivenPins 0xF8], [], 0⟩ : Env) ≠ ⟨[drivenPins 0x40], [drivenPins 0x00], [], 0⟩ ∧
    (∀ k q, nib.rx.cfg.pinOf k = some ⟨.a, q⟩ →
      (({ nib with env := ⟨[drivenPins 0x40], [drivenPins 0xF8], [], 0⟩ } : State).portByte .a).getLsbD q.val =
        (({ nib with env := ⟨[drivenPins 0x40], [drivenPins 0x00], [], 0⟩ } : State).portByte .a).getLsbD q.val) ∧
    (∀ k q, nib.rx.cfg.pinOf k = some ⟨.b, q⟩ →
      ((({ nib with env := ⟨[drivenPins 0x40], [drivenPins 0xF8], [], 0⟩ } : State).readPort .a).portByte .b).getLsbD q.val =
        ((({ nib with env := ⟨[drivenPins 0x40], [drivenPins 0x00], [], 0⟩ } : State).readPort .a).portByte .b).getLsbD q.val) := by
  refine ⟨ready_nib.2, by decide, fun _ _ _ => rfl, ?_⟩
  intro k q h
  have hq : ∀ e ∈ nib.rx.cfg.pinMap, e.2.port = .b → e.2.pin.val < 3 := by decide
  have hm : (k, (⟨.b, q⟩ : PinRef)) ∈ nib.rx.cfg.pinMap := CfgRx.mem_pinMap h
  have h3 := hq _ hm rfl
  simp only at h3
  revert h3
  clear hm h
  revert q
  decide

/-- A receiver held in the middle of a report. -/
def held : State :=
  let s := withTurns [.transmitReady, .transmitReady] (atRx (withSample 0x400 nib))
  { s with rx := { s.rx with txout := [0x42], sending := [0x0D, 0x0A] } }

theorem witness_ReportNextState : nib.rx.ctl.fault = none ∧ nib.rx.sending = [] ∧ nib.rx.sampledValid = false ∧
    (withSample 0x7 nib).rx.sampledValid = true ∧ syn (withSample 0x7 nib).rx.sampled (withSample 0x7 nib).rx.cfg.rRx = 0 ∧
    syn (withSample 0x400 nib).rx.sampled (withSample 0x400 nib).rx.cfg.rRx ≠ 0 := by decide
theorem witness_HeldReportIsFinishedByTransmitReady : held.rx.ctl.fault = none ∧ held.rx.sending = 0x0D :: [0x0A] ∧
    held.hostOut = 0 ∧ held.schedule = .transmitReady :: [.transmitReady] ∧ Instr.sample.owner = some .rx ∧
    Instr.csEnter.owner = none ∧ held.site = .rx ∧
    (withSample 0x400 nib).rx.ctl.fault = none ∧
    (withSample 0x400 nib).rx.sending = [] ∧ (withSample 0x400 nib).rx.sampledValid = true ∧
    (withSample 0x400 nib).rx.syndrome ≠ 0 ∧ (withSample 0x400 nib).hostOut = 0 := by decide
theorem witness_ReceiverCycleIsSampleThenReport : nib.rx.Ready := ready_nib.2

/-- A wide receiver with the transmitter's polarity. -/
def wide : State := withReady 3 { nib with rx := RxNode.resetWith cfgWide ResetDraws.zero }

theorem witness_RoundTripReportsTheLowNibble : wide.tx.Ready ∧ wide.tx.cfg.policy = .nibble ∧ wide.tx.cfg.totalBits = 15 ∧
    wide.rx.Ready ∧ wide.rx.cfg.rRx = 4 ∧ wide.rx.cfg.polRx = wide.tx.cfg.drvPol ∧
    (∀ k : Fin 8, wide.rx.cfg.pinOf k.val = some ⟨.a, k⟩) ∧
    (∀ k : Fin 7, wide.rx.cfg.pinOf (8 + k.val) = some ⟨.b, k.castSucc⟩) ∧ 3 ≤ wide.hostOut :=
  ⟨⟨by decide, by decide, by decide⟩, by decide, by decide, ⟨by decide, by decide, by decide, by decide⟩, by decide, by decide,
    by decide, by decide, by decide⟩

theorem witness_ConfigurationIsFixed : ∃ t, step shown = .next t := ⟨_, rfl⟩

/-- A transmitter that has faulted, and a receiver that has, with a request scheduled for each. -/
def faulted : State :=
  withTurns [.request .tx 0x5#80, .request .rx 0xD#80]
    { nib with tx := nib.tx.raise .nest, rx := nib.rx.raise .unwritten }

theorem witness_FaultedNodeStaysAsItIs : (∃ t, step faulted = .next t) ∧ faulted.tx.ctl.fault ≠ none ∧
    faulted.rx.ctl.fault ≠ none := ⟨⟨_, rfl⟩, by decide, by decide⟩
theorem witness_IllFormedNodeNeverSteps : ¬ ({ cfgNib with k := 5 } : CfgTx).WellFormed ∧
    ¬ (⟨5, [], .activeLow⟩ : CfgRx).WellFormed ∧
    ∃ t, core.run 1 { State.resetWith { cfgNib with k := 5 } ⟨5, [], .activeLow⟩ ResetDraws.zero with
      schedule := [.request .tx 0x4#80], hostOut := 0, env := ⟨[], [], [], 0⟩ } = .next t := ⟨by decide, by decide, _, rfl⟩
theorem witness_TracesOnlyGrow : ∃ t, step shown = .next t := ⟨_, rfl⟩

theorem witness_OnlyApplyChangesTheVector : nib.Sound ∧ ∃ t, exec (.apply 0 5) nib = .next t ∧ t.tx.v[0] ≠ nib.tx.v[0] :=
  ⟨sound_nib, _, rfl, by decide⟩
theorem witness_TraceTellsTheHistory : shown.Sound ∧ shown.tx.History ∧ ∃ t, step shown = .next t :=
  ⟨sound_shown, by unfold TxNode.History; decide, _, rfl⟩
theorem witness_EveryStepKeepsTheShape : shown.Sound ∧ ∃ t, step shown = .next t := ⟨sound_shown, _, rfl⟩

/-- A run of agent steps with a byte in the slot. -/
theorem witness_AgentRunsNeverFault : shown.AgentRun :=
  ⟨sound_shown, ⟨by decide, by decide⟩, by decide, by decide, by decide⟩
theorem witness_ResetStartsAnAgentRun : cfgNib.WellFormed ∧ (cfgRx .activeLow).WellFormed ∧
    ∀ u ∈ [Turn.request .tx 0x5909#80, .request .tx 0xA#80, .request .rx 0xD#80, .transmitReady], u.isAgentTurn = true := by decide
theorem witness_NodesShareNothing : (∃ t, exec (.apply 0 5) nib = .next t) ∧ (Instr.apply 0 5).owner = some .tx ∧
    (∃ t, exec .rxCycle nib = .next t) ∧ Instr.rxCycle.owner = some .rx := ⟨⟨_, rfl⟩, rfl, ⟨_, rfl⟩, rfl⟩

end Sys2Proof.Tests
end

section
/-! Proofs: the encoding family (30_encoding.md). -/

namespace Sys2Proof

/-! ### The classes of an input byte under NIBBLE (30_encoding.md R65) -/

@[simp] theorem decodeByte_nibble_cr : decodeByte .nibble 0x0D#8 = .nibTerm .cr := rfl

@[simp] theorem decodeByte_nibble_lf : decodeByte .nibble 0x0A#8 = .nibTerm .lf := rfl

theorem decodeByte_nibble_data {c : Byte} (hcr : c ≠ 0x0D#8) (hlf : c ≠ 0x0A#8) :
    decodeByte .nibble c = .nibData (c.extractLsb' 4 4) (c.extractLsb' 0 4) := by
  simp [decodeByte, decodeNibble, hcr, hlf]

theorem toNat_highNibble (c : Byte) : (c.extractLsb' 4 4).toNat = c.toNat / 16 := by
  have hc : c.toNat < 256 := c.isLt
  rw [BitVec.extractLsb'_toNat, Nat.shiftRight_eq_div_pow]
  omega

theorem toNat_lowNibble (c : Byte) : (c.extractLsb' 0 4).toNat = c.toNat % 16 := by
  rw [BitVec.extractLsb'_toNat, Nat.shiftRight_zero]

/-- Settles O4: each terminator decodes by evaluation, and any other byte is split into its nibbles. -/
theorem nibbleClassesOfAByte : Obligations.NibbleClassesOfAByte := by
  intro c
  refine ⟨?cr, ?lf, ?data⟩
  case cr => rintro rfl; exact decodeByte_nibble_cr
  case lf => rintro rfl; exact decodeByte_nibble_lf
  case data =>
    intro hcr hlf
    exact ⟨_, _, decodeByte_nibble_data hcr hlf, toNat_highNibble c, toNat_lowNibble c⟩

end Sys2Proof
end

section
/-! Proofs: the codec family (41_codec.md). -/

namespace Sys2Proof

open Machine

/-- Settles O8: the law holds on every pair of containers, so at every legal width. -/
theorem synIsLinear : Obligations.SynIsLinear := fun a b r _ => syn_linear a b r

/-! ### Corrections are the single-bit vectors of a block (41_codec.md R87) -/

theorem legalWidth_le_six {r : Nat} (h : legalWidth r = true) : r ≤ 6 := by
  rw [legalWidth_iff] at h
  omega

theorem two_pow_le_of_le_six {r : Nat} (hr : r ≤ 6) : 2 ^ r ≤ 64 :=
  Nat.pow_le_pow_right (by omega) hr

/-- The correction of a nonzero target of the block has its one bit in the column the target numbers. -/
theorem mincorr_of_ne_zero {t : Byte} {r : Nat} (ht : t.toNat < 2 ^ r) (h0 : t ≠ 0) :
    mincorr t r = 1#64 <<< (t.toNat - 1) := by
  have hne : t.toNat ≠ 0 := by bv_omega
  rw [mincorr, maskLow_of_lt ht, correctionVector, if_neg hne]

theorem weight_mincorr {t : Byte} {r : Nat} (hr : r ≤ 6) (ht : t.toNat < 2 ^ r) :
    weight (mincorr t r) = if t = 0 then 0 else 1 := by
  have h64 := two_pow_le_of_le_six hr
  split
  · next h => subst h; rw [BitVec.ofNat_eq_ofNat, mincorr_zero]; decide
  · next h => rw [mincorr_of_ne_zero ht h, weight_single _ (by omega)]

/-- Among the single-bit vectors of the block, a syndrome names its column. -/
theorem syn_single_eq_iff {k r : Nat} (hr : r ≤ 6) (hk : k < 2 ^ r - 1) (t : Byte) :
    syn (1#64 <<< k) r = t ↔ t.toNat = k + 1 := by
  have h64 := two_pow_le_of_le_six hr
  rw [syn_single k r hr hk]
  bv_omega

theorem lt_of_single_lt {k n : Nat} (hk : k < 64) (h : (1#64 <<< k).toNat < 2 ^ n) : k < n := by
  by_contra hn
  have hbit := (toNat_lt_iff_getLsbD _).mp h k (by omega)
  simp [hk] at hbit

/-- MINCORR undoes SYN on the vectors of the block of weight at most 1. -/
theorem mincorr_syn_of_weight_le_one {u : Word} {r : Nat} (hr : r ≤ 6) (hu : u.toNat < 2 ^ (2 ^ r - 1))
    (hw : weight u ≤ 1) : mincorr (syn u r) r = u := by
  rcases weight_le_one u hw with rfl | ⟨k, hk64, rfl⟩
  · rw [BitVec.ofNat_eq_ofNat, syn_zero, mincorr_zero]
  · have hcol := (syn_single_eq_iff hr (lt_of_single_lt hk64 hu) _).mp rfl
    have h0 : syn (1#64 <<< k) r ≠ 0 := fun h => by simp [h] at hcol
    rw [mincorr_of_ne_zero (syn_lt _ r) h0, hcol, Nat.add_sub_cancel]

/-- Settles O10: a vector no heavier than the correction has weight at most 1, and there MINCORR undoes SYN; the one single-bit
vector of a nonzero syndrome is the column that the syndrome numbers. -/
theorem correctionIsUniqueMinimal : Obligations.CorrectionIsUniqueMinimal := by
  intro t r hlegal ht
  have hr := legalWidth_le_six hlegal
  have hweight := weight_mincorr hr ht
  refine ⟨hweight, ?unique, ?column⟩
  case unique =>
    rintro u hu rfl hle
    have hw : weight u ≤ 1 := by
      rw [hweight] at hle
      split at hle <;> omega
    exact (mincorr_syn_of_weight_le_one hr hu hw).symm
  case column =>
    intro h0
    have hpos : t.toNat ≠ 0 := by bv_omega
    simp only [BitVec.twoPow_eq]
    refine ⟨t.toNat - 1, by omega, (syn_single_eq_iff hr (by omega) t).mpr (by omega), ?_⟩
    intro m hm hsyn
    have := (syn_single_eq_iff hr hm t).mp hsyn
    omega

end Sys2Proof
end

section
/-! Proofs: the encoder family (42_encoder.md). -/

namespace Sys2Proof

open Machine

/-! ### APPLY as a request (42_encoder.md R90, R96) -/

theorem exec_apply_of_noFault {s : State} (h : s.tx.ctl.fault = none) (b : BlockIdx) (d : Byte) :
    exec (.apply b d) s = .next { s with tx := s.tx.apply b d } := by
  rw [exec, execApply, State.onTx_runs _ h]

/-- Settles O13: each clause is one of the three things APPLY can do. -/
theorem applyNextState : Obligations.ApplyNextState := by
  intro s b d hfault
  rw [exec_apply_of_noFault hfault]
  refine ⟨?block, ?nested, ?runs⟩
  case block =>
    intro hk
    rw [TxNode.apply_block d hk]
    rfl
  case nested =>
    intro hk hin
    rw [TxNode.apply_nested d hk hin]
    rfl
  case runs =>
    intro hk hout
    rw [TxNode.apply_runs d hk ⟨hfault, hout⟩]
    rfl

theorem width_le_six {c : CfgTx} (h : c.WellFormed) {b : BlockIdx} (hb : b.val < c.k) : c.rAt b ≤ 6 :=
  rAt_le_six (h.width hb)

theorem applied_v_same (t : TxNode) (b : BlockIdx) (d : Byte) : (t.applied b d).v[b] = t.flipped b d := by
  rw [TxNode.applied_v, if_pos rfl]

/-- After APPLY the target difference of the same target is 0. -/
theorem target_xor_syn_applied {t : TxNode} {b : BlockIdx} (d : Byte) (hr : t.cfg.rAt b ≤ 6) :
    t.target b d ^^^ syn (t.applied b d).v[b] (t.cfg.rAt b) = 0 := by
  rw [applied_v_same, TxNode.syn_flipped d hr]
  exact BitVec.xor_self

theorem correction_applied_same {t : TxNode} {b : BlockIdx} (d : Byte) (hr : t.cfg.rAt b ≤ 6) :
    (t.applied b d).correction b d = 0 := by
  change mincorr (t.target b d ^^^ syn (t.applied b d).v[b] (t.cfg.rAt b)) (t.cfg.rAt b) = 0
  rw [target_xor_syn_applied d hr]
  exact mincorr_zero _

/-- A correction of 0 leaves a vector that fits its block as it is. -/
theorem applied_v_of_correction_zero {t : TxNode} {b : BlockIdx} {d : Byte} (hfits : t.v[b].toNat < 2 ^ t.cfg.nAt b)
    (hw : t.correction b d = 0) : (t.applied b d).v = t.v := by
  have hflip : t.flipped b d = t.v[b] := by
    rw [TxNode.flipped, hw]
    simpa using maskLow_of_lt hfits
  change t.v.set b (t.flipped b d) = t.v
  rw [hflip]
  exact Vector.set_getElem_self _

/-- Settles O16: the syndrome after the first APPLY is the target itself, so the second computes the correction 0. -/
theorem applyTwiceIsApplyOnce : Obligations.ApplyTwiceIsApplyOnce := by
  intro s b d hready hb
  have hr := width_le_six hready.wellFormed hb
  have hw := correction_applied_same d hr
  have hfits : (s.tx.applied b d).v[b].toNat < 2 ^ s.tx.cfg.nAt b := by
    rw [applied_v_same]
    exact s.tx.flipped_lt b d
  have hready' := (s.tx.applied_driven b d).ready hready
  refine ⟨_, _, exec_apply hready b d hb, exec_apply hready' b d hb, target_xor_syn_applied d hr, ?_,
    applied_v_of_correction_zero hfits hw⟩
  rw [TxNode.applied_etrace, hw]
  rfl

/-! ### What is recorded of a block, and what changes its vector (42_encoder.md R91) -/

theorem weight_mincorr_le_one {r : Nat} (hr : r ≤ 6) (t : Byte) : weight (mincorr t r) ≤ 1 := by
  have hmask : mincorr t r = mincorr (maskLow r t) r := by rw [mincorr, mincorr, maskLow_maskLow]
  rw [hmask, weight_mincorr hr (maskLow_toNat_lt r t)]
  split <;> omega

/-- Without a record of the block there is no correction to replay. -/
theorem replay_eq_zero {b : BlockIdx} {es : List TxEvent} (h : ∀ d w, TxEvent.applied b d w ∉ es) : replay b es = 0 := by
  induction es using List.reverseRecOn with
  | nil => rfl
  | append_singleton es e ih =>
    have hes : replay b es = 0 := ih fun d w hmem => h d w (List.mem_append_left _ hmem)
    rw [replay_snoc, hes]
    cases e with
    | batchComplete => rfl
    | refreshed a => rfl
    | applied b' d w =>
      have hne : b' ≠ b := by
        rintro rfl
        exact h d w (by simp)
      exact if_neg hne

/-- The APPLYs recorded since `t₀` account for V[b]: the change is the XOR of their corrections, each of weight at most 1. -/
def EditsSince (t₀ : TxNode) (b : BlockIdx) (u : TxNode) : Prop :=
  ∃ new, u.etrace = t₀.etrace ++ new ∧ u.v[b] = t₀.v[b] ^^^ replay b new ∧
    ∀ d w, TxEvent.applied b d w ∈ new → weight w ≤ 1

theorem EditsSince.refl (t : TxNode) (b : BlockIdx) : EditsSince t b t := ⟨[], by simp, by simp [replay], by simp⟩

/-- One more event, with V[b] changed as that event tells. -/
theorem EditsSince.snoc {t₀ t u : TxNode} {b : BlockIdx} {e : TxEvent} (h : EditsSince t₀ b t)
    (htrace : u.etrace = t.etrace ++ [e]) (hv : ∀ x, t.v[b] = t₀.v[b] ^^^ x → u.v[b] = t₀.v[b] ^^^ e.replayed b x)
    (hweight : ∀ d w, e = .applied b d w → weight w ≤ 1) : EditsSince t₀ b u := by
  obtain ⟨new, hnew, hvec, hmin⟩ := h
  refine ⟨new ++ [e], ?_, ?_, ?_⟩
  · rw [htrace, hnew, List.append_assoc]
  · rw [replay_snoc]
    exact hv _ hvec
  · intro d w hmem
    rcases List.mem_append.mp hmem with hold | hlast
    · exact hmin d w hold
    · exact hweight d w (List.mem_singleton.mp hlast).symm

/-- The invariant of the parts of a step from `t₀`: V[b] fits its block, which makes APPLY's mask idle, and its edits are recorded. -/
structure EditedFrom (t₀ : TxNode) (b : BlockIdx) (u : TxNode) : Prop where
  wellFormed : u.ctl.fault = none → u.cfg.WellFormed
  fits       : u.v[b].toNat < 2 ^ u.cfg.nAt b
  edits      : EditsSince t₀ b u

theorem EditedFrom.refl {t : TxNode} (h : t.Sound) (b : BlockIdx) : EditedFrom t b t where
  wellFormed hfault := Option.eq_none_iff_forall_ne_some.mpr fun q hq => by
    have := h.checked q hq
    rw [hfault] at this
    cases this
  fits := h.vector b
  edits := .refl t b

/-- A part that keeps the configuration and V, and whose event is recorded, keeps the invariant. -/
theorem EditedFrom.of_same {t₀ t u : TxNode} {b : BlockIdx} (h : EditedFrom t₀ b t) (hfault : t.ctl.fault = none)
    (hcfg : u.cfg = t.cfg) (hv : u.v = t.v) (hedits : EditsSince t₀ b u) : EditedFrom t₀ b u where
  wellFormed _ := hcfg ▸ h.wellFormed hfault
  fits := by rw [hcfg, hv]; exact h.fits
  edits := hedits

/-- APPLY to a block whose vector fits XORs the correction that it records; to another block it records none for `b`. -/
theorem EditedFrom.applied {t₀ t : TxNode} {b b' : BlockIdx} (h : EditedFrom t₀ b t) (d : Byte)
    (hb' : b'.val < t.cfg.k) (hc : t.ctl.Calm) : EditedFrom t₀ b (t.applied b' d) := by
  have hr := width_le_six (h.wellFormed hc.noFault) hb'
  refine ⟨fun _ => h.wellFormed hc.noFault, ?fits, h.edits.snoc (t.applied_etrace b' d) ?vector ?weight⟩
  case fits =>
    rw [TxNode.applied_v]
    split
    · next hbb => subst hbb; exact t.flipped_lt b d
    · exact h.fits
  case vector =>
    intro x hx
    rw [TxNode.applied_v, TxEvent.replayed]
    split
    · next hbb => subst hbb; rw [if_pos rfl, TxNode.flipped_eq d hr h.fits, hx, BitVec.xor_assoc]
    · next hbb => rw [if_neg (Ne.symm hbb), hx]
  case weight =>
    rintro _ _ ⟨⟩
    exact weight_mincorr_le_one hr _

/-- Every part of a step keeps the invariant: only APPLY writes V, and the other events record no APPLY. -/
theorem editedFrom_kept (t₀ : TxNode) (b : BlockIdx) : TxNode.Kept (EditedFrom t₀ b) where
  raise _ _ hf h := h.of_same hf rfl rfl h.edits
  csEnter _ hc h := h.of_same hc.noFault rfl rfl h.edits
  csExit _ hf _ h := h.of_same hf rfl rfl h.edits
  applied _ _ d hb hc h := h.applied d hb hc
  refreshed t hc h := h.of_same hc.noFault rfl rfl (h.edits.snoc t.refreshed_etrace (fun _ hx => hx) nofun)
  setBatch t hf h := h.of_same hf rfl rfl (h.edits.snoc t.setBatch_etrace (fun _ hx => hx) nofun)
  clearBatch _ hf h := h.of_same hf rfl rfl h.edits
  resetFill _ hf h := h.of_same hf rfl rfl h.edits
  openDigit _ _ hf _ h := h.of_same hf rfl rfl h.edits
  lastDigit _ _ hf _ h := h.of_same hf rfl rfl h.edits
  clearSlot _ hf h := h.of_same hf rfl rfl h.edits
  fillSlot _ _ hf h := h.of_same hf rfl rfl h.edits
  clearUart _ hf h := h.of_same hf rfl rfl h.edits
  fillUart _ _ hf h := h.of_same hf rfl rfl h.edits

/-- Settles O53: every part of a step keeps the invariant, and a change of V[b] has a record because without one the replay is 0. -/
theorem onlyApplyChangesTheVector : Obligations.OnlyApplyChangesTheVector := by
  intro s t i b hsound hexec
  obtain ⟨new, htrace, hvec, hmin⟩ := (exec_keeps_tx (editedFrom_kept s.tx b) i hexec (.refl hsound.tx b)).edits
  refine ⟨new, htrace, hvec, ?_, hmin⟩
  intro hchanged
  by_contra hnone
  push Not at hnone
  apply hchanged
  rw [hvec, replay_eq_zero hnone]
  exact BitVec.xor_zero

end Sys2Proof
end

section
/-! Proofs: the framer family (43_framer.md). -/

namespace Sys2Proof

open Machine

/-! ### Runs of requests (30_encoding.md R78) -/

theorem runAll_cons_of_next {i : Instr} {s s' : State} (is : List Instr) (h : exec i s = .next s') :
    runAll (i :: is) s = runAll is s' := by
  rw [runAll, h]

/-! ### A NIBBLE data byte (43_framer.md R104) -/

/-- The requests of one nibble, when they run: APPLY to block 0, then REFRESH. -/
theorem runAll_nibble {s : State} (h : s.tx.Ready) (x : BitVec 4) (is : List Instr) :
    runAll (.apply 0 (zext8 x) :: .refresh :: is) s =
      runAll is { s with tx := (s.tx.applied 0 (zext8 x)).refreshed } := by
  have happly := exec_apply h 0 (zext8 x) h.wellFormed.k_pos
  have hready := (s.tx.applied_driven 0 (zext8 x)).ready h
  rw [runAll_cons_of_next _ happly, runAll_cons_of_next _ (exec_refresh hready)]

theorem exec_nibData {s : State} (h : s.tx.Ready) (hp : s.tx.cfg.policy = .nibble) (hi lo : BitVec 4) :
    exec (.nibData hi lo) s =
      .next { s with tx := (((s.tx.applied 0 (zext8 hi)).refreshed).applied 0 (zext8 lo)).refreshed } := by
  rw [← TxNode.feedNibData_runs hi lo h.calm h.wellFormed.k_pos]
  exact exec_toInstr (.nibData hi lo) s h.noFault hp

theorem refreshCount_nibble (t : TxNode) (x : BitVec 4) :
    refreshCount (t.applied 0 (zext8 x)).refreshed.etrace = refreshCount t.etrace + 1 := by
  rw [TxNode.refreshed_etrace, TxNode.applied_etrace, refreshCount_append, refreshCount_append, refreshCount_applied,
    refreshCount_refreshed]

/-- A nibble fits the four check bits of block 0 whole, so it is the syndrome that its APPLY leaves. -/
theorem syn_nibble {t : TxNode} (hr : t.cfg.rAt 0 = 4) (x : BitVec 4) :
    syn (t.applied 0 (zext8 x)).refreshed.v[0] 4 = zext8 x := by
  have hfits : (zext8 x).toNat < 2 ^ 4 := by
    rw [zext8, BitVec.toNat_setWidth_of_le (by decide)]
    exact x.isLt
  calc syn (t.applied 0 (zext8 x)).v[(0 : BlockIdx)] 4
      = syn (t.flipped 0 (zext8 x)) (t.cfg.rAt 0) := by rw [applied_v_same, hr]
    _ = maskLow (t.cfg.rAt 0) (zext8 x) := TxNode.syn_flipped _ (hr.trans_le (by decide))
    _ = zext8 x := by rw [hr, maskLow_of_lt hfits]

/-- Settles O24: FEED and the four requests go through the same two nibbles; the second one leaves its syndrome, and each
refreshes once. -/
theorem dataByteIsTwoAppliesAndRefreshes : Obligations.DataByteIsTwoAppliesAndRefreshes := by
  intro s hi lo hready hp
  have hexec := exec_nibData hready hp hi lo
  have hdriven := s.tx.nibble_driven hi
  refine ⟨?run, _, hexec, ?frame, ?target, ?refreshes⟩
  case run =>
    calc exec (.nibData hi lo) s
        = .next { s with tx := _ } := hexec
      _ = runAll [.apply 0 (zext8 lo), .refresh] { s with tx := (s.tx.applied 0 (zext8 hi)).refreshed } :=
        (runAll_nibble (s := { s with tx := _ }) (hdriven.ready hready) lo []).symm
      _ = runAll [.apply 0 (zext8 hi), .refresh, .apply 0 (zext8 lo), .refresh] s := (runAll_nibble hready hi _).symm
  case frame => exact (s.tx.feedNibData_driven hi lo).state s rfl
  case target =>
    have hr := (hready.wellFormed.nibble hp).2
    exact syn_nibble (hdriven.cfg ▸ hr) lo
  case refreshes => rw [refreshCount_nibble, refreshCount_nibble]

/-! ### A discarded byte (43_framer.md R108) -/

theorem decodeByte_hexblock_discard {c : Byte} (hterm : isTerminator c = false) (hdigit : isHexDigit c = false) :
    decodeByte .hexblock c = .hexDiscard c := by
  obtain ⟨hcr, hlf⟩ : c ≠ 0x0D#8 ∧ c ≠ 0x0A#8 := by simpa [isTerminator] using hterm
  obtain ⟨h09, huc, hlc⟩ : ¬ (0x30 ≤ c.toNat ∧ c.toNat ≤ 0x39) ∧ ¬ (0x41 ≤ c.toNat ∧ c.toNat ≤ 0x46) ∧
      ¬ (0x61 ≤ c.toNat ∧ c.toNat ≤ 0x66) := by
    simp only [isHexDigit, Bool.or_eq_false_iff, Bool.and_eq_false_iff, decide_eq_false_iff_not] at hdigit
    omega
  rw [decodeByte, decodeHexblock, if_neg hcr, if_neg hlf, dif_neg h09, dif_neg huc, dif_neg hlc]

theorem exec_hexDiscard {s : State} (h : s.tx.ctl.fault = none) (hp : s.tx.cfg.policy = .hexblock) (c : Byte) :
    exec (.hexDiscard c) s = .next s := exec_toInstr (.hexDiscard c) s h hp

theorem exec_poll {s : State} (h : s.tx.ctl.fault = none) (hfull : s.tx.slotFull = true) :
    exec .poll s = .next { s with tx := TxNode.feed (decodeByte s.tx.cfg.policy s.tx.slotData) s.tx.clearSlot } := by
  rw [exec, execPoll, State.onTx_runs _ h, TxNode.poll, if_pos hfull]

/-- Settles O28: the byte's FEED is the identity, which leaves POLL with the emptied slot. -/
theorem discardedByteHasNoEffect : Obligations.DiscardedByteHasNoEffect := by
  intro s c hp hfault
  refine ⟨exec_hexDiscard hfault hp c, ?poll⟩
  case poll =>
    intro hfull hterm hdigit
    rw [exec_poll hfault hfull, hp, decodeByte_hexblock_discard hterm hdigit]
    rfl

end Sys2Proof
end

section
/-! Proofs: the sampler family (45_sampler.md). -/

namespace Sys2Proof

open Machine

/-! ### The observed vector depends on the mapped pins alone (45_sampler.md R127) -/

/-- Two bytes agree on every pin of the port `p` that PIN_MAP names. -/
def MappedPinsAgree (c : CfgRx) (p : Port) (x x' : Byte) : Prop :=
  ∀ k q, c.pinOf k = some ⟨p, q⟩ → x.getLsbD q.val = x'.getLsbD q.val

theorem observedBit_unmapped {c : CfgRx} {k : Nat} (h : c.pinOf k = none) (a b : Byte) : observedBit c a b k = false := by
  rw [observedBit, h]

theorem observedBit_congr {c : CfgRx} {a a' b b' : Byte} (ha : MappedPinsAgree c .a a a') (hb : MappedPinsAgree c .b b b')
    (k : Nat) : observedBit c a b k = observedBit c a' b' k := by
  cases hk : c.pinOf k with
  | none => rw [observedBit_unmapped hk, observedBit_unmapped hk]
  | some pin =>
    obtain ⟨port, q⟩ := pin
    simp only [observedBit, hk]
    cases port with
    | a => exact congrArg (pol c.polRx) (ha k q hk)
    | b => exact congrArg (pol c.polRx) (hb k q hk)

theorem observe_congr {c : CfgRx} {a a' b b' : Byte} (hn : c.nRx ≤ 64) (ha : MappedPinsAgree c .a a a')
    (hb : MappedPinsAgree c .b b b') : observe c a b = observe c a' b' := by
  apply BitVec.eq_of_getLsbD_eq
  intro k _
  rw [getLsbD_observe c a b k hn, getLsbD_observe c a' b' k hn, observedBit_congr ha hb]

theorem getLsbD_observe_unmapped {c : CfgRx} {k : Nat} (hn : c.nRx ≤ 64) (h : c.pinOf k = none) (a b : Byte) :
    (observe c a b).getLsbD k = false := by
  rw [getLsbD_observe c a b k hn, observedBit_unmapped h, Bool.and_false]

/-! ### SAMPLE as a request (45_sampler.md R126) -/

theorem onRx_runs (f : State → State) {s : State} (hf : s.rx.ctl.fault = none) (hs : s.rx.sending = []) :
    s.onRx f = f s := by
  simp [State.onRx, State.rxEnabled, hf, hs]

theorem exec_sample {s : State} (h : s.rx.Ready) :
    exec .sample s = .next { s with
      env := ((s.readPort .a).readPort .b).env
      rx := s.rx.sampledAs (observe s.rx.cfg (s.portByte .a) ((s.readPort .a).portByte .b)) } := by
  rw [exec, execSample, onRx_runs _ h.noFault h.notHeld, State.sample_runs ⟨h.noFault, h.outside⟩]

/-- Settles O43: both runs store the observed vector of their two port bytes, which is the same vector, and 0 at an unmapped bit. -/
theorem unmappedPinsHaveNoInfluence : Obligations.UnmappedPinsHaveNoInfluence := by
  intro s e e' hready ha hb
  have hn : s.rx.cfg.nRx ≤ 64 := hready.wellFormed.nRx_le.trans (by decide)
  refine ⟨_, _, exec_sample hready, exec_sample hready, ?same, fun _ hk => getLsbD_observe_unmapped hn hk _ _⟩
  case same => exact congrArg s.rx.sampledAs (observe_congr hn ha hb)

end Sys2Proof
end

section
/-! Proofs: the shape of the state, an invariant of every step (10_state.md sections 2, 6, 7 and 11). -/

namespace Sys2Proof

open Machine

/-! ### The transmitter's shape -/

theorem Machine.TxNode.Sound.wellFormed {t : TxNode} (h : t.Sound) (hf : t.ctl.fault = none) : t.cfg.WellFormed :=
  Option.eq_none_iff_forall_ne_some.mpr fun q hq => Option.some_ne_none _ ((h.checked q hq).symm.trans hf)

/-- A node that has not faulted has no failed check, so there is none that FAULT would have to show. -/
theorem checked_of_noFault {t : TxNode} (h : t.Sound) (hf : t.ctl.fault = none) {f : Option Fault} (q : Check)
    (hq : t.cfg.failed = some q) : f = some (.cfg q) :=
  absurd (hq.symm.trans (h.wellFormed hf)) (Option.some_ne_none q)

theorem sound_applied {t : TxNode} {b : BlockIdx} (s : Byte) (h : t.Sound) : (t.applied b s).Sound where
  __ := h
  vector b' := by
    rw [TxNode.applied_v]
    split
    · next hb => subst hb; exact t.flipped_lt b' s
    · exact h.vector b'

theorem sound_refreshed {t : TxNode} (h : t.Sound) : t.refreshed.Sound where
  __ := h
  stages := chainAfter_lt _ _ _ _ _ h.stages
  outputs := chainAfter_lt _ _ _ _ _ h.stages

/-- FILL counts up to K − 1 at most, and the entry it leaves behind is written (43_framer.md R106, R110). -/
theorem sound_openDigit {t : TxNode} (d : BitVec 4) (h : t.Sound) (hf : t.ctl.fault = none)
    (hopen : t.fill.val + 1 ≠ t.cfg.k) : (t.openDigit d).Sound := by
  have hlt := h.fill (h.wellFormed hf)
  have hk := (h.wellFormed hf).k_le
  have hfill : (t.fill + 1).val = t.fill.val + 1 := Fin.val_add_one_of_lt' (by omega)
  refine { h with fill := fun _ => ?fill, written := ?written }
  case fill =>
    change (t.fill + 1).val < t.cfg.k
    omega
  case written =>
    intro j hj
    change j.val < (t.fill + 1).val at hj
    rw [TxNode.openDigit_buf, set_block]
    split
    · rfl
    · next hne => exact h.written j (by have := Fin.val_ne_of_ne hne; omega)

/-- Every part of a step keeps the transmitter's shape. -/
theorem sound_kept : TxNode.Kept TxNode.Sound where
  raise _ _ hf h := { h with checked := checked_of_noFault h hf }
  csEnter _ _ h := { h with masked := fun _ => rfl }
  csExit _ _ _ h := { h with masked := nofun }
  applied _ _ s _ _ h := sound_applied s h
  refreshed _ _ h := sound_refreshed h
  setBatch _ _ h := { h with }
  clearBatch _ _ h := { h with }
  resetFill _ hf h := { h with fill := fun _ => (h.wellFormed hf).k_pos, written := nofun }
  openDigit _ d hf hopen h := sound_openDigit d h hf hopen
  lastDigit _ _ hf _ h := { h with fill := fun _ => (h.wellFormed hf).k_pos, written := nofun }
  clearSlot _ _ h := { h with }
  fillSlot _ _ _ h := { h with }
  clearUart _ _ h := { h with }
  fillUart _ _ _ h := { h with }

/-! ### The receiver's shape -/

/-- The receiver's shape, and that a report is held only while HOST_OUT has reported no transmit-ready. -/
structure RxShape (x : RxNode) (hostOut : Nat) : Prop where
  sound : x.Sound
  held  : x.sending ≠ [] → hostOut = 0

theorem Machine.RxNode.Sound.wellFormed {x : RxNode} (h : x.Sound) (hf : x.ctl.fault = none) : x.cfg.WellFormed :=
  Option.eq_none_iff_forall_ne_some.mpr fun q hq => Option.some_ne_none _ ((h.checked q hq).symm.trans hf)

theorem rx_checked_of_noFault {x : RxNode} (h : x.Sound) (hf : x.ctl.fault = none) {f : Option Fault} (q : Check)
    (hq : x.cfg.failed = some q) : f = some (.cfg q) :=
  absurd (hq.symm.trans (h.wellFormed hf)) (Option.some_ne_none q)

theorem sound_sampledAs {x : RxNode} (a b : Byte) (h : x.Sound) (hf : x.ctl.fault = none) (hs : x.sending = []) :
    (x.sampledAs (observe x.cfg a b)).Sound := by
  have hn : x.cfg.nRx ≤ 64 := (h.wellFormed hf).nRx_le.trans (by decide)
  refine { h with sampled := ?sampled, unmapped := fun _ k hk => getLsbD_observe_unmapped hn hk a b, held := ?held }
  case sampled =>
    rw [toNat_lt_iff_getLsbD]
    intro i hi
    change x.cfg.nRx ≤ i at hi
    change (observe x.cfg a b).getLsbD i = false
    rw [getLsbD_observe _ _ _ _ hn, decide_eq_false (by omega), Bool.false_and]
  case held =>
    change x.sending <:+ _
    rw [hs]
    exact List.nil_suffix

/-- What is left of a list after more entries than it has. -/
theorem sub_length_eq_zero_of_drop_ne_nil {α : Type} {l : List α} {n : Nat} (h : l.drop n ≠ []) : n - l.length = 0 := by
  have := List.drop_eq_nil_iff.not.mp h
  omega

/-- Every part of a step keeps the receiver's shape. -/
theorem rxShape_kept : RxNode.Kept RxShape where
  raise _ _ _ hf hs h :=
    ⟨{ h.sound with checked := rx_checked_of_noFault h.sound hf, faultedNotHeld := fun _ => hs }, h.held⟩
  csEnter _ _ _ _ h := ⟨{ h.sound with masked := fun _ => rfl }, h.held⟩
  csExit _ _ _ _ _ h := ⟨{ h.sound with masked := nofun }, h.held⟩
  sampled _ _ a b hc hs h := ⟨sound_sampledAs a b h.sound hc.noFault hs, h.held⟩
  reported _ n hf _ _ h :=
    ⟨{ h.sound with held := List.drop_suffix n _, faultedNotHeld := fun hne => absurd hf hne },
      sub_length_eq_zero_of_drop_ne_nil⟩
  ready _ _ hf h :=
    ⟨{ h.sound with held := (List.drop_suffix _ _).trans h.sound.held, faultedNotHeld := fun hne => absurd hf hne },
      sub_length_eq_zero_of_drop_ne_nil⟩
  notReady _ _ hf h := ⟨h.sound, fun hne => absurd (h.sound.faultedNotHeld hf) hne⟩

/-- Settles O56: every part of a step keeps the shape of either record. -/
theorem everyStepKeepsTheShape : Obligations.EveryStepKeepsTheShape := by
  intro s t hsound hstep
  have htx : t.tx.Sound := step_keeps_tx sound_kept hstep hsound.tx
  have hrx : RxShape t.rx t.hostOut := step_keeps_rx rxShape_kept hstep ⟨hsound.rx, hsound.held⟩
  exact ⟨htx, hrx.sound, hrx.held⟩

/-! ### The shape at reset -/

theorem resetWith_v (ct : CfgTx) (d : ResetDraws) (b : BlockIdx) : (TxNode.resetWith ct d).v[b] = 0 :=
  Vector.getElem_replicate _

theorem resetWith_written (ct : CfgTx) (d : ResetDraws) (b : BlockIdx) : (TxNode.resetWith ct d).buf[b].written = false := by
  fin_cases b <;> rfl

theorem resetWith_tx_sound (ct : CfgTx) (d : ResetDraws) : (TxNode.resetWith ct d).Sound where
  checked _ hq := congrArg (Option.map Fault.cfg) hq
  vector b := by rw [resetWith_v]; exact Nat.two_pow_pos _
  fill hwf := CfgTx.WellFormed.k_pos hwf
  written := nofun
  stages := maskLow_toNat_lt _ _
  outputs := maskLow_toNat_lt _ _
  masked := nofun

theorem resetWith_rx_sound (cr : CfgRx) (d : ResetDraws) : (RxNode.resetWith cr d).Sound where
  checked _ hq := congrArg (Option.map Fault.cfg) hq
  sampled := maskLow_toNat_lt _ _
  unmapped := nofun
  masked := nofun
  held := List.nil_suffix
  faultedNotHeld _ := rfl

/-- Settles O57: V is 0, the draws are masked, and nothing is sampled or held. -/
theorem resetHasTheShape : Obligations.ResetHasTheShape := fun ct cr d =>
  ⟨resetWith_tx_sound ct d, resetWith_rx_sound cr d, fun hne => absurd rfl hne⟩

end Sys2Proof
end

section
/-! Proofs: what the event trace tells of V and of the outputs (42_encoder.md section 3, 44_driver.md section 2). -/

namespace Sys2Proof

open Machine

/-! ### Properties of V, the bus and the event trace -/

/-- The second transmitter has the vectors, the bus and the event trace of the first. -/
def SameBus (t u : TxNode) : Prop :=
  u = { t with
    buf := u.buf, fill := u.fill, batch := u.batch, slotFull := u.slotFull, slotData := u.slotData, uartPend := u.uartPend,
    uartByte := u.uartByte, ctl := u.ctl, sr := u.sr, ltrace := u.ltrace }

/-- A property of the vectors, the bus and the event trace is kept by every part of a step, beside the shape, if the three parts
that record an event keep it: no other part changes what it is about. -/
theorem sound_and_kept {Q : TxNode → Prop} (hsame : ∀ t u, SameBus t u → Q t → Q u)
    (happlied : ∀ t b s, b.val < t.cfg.k → t.cfg.WellFormed → t.Sound → Q t → Q (t.applied b s))
    (hrefreshed : ∀ t, t.cfg.WellFormed → Q t → Q t.refreshed) (hbatch : ∀ t, Q t → Q t.setBatch) :
    TxNode.Kept fun t => t.Sound ∧ Q t := by
  have silent {t u : TxNode} (hs : u.Sound) (h : Q t) (hb : SameBus t u) : u.Sound ∧ Q u := ⟨hs, hsame t u hb h⟩
  exact {
    raise := fun t f hf h => silent (sound_kept.raise t f hf h.1) h.2 rfl
    csEnter := fun t hc h => silent (sound_kept.csEnter t hc h.1) h.2 rfl
    csExit := fun t hf hin h => silent (sound_kept.csExit t hf hin h.1) h.2 rfl
    applied := fun t b s hb hc h =>
      ⟨sound_applied s h.1, happlied t b s hb (h.1.wellFormed hc.noFault) h.1 h.2⟩
    refreshed := fun t hc h => ⟨sound_refreshed h.1, hrefreshed t (h.1.wellFormed hc.noFault) h.2⟩
    setBatch := fun t hf h => ⟨sound_kept.setBatch t hf h.1, hbatch t h.2⟩
    clearBatch := fun t hf h => silent (sound_kept.clearBatch t hf h.1) h.2 rfl
    resetFill := fun t hf h => silent (sound_kept.resetFill t hf h.1) h.2 rfl
    openDigit := fun t d hf hk h => silent (sound_kept.openDigit t d hf hk h.1) h.2 rfl
    lastDigit := fun t d hf hk h => silent (sound_kept.lastDigit t d hf hk h.1) h.2 rfl
    clearSlot := fun t hf h => silent (sound_kept.clearSlot t hf h.1) h.2 rfl
    fillSlot := fun t c hf h => silent (sound_kept.fillSlot t c hf h.1) h.2 rfl
    clearUart := fun t hf h => silent (sound_kept.clearUart t hf h.1) h.2 rfl
    fillUart := fun t c hf h => silent (sound_kept.fillUart t c hf h.1) h.2 rfl }

/-! ### The history of every block (42_encoder.md R97, R98) -/

/-- APPLY records the correction that it XORs in and the target that it leaves. -/
theorem history_applied {t : TxNode} {b : BlockIdx} (s : Byte) (hb : b.val < t.cfg.k) (hwf : t.cfg.WellFormed)
    (hsound : t.Sound) (h : t.History) : (t.applied b s).History := by
  intro b'
  obtain ⟨hv, hsyn⟩ := h b'
  rw [TxNode.applied_v, TxNode.applied_etrace, replay_snoc, lastTarget_snoc, TxEvent.replayed, TxEvent.targeted]
  by_cases hbb : b' = b
  · subst hbb
    have hr := width_le_six hwf hb
    simp only [if_true]
    exact ⟨by rw [TxNode.flipped_eq s hr (hsound.vector b'), ← hv], TxNode.syn_flipped s hr⟩
  · simp only [if_neg hbb, if_neg (Ne.symm hbb)]
    exact ⟨hv, hsyn⟩

/-- An event that is no APPLY tells nothing of a block. -/
theorem history_snoc {t u : TxNode} {e : TxEvent} (hv : u.v = t.v) (hcfg : u.cfg = t.cfg)
    (htrace : u.etrace = t.etrace ++ [e]) (he : ∀ b s w, e ≠ .applied b s w) (h : t.History) : u.History := by
  intro b
  rw [hv, hcfg, htrace, replay_snoc, lastTarget_snoc]
  cases e with
  | applied b s w => exact absurd rfl (he b s w)
  | batchComplete => exact h b
  | refreshed a => exact h b

theorem sameBus_history (t u : TxNode) (hb : SameBus t u) (h : t.History) : u.History := by
  rw [hb]
  exact h

/-- Settles O54: the shape and the history together are kept by every part of a step. -/
theorem traceTellsTheHistory : Obligations.TraceTellsTheHistory := by
  intro s t hsound hhistory hstep
  have hkept := sound_and_kept sameBus_history (fun _ _ s => history_applied s)
    (fun t _ => history_snoc rfl rfl t.refreshed_etrace nofun) (fun t => history_snoc rfl rfl t.setBatch_etrace nofun)
  exact (step_keeps_tx hkept hstep ⟨hsound.tx, hhistory⟩).2

/-! ### The outputs (44_driver.md R121, R122, R124, R125) -/

/-- The chain after a REFRESH: pol(A[p]) in stage `p`, but for the last stage when the first clock edge was lost. -/
theorem getLsbD_chainRefreshed {t : TxNode} (h : t.cfg.WellFormed) (p : Nat) :
    t.chainRefreshed.getLsbD p =
      (decide (p < t.cfg.totalBits) &&
        if p + 1 < t.cfg.totalBits ∨ t.clkL = false then pol t.cfg.drvPol (t.agg.getLsbD p) else t.sr.getLsbD 0) := by
  have hpos := h.total_pos
  have hle := h.total_le
  rw [TxNode.chainRefreshed]
  by_cases h64 : p < 64
  · cases hclk : t.clkL with
    | false =>
      rw [getLsbD_chainAfter _ _ _ _ _ h64 (by omega), CfgTx.chainLen]
      grind
    | true =>
      obtain ⟨n, hn⟩ : ∃ n, t.cfg.totalBits = n + 1 := ⟨_, (Nat.succ_pred_eq_of_pos (by omega)).symm⟩
      rw [hn, getLsbD_chainAfter_high _ _ _ _ _ h64 (by omega), CfgTx.chainLen, hn]
      grind
  · rw [BitVec.getLsbD_of_ge _ _ (by omega), decide_eq_false (by omega), Bool.false_and]

theorem dataAfter_total {t : TxNode} (h : t.cfg.WellFormed) (a : Word) :
    t.dataAfter a t.cfg.totalBits = pol t.cfg.drvPol (a.getLsbD 0) := by
  have := h.total_pos
  rw [TxNode.dataAfter, if_neg (by omega)]

theorem clkL_refreshed {t : TxNode} (h : t.cfg.WellFormed) : t.refreshed.clkL = false := by
  have := h.total_pos
  change (decide (t.cfg.totalBits = 0) && t.clkL) = false
  rw [decide_eq_false (by omega), Bool.false_and]

/-- A REFRESH shows its vector; a REFRESH before it has left the clock low, so that no edge is lost. -/
theorem busShown_refreshed {t : TxNode} (hwf : t.cfg.WellFormed) (h : t.BusShown) : t.refreshed.BusShown := by
  intro a ha
  have hagg : t.agg = a := by
    rw [TxNode.refreshed_etrace, lastRefreshed_snoc] at ha
    exact Option.some.inj ha
  subst hagg
  refine ⟨dataAfter_total hwf _, clkL_refreshed hwf, rfl, fun p (hp : p < t.cfg.totalBits) hshown => ?_⟩
  have hclk : p + 1 < t.cfg.totalBits ∨ t.clkL = false := by
    refine hshown.imp_right fun htwo => ?_
    rw [TxNode.refreshed_etrace, refreshCount_append, refreshCount_refreshed] at htwo
    obtain ⟨a, ha⟩ := Option.ne_none_iff_exists'.mp ((lastRefreshed_eq_none t.etrace).not.mpr (by omega))
    obtain ⟨-, hlow, -⟩ := h a ha
    exact hlow
  calc t.chainRefreshed.getLsbD p
      = (decide (p < t.cfg.totalBits) && _) := getLsbD_chainRefreshed hwf p
    _ = pol t.cfg.drvPol (t.agg.getLsbD p) := by rw [decide_eq_true hp, if_pos hclk, Bool.true_and]

/-- An event that is no REFRESH leaves the last refreshed vector as it is. -/
theorem busShown_snoc {t : TxNode} {e : TxEvent} (he : ∀ a, e ≠ .refreshed a) (h : t.BusShown) :
    ({ t with etrace := t.etrace ++ [e] } : TxNode).BusShown := by
  have hlast : lastRefreshed (t.etrace ++ [e]) = lastRefreshed t.etrace ∧
      refreshCount (t.etrace ++ [e]) = refreshCount t.etrace := by
    rw [lastRefreshed_snoc, refreshCount_append]
    cases e with
    | refreshed a => exact absurd rfl (he a)
    | batchComplete => exact ⟨rfl, rfl⟩
    | applied b s w => exact ⟨rfl, rfl⟩
  intro a ha
  simp only [hlast.2]
  exact h a (hlast.1.symm.trans ha)

theorem sameBus_busShown (t u : TxNode) (hb : SameBus t u) (h : t.BusShown) : u.BusShown := by
  rw [hb]
  exact h

/-- Settles O22: the shape and the shown vector together are kept by every part of a step. -/
theorem outputsShowTheLastRefresh : Obligations.OutputsShowTheLastRefresh := by
  intro s t hsound hshown hstep
  have hkept := sound_and_kept sameBus_busShown (fun _ _ _ _ _ _ h => busShown_snoc nofun h)
    (fun _ => busShown_refreshed) (fun _ h => busShown_snoc nofun h)
  exact (step_keeps_tx hkept hstep ⟨hsound.tx, hshown⟩).2

/-! ### Reset -/

/-- Settles O55: with no event recorded every vector is 0 and no vector has been refreshed. -/
theorem resetHasItsHistory : Obligations.ResetHasItsHistory := by
  intro ct cr d
  refine ⟨fun b => ?history, nofun⟩
  case history =>
    have hv : (State.resetWith ct cr d).tx.v[b] = 0#64 := resetWith_v ct d b
    rw [hv]
    exact ⟨rfl, syn_zero _⟩

/-! ### REFRESH as a request (44_driver.md sections 1 and 2) -/

theorem exec_refresh_of_noFault {s : State} (h : s.tx.ctl.fault = none) :
    exec .refresh s = .next { s with tx := s.tx.refresh } := by
  rw [exec, execRefresh, State.onTx_runs _ h]

/-- Settles O21: inside a section CSEnter faults; outside one the refreshed transmitter has the lines and the chain as stated. -/
theorem refreshNextState : Obligations.RefreshNextState := by
  intro s hfault
  rw [exec_refresh_of_noFault hfault]
  refine ⟨?nested, ?runs⟩
  case nested =>
    intro hin
    rw [TxNode.refresh_nested hin]
    rfl
  case runs =>
    intro hout hwf
    refine ⟨s.tx.chainRefreshed, getLsbD_chainRefreshed hwf, ?_⟩
    rw [TxNode.refresh_runs ⟨hfault, hout⟩, ← dataAfter_total hwf, ← clkL_refreshed hwf]
    rfl

/-- Settles O20: the events before the last are one LATCH event and five for each bit. -/
theorem refreshTraceShape : Obligations.RefreshTraceShape := by
  intro c a
  have hlen := length_shiftEvents c a c.totalBits
  have hbit (j k : Nat) (hj : j < c.totalBits) (hk : k < 5) :
      (refreshEvents c a)[1 + 5 * (c.totalBits - 1 - j) + k]? = (bitEvents c.halfPeriod (pol c.drvPol (a.getLsbD j)))[k]? := by
    rw [refreshEvents, show 1 + 5 * (c.totalBits - 1 - j) + k = 5 * (c.totalBits - 1 - j) + k + 1 by omega,
      List.getElem?_cons_succ, List.getElem?_append_left (by omega), getElem?_shiftEvents c a _ j hj k hk]
  refine ⟨by simp [refreshEvents, hlen], rfl, fun j hj => ?bits, ?last⟩
  case bits =>
    refine ⟨(hbit j 0 hj (by omega)).trans ?_, hbit j 1 hj (by omega), hbit j 2 hj (by omega), hbit j 3 hj (by omega),
      hbit j 4 hj (by omega)⟩
    cases c.drvPol <;> rfl
  case last => simp [refreshEvents, hlen]

end Sys2Proof
end

section
/-! Proofs: steps and runs of the whole machine (10_state.md sections 1, 3 and 6, 60_exceptions.md sections 2 and 3). -/

namespace Sys2Proof

open Machine

/-! ### One step (10_state.md R17, R21; log 7) -/

theorem step_request {s : State} {n : Node} {w : ReqWord} {rest : List Turn} {i : Instr}
    (hs : s.schedule = .request n w :: rest) (hd : decodeRequest w = .ok i) :
    step s = exec i { s with schedule := rest, site := n } := by
  simp only [step, State.fetch, hs, hd]

theorem step_undecodable {s : State} {n : Node} {w : ReqWord} {rest : List Turn} {e : DecodeError}
    (hs : s.schedule = .request n w :: rest) (hd : decodeRequest w = .error e) : step s = .refused (.undecodable e) := by
  simp only [step, State.fetch, hs, hd]

theorem step_transmitReady {s : State} {rest : List Turn} (hs : s.schedule = .transmitReady :: rest) :
    step s = .next ({ s with schedule := rest } : State).transmitReady := by
  simp only [step, State.fetch, hs]

theorem step_idle {s : State} (hs : s.schedule = []) : step s = .next s := by simp only [step, State.fetch, hs]

/-- Settles O6: the clauses are the four turns that a schedule can start with. -/
theorem stepRunsTheScheduledRequest : Obligations.StepRunsTheScheduledRequest := fun _ _ _ _ =>
  ⟨fun hs _ hd => step_request hs hd, fun hs _ hd => step_undecodable hs hd, step_transmitReady, step_idle⟩

/-! ### Invariants of every step -/

theorem tx_cfg_kept (c : CfgTx) : TxNode.Kept fun t => t.cfg = c where
  raise _ _ _ h := h
  csEnter _ _ h := h
  csExit _ _ _ h := h
  applied _ _ _ _ _ h := h
  refreshed _ _ h := h
  setBatch _ _ h := h
  clearBatch _ _ h := h
  resetFill _ _ h := h
  openDigit _ _ _ _ h := h
  lastDigit _ _ _ _ h := h
  clearSlot _ _ h := h
  fillSlot _ _ _ h := h
  clearUart _ _ h := h
  fillUart _ _ _ h := h

theorem rx_cfg_kept (c : CfgRx) : RxNode.Kept fun x _ => x.cfg = c where
  raise _ _ _ _ _ h := h
  csEnter _ _ _ _ h := h
  csExit _ _ _ _ _ h := h
  sampled _ _ _ _ _ _ h := h
  reported _ _ _ _ _ h := h
  ready _ _ _ h := h
  notReady _ _ _ h := h

/-- Settles O48: no part of a step writes a configuration. -/
theorem configurationIsFixed : Obligations.ConfigurationIsFixed :=
  ⟨fun _ _ _ => ⟨rfl, rfl, rfl, rfl⟩,
    fun _ _ hstep => ⟨step_keeps_tx (tx_cfg_kept _) hstep rfl, step_keeps_rx (rx_cfg_kept _) hstep rfl⟩⟩

/-- The parts of a step are taken on a node that has not faulted, so they keep a property that only faulted nodes have. -/
theorem kept_of_faulted {P : TxNode → Prop} (hP : ∀ t, P t → t.ctl.fault ≠ none) : TxNode.Kept P where
  raise t _ hf h := absurd hf (hP t h)
  csEnter t hc h := absurd hc.noFault (hP t h)
  csExit t hf _ h := absurd hf (hP t h)
  applied t _ _ _ hc h := absurd hc.noFault (hP t h)
  refreshed t hc h := absurd hc.noFault (hP t h)
  setBatch t hf h := absurd hf (hP t h)
  clearBatch t hf h := absurd hf (hP t h)
  resetFill t hf h := absurd hf (hP t h)
  openDigit t _ hf _ h := absurd hf (hP t h)
  lastDigit t _ hf _ h := absurd hf (hP t h)
  clearSlot t hf h := absurd hf (hP t h)
  fillSlot t _ hf h := absurd hf (hP t h)
  clearUart t hf h := absurd hf (hP t h)
  fillUart t _ hf h := absurd hf (hP t h)

theorem rx_kept_of_faulted {P : RxNode → Prop} (hP : ∀ x, P x → x.ctl.fault ≠ none) : RxNode.Kept fun x _ => P x where
  raise x _ _ hf _ h := absurd hf (hP x h)
  csEnter x _ hc _ h := absurd hc.noFault (hP x h)
  csExit x _ hf _ _ h := absurd hf (hP x h)
  sampled x _ _ _ hc _ h := absurd hc.noFault (hP x h)
  reported x _ hf _ _ h := absurd hf (hP x h)
  ready x _ hf h := absurd hf (hP x h)
  notReady _ _ _ h := h

/-- Settles O50: being the faulted record that it was is a property that only faulted nodes have. -/
theorem faultedNodeStaysAsItIs : Obligations.FaultedNodeStaysAsItIs := by
  intro s t hstep
  exact ⟨fun hne => step_keeps_tx (P := (· = s.tx)) (kept_of_faulted fun _ h => h ▸ hne) hstep rfl,
    fun hne => step_keeps_rx (P := fun x _ => x = s.rx) (rx_kept_of_faulted fun _ h => h ▸ hne) hstep rfl⟩

/-- A property that every step keeps holds after every run. -/
theorem run_induct {M : Host.Core} {P : M.State → Prop} (hP : ∀ s t, P s → M.step s = .next t → P t) (n : Nat)
    {s t : M.State} (h : P s) (hrun : M.run n s = .next t) : P t := by
  induction n generalizing s with
  | zero =>
    cases hrun
    exact h
  | succ n ih =>
    rw [Host.Core.run] at hrun
    split at hrun
    · next s' hstep => exact ih (hP s s' h hstep) hrun
    · cases hrun
    · cases hrun

theorem failed_shows_in_fault {α : Type} {o : Option α} (f : α → Fault) (h : o ≠ none) : o.map f ≠ none := by
  simpa using h

/-- Settles O51: an ill-formed node has faulted at reset, and a faulted node stays as it is along the run. -/
theorem illFormedNodeNeverSteps : Obligations.IllFormedNodeNeverSteps := by
  intro ct cr d turns ready env n t hrun
  refine run_induct (M := core) (P := fun (u : State) => (¬ ct.WellFormed → u.tx = TxNode.resetWith ct d) ∧
    (¬ cr.WellFormed → u.rx = RxNode.resetWith cr d)) ?_ n ⟨fun _ => rfl, fun _ => rfl⟩ hrun
  rintro s u ⟨htx, hrx⟩ hstep
  obtain ⟨hstx, hsrx⟩ := faultedNodeStaysAsItIs s u hstep
  refine ⟨fun hbad => ?_, fun hbad => ?_⟩
  · rw [← htx hbad]
    exact hstx (htx hbad ▸ failed_shows_in_fault Fault.cfg hbad)
  · rw [← hrx hbad]
    exact hsrx (hrx hbad ▸ failed_shows_in_fault Fault.cfg hbad)

/-- The traces of one transmitter are the beginnings of those of another. -/
structure TracesExtend (t u : TxNode) : Prop where
  lines  : t.ltrace <+: u.ltrace
  events : t.etrace <+: u.etrace

theorem tracesExtend_kept (t₀ : TxNode) : TxNode.Kept (TracesExtend t₀) where
  raise _ _ _ h := ⟨h.lines, h.events⟩
  csEnter _ _ h := ⟨h.lines, h.events⟩
  csExit _ _ _ h := ⟨h.lines, h.events⟩
  applied _ _ _ _ _ h := ⟨h.lines, h.events.trans (List.prefix_append _ _)⟩
  refreshed _ _ h := ⟨h.lines.trans (List.prefix_append _ _), h.events.trans (List.prefix_append _ _)⟩
  setBatch _ _ h := ⟨h.lines, h.events.trans (List.prefix_append _ _)⟩
  clearBatch _ _ h := ⟨h.lines, h.events⟩
  resetFill _ _ h := ⟨h.lines, h.events⟩
  openDigit _ _ _ _ h := ⟨h.lines, h.events⟩
  lastDigit _ _ _ _ h := ⟨h.lines, h.events⟩
  clearSlot _ _ h := ⟨h.lines, h.events⟩
  fillSlot _ _ _ h := ⟨h.lines, h.events⟩
  clearUart _ _ h := ⟨h.lines, h.events⟩
  fillUart _ _ _ h := ⟨h.lines, h.events⟩

theorem txout_kept (x₀ : RxNode) : RxNode.Kept fun x _ => x₀.txout <+: x.txout where
  raise _ _ _ _ _ h := h
  csEnter _ _ _ _ h := h
  csExit _ _ _ _ _ h := h
  sampled _ _ _ _ _ _ h := h
  reported _ _ _ _ _ h := h.trans (List.prefix_append _ _)
  ready _ _ _ h := h.trans (List.prefix_append _ _)
  notReady _ _ _ h := h

/-- Settles O52: a part of a step either leaves a trace or appends to it. -/
theorem tracesOnlyGrow : Obligations.TracesOnlyGrow := by
  intro s t hstep
  obtain ⟨hlines, hevents⟩ := step_keeps_tx (tracesExtend_kept s.tx) hstep ⟨List.prefix_refl _, List.prefix_refl _⟩
  exact ⟨hlines, hevents, step_keeps_rx (txout_kept s.rx) hstep (List.prefix_refl _)⟩

/-! ### Runs of agent steps (60_exceptions.md R147) -/

/-- What an agent's step leaves alone: no fault is raised, no section stays open, and IE is as before. -/
structure SameMask (c c' : Control) : Prop where
  fault : c'.fault = c.fault
  ie    : c'.ie = c.ie
  inCs  : c'.inCs = c.inCs

theorem SameMask.refl (c : Control) : SameMask c c := ⟨rfl, rfl, rfl⟩

/-- The frame of an agent's step over the whole machine. -/
structure AgentFrame (s t : State) : Prop where
  tx       : SameMask s.tx.ctl t.tx.ctl
  rx       : SameMask s.rx.ctl t.rx.ctl
  schedule : t.schedule = s.schedule

theorem AgentFrame.refl (s : State) : AgentFrame s s := ⟨.refl _, .refl _, rfl⟩

theorem transmitReady_frame (s : State) : AgentFrame s s.transmitReady := by
  unfold State.transmitReady
  simp only
  split <;> exact ⟨.refl _, .refl _, rfl⟩

theorem poll_frame {t : TxNode} (h : t.Sound) (hc : t.ctl.Calm) : SameMask t.ctl t.poll.ctl := by
  rw [TxNode.poll]
  split
  · have hframe := TxNode.feed_frame (t := t.clearSlot) (decodeByte t.cfg.policy t.slotData) hc
      (h.wellFormed hc.noFault).k_pos h.written
    exact ⟨hframe.fault, hframe.ie, hframe.inCs⟩
  · exact .refl _

theorem uartArrive_frame (c : Byte) (s : State) : AgentFrame s (s.uartArrive c) := by
  have hdraw : AgentFrame s (s.drawOverrun (TxNode.fillUart c)) := by
    rw [State.drawOverrun]
    split <;> exact ⟨.refl _, .refl _, rfl⟩
  rw [State.uartArrive]
  split
  · exact hdraw
  · exact ⟨.refl _, .refl _, rfl⟩

theorem isrBody_frame (s : State) : AgentFrame s s.isrBody := by
  have hdraw : AgentFrame s (({ s with tx := s.tx.clearUart } : State).drawOverrun (TxNode.fillSlot s.tx.uartByte)) := by
    rw [State.drawOverrun]
    split <;> exact ⟨.refl _, .refl _, rfl⟩
  rw [State.isrBody]
  split
  · exact hdraw
  · exact ⟨.refl _, .refl _, rfl⟩

theorem rxCycle_frame {s : State} (hc : s.rx.ctl.Calm) : AgentFrame s s.rxCycle := by
  rw [State.rxCycle_runs hc, State.report_runs (by rw [State.sample_runs hc]; rfl), State.sample_runs hc]
  exact ⟨.refl _, ⟨rfl, rfl, rfl⟩, rfl⟩

/-- An agent's own request is taken from a sound state between agent steps, and leaves the masks as they are. -/
theorem exec_agent {s : State} {i : Instr} (hi : i.isAgentStep = true) (hsound : s.Sound) (htx : s.tx.ctl.Calm)
    (hrx : s.rx.ctl.Calm) : ∃ t, exec i s = .next t ∧ AgentFrame s t := by
  cases i with
  | poll =>
    refine ⟨_, rfl, ?_⟩
    rw [State.onTx_runs _ htx.noFault]
    exact ⟨poll_frame hsound.tx htx, .refl _, rfl⟩
  | ackBatch =>
    refine ⟨_, rfl, ?_⟩
    rw [State.onTx_runs _ htx.noFault]
    exact ⟨.refl _, .refl _, rfl⟩
  | uartArrive c =>
    refine ⟨_, rfl, ?_⟩
    split
    · exact uartArrive_frame c s
    · exact .refl s
  | isrRx =>
    refine ⟨_, rfl, ?_⟩
    split
    · exact isrBody_frame s
    · exact .refl s
  | rxCycle =>
    refine ⟨_, rfl, ?_⟩
    rw [State.onRx]
    split
    · exact rxCycle_frame hrx
    · exact .refl s
  | _ => cases hi

/-- A step that keeps the masks goes from one state of a run of agent steps to another. -/
theorem agentRun_of_frame {s t : State} {rest : List Turn} (h : s.AgentRun) (hstep : step s = .next t)
    (htx : SameMask s.tx.ctl t.tx.ctl) (hrx : SameMask s.rx.ctl t.rx.ctl) (hsched : t.schedule = rest)
    (hrest : ∀ u ∈ rest, u ∈ s.schedule) : t.AgentRun where
  sound := everyStepKeepsTheShape s t h.sound hstep
  safe := ⟨htx.fault.trans h.safe.tx, hrx.fault.trans h.safe.rx⟩
  txOpen := ⟨htx.ie.trans h.txOpen.1, htx.inCs.trans h.txOpen.2⟩
  rxOpen := ⟨hrx.ie.trans h.rxOpen.1, hrx.inCs.trans h.rxOpen.2⟩
  turns u hu := h.turns u (hrest u (hsched ▸ hu))

/-- Settles O58: each agent turn is taken and keeps both masks. -/
theorem agentRunsNeverFault : Obligations.AgentRunsNeverFault := by
  intro s h
  cases hs : s.schedule with
  | nil => exact ⟨s, step_idle hs, h⟩
  | cons turn rest =>
    have hturn := h.turns turn (by simp [hs])
    have hrest : ∀ u ∈ rest, u ∈ s.schedule := fun u hu => by simp [hs, hu]
    cases turn with
    | transmitReady =>
      have hframe := transmitReady_frame { s with schedule := rest }
      have hstep := step_transmitReady hs
      exact ⟨_, hstep, agentRun_of_frame h hstep hframe.tx hframe.rx hframe.schedule hrest⟩
    | request n w =>
      rw [Turn.isAgentTurn] at hturn
      split at hturn
      · next i hd =>
        obtain ⟨t, hexec, hframe⟩ := exec_agent (s := { s with schedule := rest, site := n }) hturn
          ⟨h.sound.tx, h.sound.rx, h.sound.held⟩ ⟨h.safe.tx, h.txOpen.2⟩ ⟨h.safe.rx, h.rxOpen.2⟩
        have hstep := (step_request hs hd).trans hexec
        exact ⟨t, hstep, agentRun_of_frame h hstep hframe.tx hframe.rx hframe.schedule hrest⟩
      · cases hturn

/-- Settles O59: at reset of well-formed nodes FAULT is none and interrupts are enabled. -/
theorem resetStartsAnAgentRun : Obligations.ResetStartsAnAgentRun := by
  intro ct cr d turns ready env htx hrx hturns
  exact {
    sound := ⟨resetWith_tx_sound ct d, resetWith_rx_sound cr d, fun hne => absurd rfl hne⟩
    safe := ⟨congrArg (Option.map Fault.cfg) htx, congrArg (Option.map Fault.cfg) hrx⟩
    txOpen := ⟨rfl, rfl⟩
    rxOpen := ⟨rfl, rfl⟩
    turns := hturns }

/-- Settles O49: the values are those of the reset record, and the chain's draws are masked. -/
theorem resetValues : Obligations.ResetValues := by
  intro ct cr d
  refine ⟨fun b => ⟨resetWith_v ct d b, resetWith_written ct d b⟩, rfl, rfl, rfl, rfl, rfl, rfl, rfl, rfl, rfl, rfl, rfl,
    rfl, rfl, rfl, rfl, ?out, ?chain⟩
  case out => exact getLsbD_maskLow ct.chainLen d.out
  case chain => exact getLsbD_maskLow ct.chainLen d.sr

/-! ### The nodes share nothing (10_state.md section 1, 20_memory.md section 6) -/

/-- A state with another receiver and another count of reports given in advance. -/
def withRx (x : RxNode) (n : Nat) (s : State) : State := { s with rx := x, hostOut := n }

theorem onTx_withRx (f : TxNode → TxNode) (x : RxNode) (n : Nat) (s : State) :
    (withRx x n s).onTx f = withRx x n (s.onTx f) := by
  rw [State.onTx, State.onTx, apply_ite (withRx x n)]
  rfl

theorem feedUnder_withRx {p : Policy} {f : TxNode → TxNode} {s t : State} (x : RxNode) (n : Nat)
    (h : s.feedUnder p f = .next t) : (withRx x n s).feedUnder p f = .next (withRx x n t) := by
  rw [State.feedUnder] at h
  split at h
  · next hp =>
    cases h
    rw [State.feedUnder, if_pos (show (withRx x n s).tx.cfg.policy = p from hp), onTx_withRx]
  · cases h

theorem uartArrive_withRx (c : Byte) (x : RxNode) (n : Nat) (s : State) :
    (withRx x n s).uartArrive c = withRx x n (s.uartArrive c) := by
  rw [State.uartArrive, State.uartArrive, apply_ite (withRx x n)]
  rfl

theorem isrBody_withRx (x : RxNode) (n : Nat) (s : State) : (withRx x n s).isrBody = withRx x n s.isrBody := by
  rw [State.isrBody, State.isrBody, apply_ite (withRx x n)]
  rfl

theorem exec_tx_withRx {i : Instr} {s t : State} (ho : i.owner = some .tx) (h : exec i s = .next t) (x : RxNode) (n : Nat) :
    exec i (withRx x n s) = .next (withRx x n t) := by
  cases i with
  | nibTerm | nibData | hexTerm | hexDig09 | hexDiguc | hexDiglc | hexDiscard => exact feedUnder_withRx x n h
  | apply | applyBatch | refresh | poll | ackBatch =>
    cases h
    exact congrArg Host.Outcome.next (onTx_withRx _ x n s)
  | uartArrive c =>
    cases h
    rw [apply_ite (withRx x n), ← uartArrive_withRx]
    rfl
  | isrRx =>
    cases h
    rw [apply_ite (withRx x n), ← isrBody_withRx]
    rfl
  | _ => cases ho

/-- A state with another transmitter. -/
def withTx (y : TxNode) (s : State) : State := { s with tx := y }

theorem readPort_withTx (y : TxNode) (s : State) (p : Port) : (withTx y s).readPort p = withTx y (s.readPort p) := by
  rw [State.readPort, State.readPort, apply_ite (withTx y)]
  rfl

theorem takeSample_withTx (y : TxNode) (s : State) : (withTx y s).takeSample = withTx y s.takeSample := by
  simp only [State.takeSample, readPort_withTx]
  rfl

theorem sample_withTx (y : TxNode) (s : State) : (withTx y s).sample = withTx y s.sample := by
  simp only [State.sample]
  rw [apply_ite (withTx y), ← takeSample_withTx]
  rfl

theorem report_withTx (y : TxNode) (s : State) : (withTx y s).report = withTx y s.report := by
  rw [State.report, State.report, apply_ite (withTx y)]
  rfl

theorem rxCycle_withTx (y : TxNode) (s : State) : (withTx y s).rxCycle = withTx y s.rxCycle := by
  simp only [State.rxCycle, sample_withTx]
  rw [apply_ite (withTx y), ← report_withTx]
  rfl

/-- A request that only the receiver serves leaves the transmitter alone and does not depend on it. -/
theorem onRx_withTx {f : State → State} {s : State} (htx : (f s).tx = s.tx) (hf : ∀ y, f (withTx y s) = withTx y (f s)) :
    (s.onRx f).tx = s.tx ∧ ∀ y, (withTx y s).onRx f = withTx y (s.onRx f) := by
  refine ⟨State.onRx_tx f s htx, fun y => ?_⟩
  rw [State.onRx, State.onRx, apply_ite (withTx y), ← hf]
  rfl

theorem exec_rx_withTx {i : Instr} {s t : State} (ho : i.owner = some .rx) (h : exec i s = .next t) :
    t.tx = s.tx ∧ ∀ y, exec i (withTx y s) = .next (withTx y t) := by
  cases i with
  | sample =>
    cases h
    exact (onRx_withTx (State.sample_tx s) fun y => sample_withTx y s).imp_right fun h y => congrArg _ (h y)
  | report =>
    cases h
    exact (onRx_withTx (State.report_tx s) fun y => report_withTx y s).imp_right fun h y => congrArg _ (h y)
  | rxCycle =>
    cases h
    exact (onRx_withTx (State.rxCycle_tx s) fun y => rxCycle_withTx y s).imp_right fun h y => congrArg _ (h y)
  | _ => cases ho

/-- Settles O60: each node's operations commute with a change of the other record. -/
theorem nodesShareNothing : Obligations.NodesShareNothing := by
  intro s t i hexec
  refine ⟨fun ho => ?tx, fun ho => exec_rx_withTx ho hexec⟩
  case tx =>
    obtain ⟨hrx, hhost⟩ := exec_tx_rx i hexec ho
    exact ⟨hrx, hhost, exec_tx_withRx ho hexec⟩

end Sys2Proof
end

section
/-! Proofs: the encoding of input bytes and of request records (30_encoding.md sections 1 to 3). -/

namespace Sys2Proof

open Machine

/-! ### The classes of an input byte under HEXBLOCK (30_encoding.md R66) -/

@[simp] theorem decodeByte_hexblock_cr : decodeByte .hexblock 0x0D#8 = .hexTerm .cr := rfl

@[simp] theorem decodeByte_hexblock_lf : decodeByte .hexblock 0x0A#8 = .hexTerm .lf := rfl

theorem decodeByte_hexblock_digit09 (d : Fin 10) : decodeByte .hexblock (BitVec.ofNat 8 (0x30 + d.val)) = .hexDig09 d := by
  revert d
  decide

theorem decodeByte_hexblock_digitUc (d : Fin 6) : decodeByte .hexblock (BitVec.ofNat 8 (0x41 + d.val)) = .hexDiguc d := by
  revert d
  decide

theorem decodeByte_hexblock_digitLc (d : Fin 6) : decodeByte .hexblock (BitVec.ofNat 8 (0x61 + d.val)) = .hexDiglc d := by
  revert d
  decide

theorem ofNat_offset {c : Byte} {first : Nat} (h : first ≤ c.toNat) : BitVec.ofNat 8 (first + (c.toNat - first)) = c := by
  rw [Nat.add_sub_cancel' h, BitVec.ofNat_toNat, BitVec.setWidth_eq]

/-- A byte of a range is its first byte and an offset. -/
theorem exists_offset {c : Byte} {first n : Nat} (hlo : first ≤ c.toNat) (hhi : c.toNat < first + n) :
    ∃ d : Fin n, c = BitVec.ofNat 8 (first + d.val) :=
  ⟨⟨c.toNat - first, by omega⟩, (ofNat_offset hlo).symm⟩

/-- Settles O5: a digit's byte is the first of its class and an offset, which decoding gives back. -/
theorem hexblockClassesOfAByte : Obligations.HexblockClassesOfAByte := by
  intro c
  refine ⟨?cr, ?lf, ?digit09, ?digitUc, ?digitLc, ?discard⟩
  case cr => rintro rfl; exact decodeByte_hexblock_cr
  case lf => rintro rfl; exact decodeByte_hexblock_lf
  case digit09 =>
    intro hlo hhi
    obtain ⟨d, rfl⟩ := exists_offset (n := 10) hlo (by omega)
    exact ⟨d, decodeByte_hexblock_digit09 d, by clear hlo hhi; revert d; decide⟩
  case digitUc =>
    intro hlo hhi
    obtain ⟨d, rfl⟩ := exists_offset (n := 6) hlo (by omega)
    exact ⟨d, decodeByte_hexblock_digitUc d, by clear hlo hhi; revert d; decide⟩
  case digitLc =>
    intro hlo hhi
    obtain ⟨d, rfl⟩ := exists_offset (n := 6) hlo (by omega)
    exact ⟨d, decodeByte_hexblock_digitLc d, by clear hlo hhi; revert d; decide⟩
  case discard =>
    intro hcr hlf h09 huc hlc
    have hdigit : isHexDigit c = false := by
      simp only [isHexDigit, Bool.or_eq_false_iff, Bool.and_eq_false_iff, decide_eq_false_iff_not]
      omega
    exact decodeByte_hexblock_discard (by simp [isTerminator, hcr, hlf]) hdigit

/-! ### Bytes, both ways -/

/-- A NIB.DATA byte is split into the nibbles that it joins. -/
theorem decodeByte_nibble_append {hi lo : BitVec 4} (h : isTerminator (hi ++ lo) = false) :
    decodeByte .nibble (hi ++ lo) = .nibData hi lo := by
  obtain ⟨hcr, hlf⟩ : hi ++ lo ≠ 0x0D#8 ∧ hi ++ lo ≠ 0x0A#8 := by simpa [isTerminator] using h
  rw [decodeByte_nibble_data hcr hlf]
  congr 1
  · exact extract_high (k := 8) hi lo (by decide)
  · exact extract_low (k := 8) hi lo (by decide)

/-- Two neighbouring fields joined, when there is no bit above them. -/
theorem append_extract {k m n : Nat} {x : BitVec k} (h : x.toNat < 2 ^ (m + n)) :
    (x.extractLsb' n m ++ x.extractLsb' 0 n).setWidth k = x := by
  apply BitVec.eq_of_getLsbD_eq
  intro i hi
  rw [BitVec.getLsbD_setWidth, BitVec.getLsbD_append, BitVec.getLsbD_extractLsb', BitVec.getLsbD_extractLsb',
    decide_eq_true hi, Bool.true_and]
  by_cases hn : i < n
  · simp [hn]
  · by_cases hm : i < m + n
    · simp [hn, show i - n < m by omega, show n + (i - n) = i by omega]
    · simp [hn, show ¬ i - n < m by omega, (toNat_lt_iff_getLsbD x).mp h i (by omega)]

theorem encode_decodeByte_nibble (c : Byte) : encode (decodeByte .nibble c).toInstr = .byte .nibble c := by
  by_cases hcr : c = 0x0D#8
  · subst hcr; rfl
  by_cases hlf : c = 0x0A#8
  · subst hlf; rfl
  rw [decodeByte_nibble_data hcr hlf]
  exact congrArg (Code.byte .nibble) (append_extract (k := 8) (m := 4) (n := 4) c.isLt)

theorem encode_decodeByte_hexblock (c : Byte) : encode (decodeByte .hexblock c).toInstr = .byte .hexblock c := by
  rw [decodeByte, decodeHexblock]
  split_ifs with hcr hlf h09 huc hlc
  · subst hcr; rfl
  · subst hlf; rfl
  · exact congrArg (Code.byte .hexblock) (ofNat_offset h09.1)
  · exact congrArg (Code.byte .hexblock) (ofNat_offset huc.1)
  · exact congrArg (Code.byte .hexblock) (ofNat_offset hlc.1)
  · rfl

/-! ### Records, both ways (log 1) -/

/-- The record of a tag has two operands, `lo` of `n` bits from bit 8 on and `hi` of `m` bits above it, of which `f` makes the
instruction; an operand that it does not have is 0 bits wide. -/
structure RecordFormat (tag : Fin 16) {m n : Nat} (f : BitVec n → BitVec m → Instr) : Prop where
  fits    : m + n ≤ 72
  decodes : ∀ w, decodeTag w tag = withZeroAbove w (8 + (m + n)) (f (w.extractLsb' 8 n) (w.extractLsb' (8 + n) m))
  encodes : ∀ lo hi, encode (f lo hi) = .record (packRecord (BitVec.ofFin tag) ((hi ++ lo).setWidth 72))

theorem RecordFormat.of_tag {tag : Fin 16} {i : Instr} (hd : ∀ w, decodeTag w tag = withZeroAbove w 8 i)
    (he : encode i = .record (packRecord (BitVec.ofFin tag) 0)) :
    RecordFormat tag (m := 0) (n := 0) fun _ _ => i where
  fits := by decide
  decodes := hd
  encodes lo hi := by
    rw [he, BitVec.of_length_zero (x := lo), BitVec.of_length_zero (x := hi)]
    rfl

theorem syn_format : RecordFormat 0x0 Instr.syn := ⟨by decide, fun _ => rfl, fun _ _ => rfl⟩

theorem mincorr_format : RecordFormat 0x1 Instr.mincorr := ⟨by decide, fun _ => rfl, fun _ _ => rfl⟩

theorem apply_format : RecordFormat 0x2 (m := 8) (n := 2) fun b s => .apply b.toFin s :=
  ⟨by decide, fun _ => rfl, fun _ _ => rfl⟩

theorem uartArrive_format : RecordFormat 0x9 (m := 0) (n := 8) fun c _ => .uartArrive c where
  fits := by decide
  decodes _ := rfl
  encodes c x := by
    rw [BitVec.zero_width_append, BitVec.setWidth_cast]
    rfl

theorem toNat_setWidth_lt {m k : Nat} (x : BitVec m) : (x.setWidth k).toNat < 2 ^ m := by
  rw [BitVec.toNat_setWidth]
  exact (Nat.mod_le _ _).trans_lt x.isLt

theorem packRecord_first (tag : BitVec 4) (x : BitVec 72) (n : Nat) :
    (packRecord tag x).extractLsb' 8 n = x.extractLsb' 0 n := packRecord_field tag x 0 n

/-- A packed record decodes to the instruction that its operands make. -/
theorem RecordFormat.decode_encode {tag : Fin 16} {m n : Nat} {f : BitVec n → BitVec m → Instr} (h : RecordFormat tag f)
    (lo : BitVec n) (hi : BitVec m) : decode (encode (f lo hi)) = .ok (f lo hi) := by
  have hfits := h.fits
  rw [h.encodes, decode, decodeRequest_packRecord, h.decodes, withZeroAbove_packRecord (toNat_setWidth_lt _),
    packRecord_first, packRecord_field, extract_high hi lo hfits, extract_low hi lo (by omega)]

theorem withZeroAbove_ok {w : ReqWord} {n : Nat} {i j : Instr} (h : withZeroAbove w n i = .ok j) :
    i = j ∧ w.toNat < 2 ^ n := by
  rw [withZeroAbove] at h
  split at h
  · next hz => exact ⟨Except.ok.inj h, Nat.lt_of_div_eq_zero (Nat.two_pow_pos n) hz⟩
  · cases h

/-- A packed record that ends below bit `8 + n` has operands that end below bit `n`. -/
theorem operands_lt {tag : BitVec 4} {x : BitVec 72} {n : Nat} (h : (packRecord tag x).toNat < 2 ^ (8 + n)) :
    x.toNat < 2 ^ n := by
  rw [toNat_lt_iff_getLsbD] at h ⊢
  intro i hi
  have hbit := h (8 + i) (by omega)
  rwa [getLsbD_packRecord, if_neg (by omega), if_neg (by omega), Nat.add_sub_cancel_left] at hbit

/-- A record that decodes is packed from the operands that are read from it. -/
theorem RecordFormat.encode_decode {tag : Fin 16} {m n : Nat} {f : BitVec n → BitVec m → Instr} (h : RecordFormat tag f)
    {x : BitVec 72} {i : Instr} (hi : decodeTag (packRecord (BitVec.ofFin tag) x) tag = .ok i) :
    encode i = .record (packRecord (BitVec.ofFin tag) x) := by
  rw [h.decodes] at hi
  obtain ⟨rfl, hlt⟩ := withZeroAbove_ok hi
  rw [h.encodes, packRecord_first, packRecord_field, append_extract (operands_lt hlt)]

/-- Every tag has its format. -/
theorem exists_format : ∀ tag : Fin 16, ∃ (m n : Nat) (f : BitVec n → BitVec m → Instr), RecordFormat tag f
  | 0x0 => ⟨_, _, _, syn_format⟩
  | 0x1 => ⟨_, _, _, mincorr_format⟩
  | 0x2 => ⟨_, _, _, apply_format⟩
  | 0x3 => ⟨_, _, _, .of_tag (i := .applyBatch) (fun _ => rfl) rfl⟩
  | 0x4 => ⟨_, _, _, .of_tag (i := .refresh) (fun _ => rfl) rfl⟩
  | 0x5 => ⟨_, _, _, .of_tag (i := .poll) (fun _ => rfl) rfl⟩
  | 0x6 => ⟨_, _, _, .of_tag (i := .ackBatch) (fun _ => rfl) rfl⟩
  | 0x7 => ⟨_, _, _, .of_tag (i := .csEnter) (fun _ => rfl) rfl⟩
  | 0x8 => ⟨_, _, _, .of_tag (i := .csExit) (fun _ => rfl) rfl⟩
  | 0x9 => ⟨_, _, _, uartArrive_format⟩
  | 0xA => ⟨_, _, _, .of_tag (i := .isrRx) (fun _ => rfl) rfl⟩
  | 0xB => ⟨_, _, _, .of_tag (i := .sample) (fun _ => rfl) rfl⟩
  | 0xC => ⟨_, _, _, .of_tag (i := .report) (fun _ => rfl) rfl⟩
  | 0xD => ⟨_, _, _, .of_tag (i := .rxCycle) (fun _ => rfl) rfl⟩
  | 0xE => ⟨_, _, _, .of_tag (i := .reservedE) (fun _ => rfl) rfl⟩
  | 0xF => ⟨_, _, _, .of_tag (i := .reservedF) (fun _ => rfl) rfl⟩
  | ⟨_ + 16, h⟩ => absurd h (by omega)

/-- A record with zeros in bits 7..4 is packed from its tag and its operand bits. -/
theorem packRecord_extract {w : ReqWord} (h : w.extractLsb' 4 4 = 0#4) :
    packRecord (w.extractLsb' 0 4) (w.extractLsb' 8 72) = w := by
  apply BitVec.eq_of_getLsbD_eq
  intro i hi
  rw [getLsbD_packRecord]
  by_cases h4 : i < 4
  · simp [h4]
  · by_cases h8 : i < 8
    · have hbit : (w.extractLsb' 4 4).getLsbD (i - 4) = false := by rw [h]; simp
      rw [BitVec.getLsbD_extractLsb', show 4 + (i - 4) = i by omega] at hbit
      simpa [h4, h8, show i - 4 < 4 by omega] using hbit.symm
    · simp [h4, h8, show i - 8 < 72 by omega, show 8 + (i - 8) = i by omega]

theorem encode_decodeRequest {w : ReqWord} {i : Instr} (h : decodeRequest w = .ok i) : encode i = .record w := by
  by_cases hz : w.extractLsb' 4 4 = 0#4
  · obtain ⟨m, n, f, hformat⟩ := exists_format (w.extractLsb' 0 4).toFin
    rw [← packRecord_extract hz, decodeRequest_packRecord] at h
    rw [← packRecord_extract hz]
    exact hformat.encode_decode h
  · rw [decodeRequest, if_neg hz] at h
    cases h

/-- Settles O2: a byte is its class's first byte and its offset, or its nibbles; a record is packed from the fields read from it. -/
theorem everyCodeHasOneMeaning : Obligations.EveryCodeHasOneMeaning := by
  intro x i hi
  cases x with
  | byte p c =>
    cases hi
    cases p with
    | nibble => exact encode_decodeByte_nibble c
    | hexblock => exact encode_decodeByte_hexblock c
  | record w => exact encode_decodeRequest hi

/-- Settles O1: a byte by its class, a record by its format. -/
theorem decodeEncodeAgree : Obligations.DecodeEncodeAgree := by
  intro i hwf
  cases i with
  | nibTerm t => cases t <;> rfl
  | nibData hi lo =>
    have hterm : isTerminator (hi ++ lo) = false := by simpa [Instr.WellFormed, Instr.wellFormed] using hwf
    exact congrArg (Except.ok ∘ InputClass.toInstr) (decodeByte_nibble_append hterm)
  | hexTerm t => cases t <;> rfl
  | hexDig09 d => exact congrArg (Except.ok ∘ InputClass.toInstr) (decodeByte_hexblock_digit09 d)
  | hexDiguc d => exact congrArg (Except.ok ∘ InputClass.toInstr) (decodeByte_hexblock_digitUc d)
  | hexDiglc d => exact congrArg (Except.ok ∘ InputClass.toInstr) (decodeByte_hexblock_digitLc d)
  | hexDiscard c =>
    obtain ⟨hterm, hdigit⟩ : isTerminator c = false ∧ isHexDigit c = false := by
      simpa [Instr.WellFormed, Instr.wellFormed] using hwf
    exact congrArg (Except.ok ∘ InputClass.toInstr) (decodeByte_hexblock_discard hterm hdigit)
  | syn v r => exact syn_format.decode_encode v r
  | mincorr t r => exact mincorr_format.decode_encode t r
  | apply b s => exact apply_format.decode_encode (BitVec.ofFin (w := 2) b) s
  | uartArrive c => exact uartArrive_format.decode_encode c 0
  | applyBatch | refresh | poll | ackBatch | csEnter | csExit | isrRx | sample | report | rxCycle =>
    exact (RecordFormat.of_tag (fun _ => rfl) rfl).decode_encode 0 0
  | reservedE | reservedF => cases hwf

/-- Settles O3: the words are decoded one by one. -/
theorem writtenOutWordsDecode : Obligations.WrittenOutWordsDecode := by
  unfold Obligations.WrittenOutWordsDecode
  decide

end Sys2Proof
end

section
/-! Proofs: the codec as a matrix product and the shared requests (41_codec.md, 60_exceptions.md sections 2 and 3). -/

namespace Sys2Proof

open Machine

/-! ### SYN bit by bit (41_codec.md R81) -/

theorem getLsbD_foldColumns (u : Word) (n j : Nat) (hj : j < 8) :
    (foldColumns u n).getLsbD j =
      (List.range n).foldl (fun p i => p ^^ (u.getLsbD i && (i + 1).testBit j)) false := by
  induction n with
  | zero => simp [foldColumns]
  | succ n ih =>
    rw [List.range_succ, List.foldl_append, List.foldl_cons, List.foldl_nil, ← ih, foldColumns]
    have hcol : (BitVec.ofNat 8 (n + 1)).getLsbD j = (n + 1).testBit j := by
      rw [BitVec.getLsbD_ofNat, decide_eq_true hj, Bool.true_and]
    cases u.getLsbD n
    · simp
    · simp [hcol]

/-- The fold over the first `n` columns reads only the low `n` bits. -/
theorem foldColumns_maskLow (v : Word) {n m : Nat} (h : n ≤ m) : foldColumns (maskLow m v) n = foldColumns v n := by
  induction n with
  | zero => rfl
  | succ n ih => simp only [foldColumns, ih (by omega), getLsbD_maskLow, decide_eq_true (show n < m by omega), Bool.true_and]

/-- Settles O7: each step of the column fold is one term of each bit's parity. -/
theorem synIsTheMatrixProduct : Obligations.SynIsTheMatrixProduct := by
  intro v r j hlegal
  have hr := legalWidth_le_six hlegal
  by_cases hj : j < r
  · rw [decide_eq_true hj, Bool.true_and, syn, foldColumns_maskLow v le_rfl, getLsbD_foldColumns _ _ _ (by omega)]
  · rw [decide_eq_false hj, Bool.false_and]
    exact (toNat_lt_iff_getLsbD _).mp (syn_lt v r) j (by omega)

/-- Settles O9: MINCORR's vector has the reduced target as its syndrome. -/
theorem correctionHasItsTarget : Obligations.CorrectionHasItsTarget := by
  intro t r hlegal
  rw [syn_of_mincorr t r (legalWidth_le_six hlegal), toNat_maskLow]

/-! ### Requests that either node serves (log 8) -/

theorem onSite_runs (f : State → State) {s : State} (h : s.siteEnabled = true) : s.onSite f = f s := by
  rw [State.onSite, if_pos h]

theorem mapSite_tx (f : Control → Control) {s : State} (h : s.site = .tx) :
    s.mapSite f = { s with tx := { s.tx with ctl := f s.tx.ctl } } := by
  rw [State.mapSite, h]

theorem mapSite_rx (f : Control → Control) {s : State} (h : s.site = .rx) :
    s.mapSite f = { s with rx := { s.rx with ctl := f s.rx.ctl } } := by
  rw [State.mapSite, h]

/-- A codec request of a legal width answers; one of another width is refused at the node that serves it. -/
theorem codecRequest_answers {s : State} (h : s.siteEnabled = true) (legal : Bool) (i : Instr) (x : Word) :
    (legal = true → codecRequest legal i x s = { s with results := s.results ++ [x] }) ∧
    (legal = false → s.site = .tx →
      codecRequest legal i x s = { s with tx := { s.tx with ctl := { s.tx.ctl with fault := some (.refused i) } } }) ∧
    (legal = false → s.site = .rx →
      codecRequest legal i x s = { s with rx := { s.rx with ctl := { s.rx.ctl with fault := some (.refused i) } } }) := by
  have hrun : codecRequest legal i x s = if legal then s.answer x else s.mapSite (·.raise (.refused i)) := onSite_runs _ h
  rw [hrun]
  refine ⟨?answer, ?tx, ?rx⟩
  case answer => rintro rfl; rfl
  case tx => rintro rfl hsite; rw [if_neg nofun, mapSite_tx _ hsite]; rfl
  case rx => rintro rfl hsite; rw [if_neg nofun, mapSite_rx _ hsite]; rfl

/-- Settles O11: a legal width answers, any other is refused at the node that serves the request. -/
theorem synRequestAnswers : Obligations.SynRequestAnswers := by
  intro s v r hs
  obtain ⟨hanswer, htx, hrx⟩ := codecRequest_answers hs (legalWidth r.toNat) (.syn v r) ((syn v r.toNat).setWidth 64)
  exact ⟨fun hl => congrArg _ (hanswer hl), fun hl hsite => congrArg _ (htx hl hsite),
    fun hl hsite => congrArg _ (hrx hl hsite)⟩

theorem mincorr_eq (t : Byte) (r : Nat) :
    mincorr t r = if t.toNat % 2 ^ r = 0 then 0#64 else 1#64 <<< (t.toNat % 2 ^ r - 1) := by
  rw [mincorr, correctionVector, toNat_maskLow]
  rfl

/-- Settles O12: as SYN, with the table's formula at the reduced target. -/
theorem mincorrRequestAnswers : Obligations.MincorrRequestAnswers := by
  intro s t r hs
  rw [← mincorr_eq]
  obtain ⟨hanswer, htx, hrx⟩ := codecRequest_answers hs (legalWidth r.toNat) (.mincorr t r) (mincorr t r.toNat)
  exact ⟨fun hl => congrArg _ (hanswer hl), fun hl hsite => congrArg _ (htx hl hsite),
    fun hl hsite => congrArg _ (hrx hl hsite)⟩

theorem exec_csEnter {s : State} (h : s.siteEnabled = true) : exec .csEnter s = .next (s.mapSite Control.csEnter) :=
  congrArg _ (onSite_runs _ h)

theorem exec_csExit {s : State} (h : s.siteEnabled = true) : exec .csExit s = .next (s.mapSite Control.csExit) :=
  congrArg _ (onSite_runs _ h)

/-- Settles O32: outside a section CSEnter masks, inside one it faults. -/
theorem enterMasksInterrupts : Obligations.EnterMasksInterrupts := by
  intro s hs
  rw [exec_csEnter hs]
  refine ⟨fun hsite hout => ?_, fun hsite hin => ?_, fun hsite hout => ?_, fun hsite hin => ?_⟩
  · rw [mapSite_tx _ hsite, Control.csEnter_outside hout]; rfl
  · rw [mapSite_tx _ hsite, Control.csEnter_inside hin]; rfl
  · rw [mapSite_rx _ hsite, Control.csEnter_outside hout]; rfl
  · rw [mapSite_rx _ hsite, Control.csEnter_inside hin]; rfl

/-- Settles O33: inside a section CSExit unmasks, outside one it faults. -/
theorem exitRestoresInterrupts : Obligations.ExitRestoresInterrupts := by
  intro s hs
  rw [exec_csExit hs]
  refine ⟨fun hsite hin => ?_, fun hsite hout => ?_, fun hsite hin => ?_, fun hsite hout => ?_⟩
  · rw [mapSite_tx _ hsite, Control.csExit_inside hin]; rfl
  · rw [mapSite_tx _ hsite, Control.csExit_outside hout]; rfl
  · rw [mapSite_rx _ hsite, Control.csExit_inside hin]; rfl
  · rw [mapSite_rx _ hsite, Control.csExit_outside hout]; rfl

/-- Settles O37: both tags are one refusal, raised at the serving node. -/
theorem reservedTagsAreRefused : Obligations.ReservedTagsAreRefused := by
  intro s i hi hs
  have hexec : exec i s = .next (s.mapSite (·.raise (.refused i))) := by
    rcases hi with rfl | rfl <;> exact congrArg _ (onSite_runs _ hs)
  rw [hexec]
  exact ⟨fun hsite => by rw [mapSite_tx _ hsite]; rfl, fun hsite => by rw [mapSite_rx _ hsite]; rfl⟩

/-! ### Arrival and interrupt (60_exceptions.md R148, R149) -/

/-- An overrun draw takes the outcome that is listed next. -/
theorem drawOverrun_listed (f : TxNode → TxNode) {s : State} {r : Bool} {rest : List Bool} (h : s.env.overrun = r :: rest) :
    s.drawOverrun f = { s with tx := if r then f s.tx else s.tx, env := { s.env with overrun := rest } } := by
  simp [State.drawOverrun, Env.overrunReplaces, Env.afterOverrun, h]

/-- With none listed an overrun draw has either outcome, and only the counter goes up. -/
theorem drawOverrun_free (f : TxNode → TxNode) {s : State} (h : s.env.overrun = []) :
    s.drawOverrun f = { s with tx := f s.tx, env := { s.env with taken := s.env.taken + 1 } } ∨
      s.drawOverrun f = { s with env := { s.env with taken := s.env.taken + 1 } } := by
  rw [State.drawOverrun, Env.overrunReplaces, Env.afterOverrun, h]
  cases Config.freeOverrun s.env.taken with
  | true => exact .inl (by simp [h])
  | false => exact .inr (by simp [h])

theorem fillUart_pending {t : TxNode} (c : Byte) (h : t.uartPend = true) : t.fillUart c = { t with uartByte := c } := by
  rw [TxNode.fillUart, ← h]

theorem fillSlot_full {t : TxNode} (c : Byte) (h : t.slotFull = true) : t.fillSlot c = { t with slotData := c } := by
  rw [TxNode.fillSlot, ← h]

theorem exec_uartArrive {s : State} (h : s.tx.ctl.fault = none) (c : Byte) :
    exec (.uartArrive c) s = .next (s.uartArrive c) := by
  rw [exec, execUartArrive, if_pos (show s.txEnabled = true from (Control.alive_iff _).mpr h)]

theorem uartArrive_empty {s : State} (c : Byte) (h : s.tx.uartPend = false) :
    s.uartArrive c = { s with tx := s.tx.fillUart c } := by
  rw [State.uartArrive, h, if_neg nofun]

theorem uartArrive_pending {s : State} (c : Byte) (h : s.tx.uartPend = true) :
    s.uartArrive c = s.drawOverrun (TxNode.fillUart c) := by
  rw [State.uartArrive, if_pos h]

/-- Settles O34: with a byte pending the outcome is one overrun draw. -/
theorem arrivalKeepsOneByte : Obligations.ArrivalKeepsOneByte := by
  intro s c hfault
  rw [exec_uartArrive hfault]
  refine ⟨fun hfree => ?kept, fun hpend hnone => ?free, fun hpend rest hlist => ?replaced, fun hpend rest hlist => ?lost⟩
  case kept => rw [uartArrive_empty c hfree]; rfl
  case free =>
    rw [uartArrive_pending c hpend, ← fillUart_pending c hpend]
    exact (drawOverrun_free _ hnone).imp (congrArg _) (congrArg _)
  case replaced =>
    rw [uartArrive_pending c hpend, ← fillUart_pending c hpend, drawOverrun_listed _ hlist]
    rfl
  case lost =>
    rw [uartArrive_pending c hpend, drawOverrun_listed _ hlist]
    rfl

theorem exec_isrRx {s : State} (h : s.tx.ctl.fault = none) (hpend : s.tx.uartPend = true) (hie : s.tx.ctl.ie = true) :
    exec .isrRx s = .next s.isrBody := by
  have htaken : (s.txEnabled && s.tx.interruptTaken) = true := by
    simp [State.txEnabled, TxNode.interruptTaken, h, hpend, hie]
  rw [exec, execIsrRx, if_pos htaken]

theorem exec_isrRx_waits {s : State} (h : s.tx.uartPend = false ∨ s.tx.ctl.ie = false) : exec .isrRx s = .next s := by
  have htaken : (s.txEnabled && s.tx.interruptTaken) = false := by
    rcases h with h | h <;> simp [TxNode.interruptTaken, h]
  rw [exec, execIsrRx, htaken, if_neg nofun]

theorem exec_isrRx_empty {s : State} (h : s.tx.ctl.fault = none) (hpend : s.tx.uartPend = true)
    (hie : s.tx.ctl.ie = true) (hempty : s.tx.slotFull = false) :
    exec .isrRx s = .next { s with tx := s.tx.clearUart.fillSlot s.tx.uartByte } := by
  rw [exec_isrRx h hpend hie, State.isrBody, hempty, if_neg nofun]

theorem exec_isrRx_full {s : State} (h : s.tx.ctl.fault = none) (hpend : s.tx.uartPend = true) (hie : s.tx.ctl.ie = true)
    (hfull : s.tx.slotFull = true) :
    exec .isrRx s = .next (({ s with tx := s.tx.clearUart } : State).drawOverrun (TxNode.fillSlot s.tx.uartByte)) := by
  rw [exec_isrRx h hpend hie, State.isrBody, if_pos hfull]

/-- Settles O35: the pending byte goes into an empty slot; into a full one its fate is one overrun draw. -/
theorem interruptMovesThePendingByte : Obligations.InterruptMovesThePendingByte := by
  intro s hfault
  have hfill (hfull : s.tx.slotFull = true) := fillSlot_full (t := s.tx.clearUart) s.tx.uartByte hfull
  refine ⟨fun hpend hie hempty => ?stored, fun hpend hie hfull hnone => ?free, fun hpend hie hfull rest hlist => ?replaced,
    fun hpend hie hfull rest hlist => ?lost, exec_isrRx_waits⟩
  case stored => exact exec_isrRx_empty hfault hpend hie hempty
  case free =>
    have hdraw := drawOverrun_free (s := { s with tx := s.tx.clearUart }) (TxNode.fillSlot s.tx.uartByte) hnone
    rw [hfill hfull] at hdraw
    rw [exec_isrRx_full hfault hpend hie hfull]
    exact hdraw.imp (congrArg _) (congrArg _)
  case replaced =>
    have hdraw := drawOverrun_listed (s := { s with tx := s.tx.clearUart }) (TxNode.fillSlot s.tx.uartByte) hlist
    rw [exec_isrRx_full hfault hpend hie hfull, hdraw, if_pos rfl, hfill hfull]
    rfl
  case lost =>
    rw [exec_isrRx_full hfault hpend hie hfull]
    exact congrArg _ (drawOverrun_listed (s := { s with tx := s.tx.clearUart }) (TxNode.fillSlot s.tx.uartByte) hlist)

theorem exec_poll_waits {s : State} (h : s.tx.slotFull = false) : exec .poll s = .next s := by
  have hpoll : s.tx.poll = s.tx := by rw [TxNode.poll, h, if_neg nofun]
  rw [exec, execPoll, State.onTx, hpoll]
  exact congrArg _ (ite_self s)

/-- Settles O39: the slot is empty and nothing is pending. -/
theorem quiescentTransmitterWaits : Obligations.QuiescentTransmitterWaits := fun _ h =>
  ⟨exec_poll_waits h.slotEmpty, exec_isrRx_waits (.inl h.nothingIn)⟩

/-! ### POLL and a paced SEND (43_framer.md R102, 30_encoding.md R78) -/

/-- POLL is the instruction of the slot's byte at the state with the slot emptied. -/
theorem exec_poll_eq_exec {s : State} (h : s.tx.ctl.fault = none) (hfull : s.tx.slotFull = true) :
    exec .poll s =
      exec (decodeByte s.tx.cfg.policy s.tx.slotData).toInstr { s with tx := { s.tx with slotFull := false } } := by
  rw [exec_poll h hfull, exec_toInstr _ { s with tx := { s.tx with slotFull := false } } h (decodeByte_policy _ _).symm]
  rfl

/-- A byte that has passed through an empty buffer and an empty slot is left in both, and nothing else is changed. -/
theorem passedThrough_eq {t : TxNode} (c : Byte) (hpend : t.uartPend = false) (hslot : t.slotFull = false) :
    { (t.fillUart c).clearUart.fillSlot c with slotFull := false } = { t with uartByte := c, slotData := c } := by
  cases t
  cases hpend
  cases hslot
  rfl

theorem runAll_singleton (i : Instr) (s : State) : runAll [i] s = exec i s := by
  rw [runAll]
  cases exec i s <;> rfl

/-- Settles O38: the byte passes through the empty buffer and the empty slot, and POLL runs its FEED. -/
theorem pacedSendFeedsItsByte : Obligations.PacedSendFeedsItsByte := by
  intro s c hpaced hfault hie
  obtain ⟨hpend, hslot⟩ := hpaced
  have harrive : exec (.uartArrive c) s = .next { s with tx := s.tx.fillUart c } := by
    rw [exec_uartArrive hfault, uartArrive_empty c hpend]
  have hisr : exec .isrRx { s with tx := s.tx.fillUart c } =
      .next { s with tx := (s.tx.fillUart c).clearUart.fillSlot c } :=
    exec_isrRx_empty (s := { s with tx := s.tx.fillUart c }) hfault rfl hie hslot
  have hpoll := exec_poll_eq_exec (s := { s with tx := (s.tx.fillUart c).clearUart.fillSlot c }) hfault rfl
  rw [runAll_cons_of_next _ harrive, runAll_cons_of_next _ hisr]
  calc runAll [.poll] { s with tx := (s.tx.fillUart c).clearUart.fillSlot c }
      = exec .poll { s with tx := (s.tx.fillUart c).clearUart.fillSlot c } := runAll_singleton _ _
    _ = exec (decodeByte s.tx.cfg.policy c).toInstr { s with tx := _ } := hpoll
    _ = exec (decodeByte s.tx.cfg.policy c).toInstr { s with tx := { s.tx with uartByte := c, slotData := c } } := by
      rw [← passedThrough_eq c hpend hslot]

end Sys2Proof
end

section
/-! Proofs: APPLY, APPLYBATCH and the aggregate vector (42_encoder.md). -/

namespace Sys2Proof

open Machine

/-! ### What APPLY leaves in V (42_encoder.md R94, R95) -/

theorem toNat_syn_flipped {t : TxNode} {b : BlockIdx} (d : Byte) (hr : t.cfg.rAt b ≤ 6) :
    (syn (t.flipped b d) (t.cfg.rAt b)).toNat = d.toNat % 2 ^ t.cfg.rAt b := by
  rw [TxNode.syn_flipped d hr, TxNode.target, toNat_maskLow]

/-- Settles O14: the corrected vector has the reduced target as its syndrome. -/
theorem applyReachesTheTarget : Obligations.ApplyReachesTheTarget := by
  intro s b d hready hb
  refine ⟨_, exec_apply hready b d hb, ?_⟩
  rw [applied_v_same, toNat_syn_flipped d (width_le_six hready.wellFormed hb)]

/-- The correction of APPLY has no bit exactly when the reduced target is the old syndrome, else one. -/
theorem weight_correction {t : TxNode} {b : BlockIdx} (d : Byte) (hr : t.cfg.rAt b ≤ 6) :
    weight (t.correction b d) = if d.toNat % 2 ^ t.cfg.rAt b = (syn t.v[b] (t.cfg.rAt b)).toNat then 0 else 1 := by
  have hlt : (t.target b d ^^^ syn t.v[b] (t.cfg.rAt b)).toNat < 2 ^ t.cfg.rAt b := by
    rw [BitVec.toNat_xor]
    exact Nat.xor_lt_two_pow (maskLow_toNat_lt _ _) (syn_lt _ _)
  have hzero : t.target b d ^^^ syn t.v[b] (t.cfg.rAt b) = 0 ↔
      d.toNat % 2 ^ t.cfg.rAt b = (syn t.v[b] (t.cfg.rAt b)).toNat := by
    rw [← toNat_maskLow, BitVec.toNat_inj]
    exact BitVec.xor_eq_zero_iff
  rw [TxNode.correction, weight_mincorr hr hlt]
  simp only [hzero]

/-- Settles O15: the change of V[b] is the correction, and APPLY writes no other block. -/
theorem applyFlipsAtMostOneWire : Obligations.ApplyFlipsAtMostOneWire := by
  intro s b d hready hsound hb
  have hr := width_le_six hready.wellFormed hb
  refine ⟨_, exec_apply hready b d hb, ?weight, fun b' hne => ?other⟩
  case weight =>
    rw [applied_v_same, TxNode.flipped_eq d hr (hsound.vector b), ← BitVec.xor_assoc, BitVec.xor_self, BitVec.zero_xor]
    exact weight_correction d hr
  case other => rw [TxNode.applied_v, if_neg hne]

/-! ### APPLYBATCH (42_encoder.md R93) -/

theorem exec_apply_calm {s : State} (h : s.tx.ctl.Calm) (b : BlockIdx) (d : Byte) (hb : b.val < s.tx.cfg.k) :
    exec (.apply b d) s = .next { s with tx := s.tx.applied b d } := by
  rw [exec_apply_of_noFault h.noFault, TxNode.apply_runs _ hb h]

theorem exec_refresh_calm {s : State} (h : s.tx.ctl.Calm) : exec .refresh s = .next { s with tx := s.tx.refreshed } := by
  rw [exec_refresh_of_noFault h.noFault, TxNode.refresh_runs h]

theorem exec_applyBatch {s : State} (h : s.tx.ctl.fault = none) :
    exec .applyBatch s = .next { s with tx := s.tx.applyBatch } := by
  rw [exec, execApplyBatch, State.onTx_runs _ h]

/-- The requests of a block of the loop, and then further ones. -/
theorem runAll_round {s : State} {b : BlockIdx} (h : s.tx.ctl.Calm) (hb : b.val < s.tx.cfg.k) (is : List Instr) :
    runAll (s.tx.requestsOf [b] ++ is) s = runAll is { s with tx := s.tx.roundDone b } := by
  have happly := exec_apply_calm h b (zext8 s.tx.buf[b].digit) hb
  have hcalm := (s.tx.applied_driven b (zext8 s.tx.buf[b].digit)).calm h
  have hrefresh := exec_refresh_calm (s := { s with tx := s.tx.applied b (zext8 s.tx.buf[b].digit) }) hcalm
  rw [TxNode.roundDone, TxNode.requestsOf, List.flatMap_singleton]
  split
  · rw [List.cons_append, runAll_cons_of_next _ happly, List.singleton_append, runAll_cons_of_next _ hrefresh]
  · rw [List.cons_append, runAll_cons_of_next _ happly, List.nil_append]

/-- The requests of the blocks of the loop run as the loop does. -/
theorem runAll_requestsOf (bs : List BlockIdx) {s : State} (h : s.tx.ctl.Calm) (hb : ∀ b ∈ bs, b.val < s.tx.cfg.k) :
    runAll (s.tx.requestsOf bs) s = .next { s with tx := TxNode.roundsDone bs s.tx } := by
  induction bs generalizing s with
  | nil => rfl
  | cons b bs ih =>
    have hd := s.tx.roundDone_driven b
    have hrest : s.tx.requestsOf bs = (s.tx.roundDone b).requestsOf bs := by
      rw [TxNode.requestsOf, TxNode.requestsOf, hd.cfg, hd.buf]
    have hcons : s.tx.requestsOf (b :: bs) = s.tx.requestsOf [b] ++ s.tx.requestsOf bs := by simp [TxNode.requestsOf]
    rw [hcons, runAll_round h (hb b (by simp)), hrest]
    exact ih (s := { s with tx := s.tx.roundDone b }) (hd.calm h) fun b' hb' => by
      change b'.val < (s.tx.roundDone b).cfg.k
      rw [hd.cfg]
      exact hb b' (by simp [hb'])

theorem blocks_ne_nil {c : CfgTx} (h : c.WellFormed) : c.blocks ≠ [] :=
  List.ne_nil_of_mem ((c.mem_blocks 0).mpr h.k_pos)

/-- The rounds of APPLYBATCH leave every active block at its digit's target. -/
theorem toNat_syn_roundsDone {t : TxNode} (hwf : t.cfg.WellFormed) {b : BlockIdx} (hb : b.val < t.cfg.k) :
    (syn (TxNode.roundsDone t.cfg.blocks t).v[b] (t.cfg.rAt b)).toNat = t.buf[b].digit.toNat % 2 ^ t.cfg.rAt b := by
  rw [TxNode.roundsDone_v _ t.cfg.blocks_nodup, if_pos ((t.cfg.mem_blocks b).mpr hb),
    toNat_syn_flipped _ (width_le_six hwf hb), zext8, BitVec.toNat_setWidth_of_le (by decide)]

/-- Settles O17: both sides are the rounds of the active blocks, each of which is flipped once. -/
theorem applyBatchAppliesEveryBlock : Obligations.ApplyBatchAppliesEveryBlock := by
  intro s hready hwritten
  have hexec : exec .applyBatch s = .next { s with tx := TxNode.roundsDone s.tx.cfg.blocks s.tx } := by
    rw [exec_applyBatch hready.noFault, TxNode.applyBatch_runs hready.calm hwritten]
  have hv (b : BlockIdx) := TxNode.roundsDone_v s.tx.cfg.blocks s.tx.cfg.blocks_nodup s.tx b
  refine ⟨?run, _, hexec, (TxNode.roundsDone_driven _ _).state s rfl, ?savedIe, fun b hb => ?active, fun b hb => ?other⟩
  case run =>
    rw [hexec, TxNode.batchRequests, runAll_requestsOf _ hready.calm fun b hb => (s.tx.cfg.mem_blocks b).mp hb]
  case savedIe => rw [TxNode.roundsDone_savedIe, if_neg (blocks_ne_nil hready.wellFormed)]
  case active =>
    exact ⟨(hv b).trans (if_pos ((s.tx.cfg.mem_blocks b).mpr hb)), toNat_syn_roundsDone hready.wellFormed hb⟩
  case other => exact (hv b).trans (if_neg ((s.tx.cfg.mem_blocks b).not.mpr (by omega)))

/-- The blocks below an active one are the active blocks of a transmitter with that many. -/
theorem blocks_take {c : CfgTx} {b : BlockIdx} (hb : b.val < c.k) :
    c.blocks.take b.val = ({ c with k := b.val } : CfgTx).blocks := by
  rw [CfgTx.blocks, List.take_take, min_eq_left hb.le]
  rfl

theorem mem_blocks_take {c : CfgTx} {b : BlockIdx} (hb : b.val < c.k) (b' : BlockIdx) :
    b' ∈ c.blocks.take b.val ↔ b'.val < b.val := by
  rw [blocks_take hb, CfgTx.mem_blocks]

theorem blocks_drop {c : CfgTx} {b : BlockIdx} (hb : b.val < c.k) :
    c.blocks.drop b.val = b :: c.blocks.drop (b.val + 1) := by
  have hall : ∀ b : BlockIdx, ([0, 1, 2, 3] : List BlockIdx)[b.val] = b := by decide
  have hlen : b.val < c.blocks.length := by simp [CfgTx.blocks, hb]
  rw [List.drop_eq_getElem_cons hlen]
  congr 1
  exact (List.getElem_take ..).trans (hall b)

/-- APPLYBATCH goes through the written blocks below the first unwritten one and faults there. -/
theorem applyBatch_unwritten {t : TxNode} {b : BlockIdx} (hc : t.ctl.Calm) (hb : b.val < t.cfg.k)
    (hw : t.buf[b].written = false) (hbelow : ∀ b' : BlockIdx, b'.val < b.val → t.buf[b'].written = true) :
    t.applyBatch = (TxNode.roundsDone (t.cfg.blocks.take b.val) t).raise .unwritten := by
  have hd := TxNode.roundsDone_driven (t.cfg.blocks.take b.val) t
  have hruns (b' : BlockIdx) (hb' : b' ∈ t.cfg.blocks.take b.val) : b'.val < t.cfg.k ∧ t.buf[b'].written = true := by
    have hlt := (mem_blocks_take hb b').mp hb'
    exact ⟨hlt.trans hb, hbelow b' hlt⟩
  rw [TxNode.applyBatch]
  conv_lhs => rw [← List.take_append_drop b.val t.cfg.blocks]
  rw [blocks_drop hb, TxNode.applyBlocks_append _ _ hc hruns, TxNode.applyBlocks_unwritten (by rw [hd.buf]; exact hw)]

/-- Settles O18: the loop's rounds below the unwritten entry are kept; entry 0 is read before any section is entered. -/
theorem applyBatchOfUnwrittenBufferFaults : Obligations.ApplyBatchOfUnwrittenBufferFaults := by
  refine ⟨?_, fun _ _ d b => resetWith_written _ d b⟩
  intro s b hfault hsection hb hw hbelow
  have hv (b' : BlockIdx) : (TxNode.roundsDone (s.tx.cfg.blocks.take b.val) s.tx).v[b'] =
      if b'.val < b.val then s.tx.flipped b' (s.tx.buf[b'].digit.setWidth 8) else s.tx.v[b'] := by
    have hnodup := s.tx.cfg.blocks_nodup.sublist (List.take_sublist b.val _)
    simp only [TxNode.roundsDone_v _ hnodup, mem_blocks_take hb]
    rfl
  refine ⟨{ s with tx := TxNode.roundsDone (s.tx.cfg.blocks.take b.val) s.tx }, ?run,
    (TxNode.roundsDone_driven _ _).state s rfl, hv, ?fault⟩
  all_goals rcases hsection with hout | rfl
  case run.inl =>
    exact runAll_requestsOf _ ⟨hfault, hout⟩ fun b' hb' => ((mem_blocks_take hb b').mp hb').trans hb
  case run.inr => rfl
  case fault.inl =>
    rw [exec_applyBatch hfault, applyBatch_unwritten ⟨hfault, hout⟩ hb hw hbelow]
    rfl
  case fault.inr =>
    have hblocks : s.tx.cfg.blocks = 0 :: s.tx.cfg.blocks.drop 1 := blocks_drop hb
    rw [exec_applyBatch hfault, TxNode.applyBatch, hblocks, TxNode.applyBlocks_unwritten hw]
    rfl

/-! ### The aggregate vector (42_encoder.md R100) -/

/-- A block has no bit outside its range of the aggregate vector. -/
theorem getLsbD_shifted_outside {t : TxNode} (h : t.Sound) (b : BlockIdx) {p : Nat}
    (hp : p < t.cfg.off b ∨ t.cfg.off b + t.cfg.nAt b ≤ p) : (t.v[b] <<< t.cfg.off b).getLsbD p = false := by
  rw [BitVec.getLsbD_shiftLeft]
  rcases hp with hp | hp
  · simp [hp]
  · rw [(toNat_lt_iff_getLsbD _).mp (h.vector b) _ (by omega), Bool.and_false]

/-- Settles O19: the ranges of the blocks are disjoint and end at NSUM, and a block has bits in its own range only. -/
theorem aggregatePlacesEveryBlock : Obligations.AggregatePlacesEveryBlock := by
  intro t hwf hsound
  have hend (b : BlockIdx) (hb : b.val < t.cfg.k) : t.cfg.off b + t.cfg.nAt b ≤ t.cfg.nsum := t.cfg.off_add_nAt_le hb
  have h64 : t.cfg.nsum ≤ 64 := hwf.nsum_le.trans hwf.total_le
  refine ⟨fun b i hb hi => ?inside, fun p hp => ?above⟩
  case inside =>
    have hown : (t.v[b] <<< t.cfg.off b).getLsbD (t.cfg.off b + i) = t.v[b].getLsbD i := by
      have := hend b hb
      rw [BitVec.getLsbD_shiftLeft, decide_eq_true (by omega), decide_eq_false (by omega), Nat.add_sub_cancel_left]
      rfl
    have hother (b' : BlockIdx) (hne : b' ≠ b) : (t.v[b'] <<< t.cfg.off b').getLsbD (t.cfg.off b + i) = false := by
      refine getLsbD_shifted_outside hsound b' ?_
      rcases Nat.lt_or_gt_of_ne (Fin.val_ne_of_ne hne) with hlt | hgt
      · have := t.cfg.off_add_nAt_le hlt
        omega
      · have := t.cfg.off_add_nAt_le hgt
        omega
    rw [TxNode.getLsbD_agg, ← hown, Bool.eq_iff_iff, List.any_eq_true]
    constructor
    · rintro ⟨b', -, hbit⟩
      by_cases hne : b' = b
      · exact hne ▸ hbit
      · rw [hother b' hne] at hbit
        cases hbit
    · exact fun hbit => ⟨b, (t.cfg.mem_blocks b).mpr hb, hbit⟩
  case above =>
    rw [TxNode.getLsbD_agg, List.any_eq_false]
    intro b hb
    have := hend b ((t.cfg.mem_blocks b).mp hb)
    rw [getLsbD_shifted_outside hsound b (.inr (by omega))]
    exact nofun

end Sys2Proof
end

section
/-! Proofs: the FEED of every class of input byte, and POLL (43_framer.md). -/

namespace Sys2Proof

open Machine

/-! ### POLL (43_framer.md section 1) -/

theorem calm_control_eq {c : Control} (h : c.Calm) : c = { c with fault := none, inCs := false } := by
  obtain ⟨hfault, hin⟩ := h
  cases c
  cases hfault
  cases hin
  rfl

theorem poll_feeds {s : State} (hready : s.tx.Ready) (hsound : s.tx.Sound) :
    s.tx.clearSlot.FeedFrame (s.tx.clearSlot.feed (decodeByte s.tx.cfg.policy s.tx.slotData)) :=
  TxNode.feed_frame _ hready.calm hready.wellFormed.k_pos hsound.written

/-- Settles O23: POLL's FEED runs through on a ready, sound transmitter. -/
theorem pollFeedsTheSlotByte : Obligations.PollFeedsTheSlotByte := by
  intro s
  refine ⟨fun hfull hfault => exec_poll_eq_exec hfault hfull, exec_poll_waits, fun hfull hready hsound => ?completes⟩
  case completes =>
    have hframe := poll_feeds hready hsound
    have hcalm := calm_control_eq ⟨hframe.fault.trans hready.noFault, hframe.inCs.trans hready.outside⟩
    exact ⟨_, exec_poll hready.noFault hfull, hframe.slotFull, hcalm, hframe.ie, rfl⟩

/-! ### Terminators, the other policy, ACKBATCH (43_framer.md sections 1 to 3 and 6) -/

theorem exec_hexTerm {s : State} (h : s.tx.ctl.fault = none) (hp : s.tx.cfg.policy = .hexblock) (e : Terminator) :
    exec (.hexTerm e) s = .next { s with tx := s.tx.feedHexTerm } := exec_toInstr (.hexTerm e) s h hp

/-- Settles O25: a terminator's FEED sets BATCH, and under HEXBLOCK the fill as TERM_RESETS_FILL says. -/
theorem terminatorsOnlySetBatch : Obligations.TerminatorsOnlySetBatch := by
  intro s e hfault
  refine ⟨fun hp => exec_toInstr (.nibTerm e) s hfault hp, fun hp hkeep => ?keep, fun hp hreset => ?reset⟩
  case keep =>
    rw [exec_hexTerm hfault hp, TxNode.feedHexTerm, hkeep]
    rfl
  case reset =>
    rw [exec_hexTerm hfault hp, TxNode.feedHexTerm, hreset]
    rfl

theorem feedUnder_refused {p : Policy} (f : TxNode → TxNode) {s : State} (h : s.tx.cfg.policy ≠ p) :
    s.feedUnder p f = .refused (.otherPolicy p) := by
  rw [State.feedUnder, if_neg h]

/-- Settles O29: the meaning of every class asks for its policy first. -/
theorem inputClassNeedsItsPolicy : Obligations.InputClassNeedsItsPolicy := by
  intro s x hne
  cases x <;> exact feedUnder_refused _ hne

/-- Settles O31: on a transmitter that has not faulted the step is taken. -/
theorem ackBatchClearsBatch : Obligations.AckBatchClearsBatch := fun _ hfault =>
  congrArg Host.Outcome.next (State.onTx_runs TxNode.clearBatch hfault)

/-! ### Digits (43_framer.md section 3) -/

/-- The digit instructions are the FEED of their digit. -/
theorem exec_digit {s : State} {i : Instr} {x : BitVec 4} (hi : i.digit = some x) (hfault : s.tx.ctl.fault = none)
    (hp : s.tx.cfg.policy = .hexblock) : exec i s = .next { s with tx := s.tx.feedDigit x } := by
  cases i with
  | hexDig09 d => cases hi; exact exec_toInstr (.hexDig09 d) s hfault hp
  | hexDiguc d => cases hi; exact exec_toInstr (.hexDiguc d) s hfault hp
  | hexDiglc d => cases hi; exact exec_toInstr (.hexDiglc d) s hfault hp
  | _ => cases hi

/-- One REFRESH or none, as a list of requests. -/
theorem runAll_refreshIf {s : State} (h : s.tx.ctl.Calm) (c : Bool) :
    runAll (if c then [.refresh] else []) s = .next { s with tx := s.tx.refreshedIf c } := by
  cases c with
  | true => exact (runAll_singleton _ _).trans (exec_refresh_calm h)
  | false => rfl

theorem afterDigit_eq (c : CfgTx) :
    c.afterDigit = if [RefreshPolicy.perDigit].contains c.refreshPolicy then [.refresh] else [] := by
  rw [CfgTx.afterDigit]
  cases c.refreshPolicy <;> rfl

theorem afterBatch_eq (c : CfgTx) :
    c.afterBatch = if [RefreshPolicy.perBatch, .perDigit].contains c.refreshPolicy then [.refresh] else [] := by
  rw [CfgTx.afterBatch]
  cases c.refreshPolicy <;> rfl

theorem refreshedIf_v (c : Bool) (t : TxNode) : (t.refreshedIf c).v = t.v := by
  cases c <;> rfl

/-- Settles O26: storing the digit leaves a transmitter that may refresh once. -/
theorem digitOfAnOpenBatch : Obligations.DigitOfAnOpenBatch := by
  intro s i x hi hready hp hfill
  have hexec := exec_digit hi hready.noFault hp
  rw [TxNode.feedDigit_open x hready.calm (by omega)] at hexec
  have hk := hready.wellFormed.k_le
  refine ⟨?run, Fin.val_add_one_of_lt' (by omega), _, hexec, ?frame, refreshedIf_v _ _⟩
  case run => rw [hexec, afterDigit_eq]; exact (runAll_refreshIf (s := { s with tx := s.tx.openDigit x }) hready.calm _).symm
  case frame => exact (TxNode.refreshedIf_driven _ (s.tx.openDigit x)).state { s with tx := s.tx.openDigit x } rfl

/-- Settles O27: once the digit is stored every active entry is written, so APPLYBATCH runs through. -/
theorem digitThatCompletesABatch : Obligations.DigitThatCompletesABatch := by
  intro s i x hi hready hsound hp hfill stored
  have hwritten := s.tx.lastDigit_written x hfill hsound.written
  have hbatch : exec .applyBatch stored =
      .next { s with tx := TxNode.roundsDone s.tx.cfg.blocks (s.tx.lastDigit x) } := by
    rw [exec_applyBatch (s := stored) hready.noFault, TxNode.applyBatch_runs (t := stored.tx) hready.calm hwritten]
    rfl
  have hrounds := TxNode.roundsDone_driven s.tx.cfg.blocks (s.tx.lastDigit x)
  have hexec := exec_digit hi hready.noFault hp
  rw [TxNode.feedDigit_last x hready.calm hfill hsound.written] at hexec
  have htarget (b : BlockIdx) (hb : b.val < s.tx.cfg.k) :
      (syn (TxNode.roundsDone s.tx.cfg.blocks (s.tx.lastDigit x)).v[b] (s.tx.cfg.rAt b)).toNat =
        (if b = s.tx.fill then ⟨x, true⟩ else s.tx.buf[b] : BufEntry).digit.toNat % 2 ^ s.tx.cfg.rAt b := by
    rw [← TxNode.lastDigit_entry]
    exact toNat_syn_roundsDone (t := s.tx.lastDigit x) hready.wellFormed hb
  refine ⟨?run, hwritten, _, hexec, ?frame, ?filled, fun b hb => ?before⟩
  case run =>
    have hrefresh := runAll_refreshIf
      (s := { s with tx := TxNode.roundsDone s.tx.cfg.blocks (s.tx.lastDigit x) }) (hrounds.calm hready.calm)
    rw [hexec, runAll_cons_of_next _ hbatch, afterBatch_eq, hrefresh]
  case frame => exact (hrounds.trans (TxNode.refreshedIf_driven _ _)).state stored rfl
  case filled =>
    rw [refreshedIf_v, htarget _ (by omega), if_pos rfl]
  case before =>
    rw [refreshedIf_v, htarget b (by omega), if_neg fun h => by subst h; omega]

/-! ### How many REFRESHes a byte makes (43_framer.md R109) -/

theorem length_blocks {c : CfgTx} (h : c.WellFormed) : c.blocks.length = c.k := by
  have := h.k_le
  simp [CfgTx.blocks, this]

theorem refreshCount_feedDigit {t : TxNode} (d : BitVec 4) (hready : t.Ready) (hsound : t.Sound) (e : Fin 10) :
    refreshCount (t.feedDigit d).etrace = refreshCount t.etrace + refreshesOfByte t.cfg t.fill.val (.hexDig09 e) := by
  by_cases hfill : t.fill.val + 1 = t.cfg.k
  · rw [TxNode.feedDigit_last d hready.calm hfill hsound.written, TxNode.refreshedIf_refreshes,
      TxNode.roundsDone_refreshes, length_blocks hready.wellFormed]
    cases hp : t.cfg.refreshPolicy <;> simp [refreshesOfByte, hfill, hp]
  · rw [TxNode.feedDigit_open d hready.calm hfill, TxNode.refreshedIf_refreshes]
    cases hp : t.cfg.refreshPolicy <;> simp [refreshesOfByte, hfill, hp]

theorem refreshCount_setBatch (t : TxNode) : refreshCount t.setBatch.etrace = refreshCount t.etrace := by
  rw [TxNode.setBatch_etrace, refreshCount_append, refreshCount_batch, Nat.add_zero]

/-- The FEED of a class makes the REFRESHes of its row of the table. -/
theorem refreshCount_feed {t : TxNode} (x : InputClass) (hready : t.Ready) (hsound : t.Sound) :
    refreshCount (t.feed x).etrace = refreshCount t.etrace + refreshesOfByte t.cfg t.fill.val x := by
  cases x with
  | nibTerm e => exact refreshCount_setBatch t
  | nibData hi lo =>
    rw [TxNode.feed, TxNode.feedNibData_runs hi lo hready.calm hready.wellFormed.k_pos, refreshCount_nibble,
      refreshCount_nibble]
    rfl
  | hexTerm e => exact refreshCount_setBatch t
  | hexDig09 d => exact refreshCount_feedDigit _ hready hsound d
  | hexDiguc d => exact refreshCount_feedDigit _ hready hsound 0
  | hexDiglc d => exact refreshCount_feedDigit _ hready hsound 0
  | hexDiscard c => rfl

/-- Settles O30: the emptied slot leaves the transmitter ready and sound, and its FEED makes the count. -/
theorem refreshesPerInputByte : Obligations.RefreshesPerInputByte := by
  intro s hready hsound hfull
  refine ⟨_, exec_poll hready.noFault hfull, ?_⟩
  exact refreshCount_feed (t := s.tx.clearSlot) _ ⟨hready.wellFormed, hready.noFault, hready.outside⟩
    (sound_kept.clearSlot _ hready.noFault hsound)

/-! ### Inside an open section (60_exceptions.md sections 2 and 3) -/

theorem raise_fault_ne_none (t : TxNode) (f : Fault) : (t.raise f).ctl.fault ≠ none := Option.some_ne_none f

theorem applyBatch_nested {t : TxNode} (hk : 1 ≤ t.cfg.k) (hw : t.buf[0].written = true) (hin : t.ctl.inCs = true) :
    t.applyBatch = t.raise .nest := by
  have hblocks : t.cfg.blocks = 0 :: t.cfg.blocks.drop 1 := blocks_drop (b := 0) hk
  rw [TxNode.applyBatch, hblocks, TxNode.applyBlocks_nested (b := 0) hk hw hin]

theorem feedNibData_nested {t : TxNode} (hi lo : BitVec 4) (hk : 1 ≤ t.cfg.k) (hin : t.ctl.inCs = true) :
    t.feedNibData hi lo = t.raise .nest := by
  have hraise := raise_fault_ne_none t .nest
  rw [TxNode.feedNibData, TxNode.feedNibble, TxNode.apply_nested (b := 0) _ hk hin, TxNode.andThen_faulted _ hraise,
    TxNode.andThen_faulted _ hraise]

/-- A digit that does not complete a batch is stored; where it refreshes, the REFRESH faults. -/
theorem feedDigit_open_nested {t : TxNode} (d : BitVec 4) (hfill : t.fill.val + 1 ≠ t.cfg.k) (hin : t.ctl.inCs = true) :
    t.feedDigit d = if t.cfg.refreshPolicy = .perDigit then (t.openDigit d).raise .nest else t.openDigit d := by
  rw [TxNode.feedDigit, if_neg hfill, TxNode.refreshUnder, TxNode.refresh_nested (t := t.openDigit d) hin]
  simp

/-- A digit that completes a batch is stored; then the first APPLY faults. -/
theorem feedDigit_last_nested {t : TxNode} (d : BitVec 4) (hfill : t.fill.val + 1 = t.cfg.k)
    (hw : t.fill = 0 ∨ t.buf[0].written = true) (hin : t.ctl.inCs = true) :
    t.feedDigit d = (t.lastDigit d).raise .nest := by
  have hk : 1 ≤ t.cfg.k := by omega
  have hwritten : (t.lastDigit d).buf[(0 : BlockIdx)].written = true := by
    rw [TxNode.lastDigit_entry]
    split
    · rfl
    · next hne => exact hw.resolve_left (Ne.symm hne)
  rw [TxNode.feedDigit, if_pos hfill, applyBatch_nested (t := t.lastDigit d) hk hwritten hin,
    TxNode.andThen_faulted _ (raise_fault_ne_none _ _)]

/-- Settles O36: each of the requests faults at its first CSEnter. -/
theorem openSectionRaisesNest : Obligations.OpenSectionRaisesNest := by
  intro s
  refine ⟨fun hfault hin => ⟨?applyBatch, ?nibData, ?poll, ?digit⟩, ?rxCycle⟩
  case applyBatch =>
    intro hk hw
    rw [exec_applyBatch hfault, applyBatch_nested hk hw hin]
    rfl
  case nibData =>
    intro hi lo hp hk
    refine (exec_toInstr (.nibData hi lo) s hfault hp).trans ?_
    rw [TxNode.feed, feedNibData_nested hi lo hk hin]
    rfl
  case poll =>
    intro hp hk hfull hterm
    obtain ⟨hcr, hlf⟩ : s.tx.slotData ≠ 0x0D#8 ∧ s.tx.slotData ≠ 0x0A#8 := by simpa [isTerminator] using hterm
    rw [exec_poll hfault hfull, hp, decodeByte_nibble_data hcr hlf, TxNode.feed,
      feedNibData_nested (t := s.tx.clearSlot) _ _ hk hin]
    rfl
  case digit =>
    intro i x hi hp stored
    rw [exec_digit hi hfault hp]
    refine ⟨fun hfill => ?_, fun hfill hw => ?_⟩
    · rw [feedDigit_open_nested x (by omega) hin]
      rfl
    · rw [feedDigit_last_nested x hfill hw hin]
      rfl
  case rxCycle =>
    intro hfault hin hnone
    rw [exec, execRxCycle, onRx_runs _ hfault hnone, State.rxCycle_nested hin]
    rfl

end Sys2Proof
end

section
/-! Proofs: the sampler, the reporter and the round trip (45_sampler.md, 46_reporter.md). -/

namespace Sys2Proof

open Machine

/-! ### Port reads (45_sampler.md R126, log 10) -/

theorem portByte_a_listed {s : State} {x : PortPins} {rest : List PortPins} (hu : s.rx.cfg.usesPort .a = true)
    (h : s.env.portA = x :: rest) : s.portByte .a = portLevels x := by
  rw [State.portByte, if_pos hu, Env.portAnswer, Env.portPins, h, List.headD_cons]

theorem portByte_b_listed {s : State} {x : PortPins} {rest : List PortPins} (hu : s.rx.cfg.usesPort .b = true)
    (h : s.env.portB = x :: rest) : s.portByte .b = portLevels x := by
  rw [State.portByte, if_pos hu, Env.portAnswer, Env.portPins, h, List.headD_cons]

theorem readPort_a_listed {s : State} {x : PortPins} {rest : List PortPins} (hu : s.rx.cfg.usesPort .a = true)
    (h : s.env.portA = x :: rest) : (s.readPort .a).env = { s.env with portA := rest } := by
  rw [State.readPort, if_pos hu]
  simp [Env.afterRead, h]

theorem readPort_b_listed {s : State} {x : PortPins} {rest : List PortPins} (hu : s.rx.cfg.usesPort .b = true)
    (h : s.env.portB = x :: rest) : (s.readPort .b).env = { s.env with portB := rest } := by
  rw [State.readPort, if_pos hu]
  simp [Env.afterRead, h]

/-- A read of port A leaves the answers for port B. -/
theorem readPort_a_portB (s : State) : (s.readPort .a).env.portB = s.env.portB := by
  rw [State.readPort]
  split
  · rw [Env.afterRead]
    split <;> rfl
  · rfl

theorem getLsbD_portLevels_low (pins : PortPins) (q : Fin 8) : (portLevels pins).getLsbD q.val = decide (pins[q] ≠ .low) := by
  rw [getLsbD_portLevels, pinReads_eq]

/-- Settles O41: a listed answer is used up, and its pins read as they are driven or float. -/
theorem portReadsTakeListedAnswers : Obligations.PortReadsTakeListedAnswers := by
  intro s x rest
  refine ⟨fun hu h => ⟨fun q => ?a, readPort_a_listed hu h⟩, fun hu h => ⟨fun q => ?b, readPort_b_listed hu h⟩,
    fun p hu => ?unused⟩
  case a => rw [portByte_a_listed hu h, getLsbD_portLevels_low]
  case b => rw [portByte_b_listed hu h, getLsbD_portLevels_low]
  case unused => rw [State.readPort, hu, if_neg nofun]

/-! ### SAMPLE (45_sampler.md R126, R128) -/

/-- The vector that a SAMPLE observes. -/
def observedNow (s : State) : Word := observe s.rx.cfg (s.portByte .a) ((s.readPort .a).portByte .b)

theorem pol_eq_xor (p : Polarity) (x : Bool) : pol p x = (x ^^ decide (p = .activeLow)) := by
  cases p <;> simp [pol]

/-- Settles O40: the observed vector, bit by bit, is what SAMPLE stores. -/
theorem sampleNextState : Obligations.SampleNextState := by
  intro s hfault hnone
  refine ⟨fun hin => ?nested, fun hout hwf => ⟨observedNow s, fun k => ?bits, exec_sample ⟨hwf, hfault, hout, hnone⟩⟩⟩
  case nested =>
    rw [exec, execSample, onRx_runs _ hfault hnone, State.sample_nested hin]
    rfl
  case bits =>
    rw [observedNow, getLsbD_observe _ _ _ _ (hwf.nRx_le.trans (by decide))]
    cases hk : s.rx.cfg.pinOf k with
    | none => rw [observedBit_unmapped hk]
    | some pin =>
      obtain ⟨port, q⟩ := pin
      cases port <;> simp only [observedBit, hk, pol_eq_xor]

/-- The level at the pin of a bit, given the pins of the two ports. -/
def pinLevel (a b : PortPins) (q : PinRef) : PinLevel := match q.port with | .a => a[q.pin] | .b => b[q.pin]

/-- A mapped bit of the observed vector is what its pin reads, when both ports have their answers listed. -/
theorem getLsbD_observedNow {s : State} {a b : PortPins} {restA restB : List PortPins} (hwf : s.rx.cfg.WellFormed)
    (ha : s.env.portA = a :: restA) (hb : s.env.portB = b :: restB) {k : Nat} {q : PinRef} (hk : s.rx.cfg.pinOf k = some q) :
    (observedNow s).getLsbD k = pol s.rx.cfg.polRx (pinReads (pinLevel a b q)) := by
  have hused := CfgRx.usesPort_of_pinOf hk
  have hcfg : (s.readPort .a).rx.cfg = s.rx.cfg := by rw [State.readPort_rx]
  rw [observedNow, getLsbD_observe _ _ _ _ (hwf.nRx_le.trans (by decide)), decide_eq_true (hwf.pinOf_lt hk), Bool.true_and]
  obtain ⟨port, pin⟩ := q
  cases port with
  | a => simp only [observedBit, hk, pinLevel, portByte_a_listed hused ha, getLsbD_portLevels]
  | b =>
    have hbyte : (s.readPort .a).portByte .b = portLevels b :=
      portByte_b_listed (hcfg ▸ hused) ((readPort_a_portB s).trans hb)
    simp only [observedBit, hk, pinLevel, hbyte, getLsbD_portLevels]

theorem activeHigh_reads (l : PinLevel) : pol .activeHigh (pinReads l) = decide (l = .high ∨ l = .floating) := by
  cases l <;> rfl

theorem activeLow_reads (l : PinLevel) : pol .activeLow (pinReads l) = decide (l = .low) := by
  cases l <;> rfl

/-- Settles O42: a pin reads 0 exactly when it is low, and ACTIVE_LOW complements it. -/
theorem floatingPinReadsAsHigh : Obligations.FloatingPinReadsAsHigh := by
  intro s a b restA restB hready ha hb
  refine ⟨_, exec_sample hready, fun k q hk => ?_⟩
  have hbit := getLsbD_observedNow hready.wellFormed ha hb hk
  exact ⟨fun hpol => (hpol ▸ hbit).trans (activeHigh_reads _), fun hpol => (hpol ▸ hbit).trans (activeLow_reads _)⟩

/-! ### REPORT (46_reporter.md R132, R135) -/

theorem exec_report {s : State} (hf : s.rx.ctl.fault = none) (hs : s.rx.sending = []) : exec .report s = .next s.report := by
  rw [exec, execReport, onRx_runs _ hf hs]

theorem hexchar_eq (s : Byte) : hexchar s = BitVec.ofNat 8 (if s.toNat ≤ 9 then 0x30 + s.toNat else 0x37 + s.toNat) := by
  rw [hexchar]
  split <;> bv_omega

/-- Settles O44: the frame is empty for syndrome 0, and else its three characters. -/
theorem reportNextState : Obligations.ReportNextState := by
  intro s hfault hnone
  rw [exec_report hfault hnone]
  refine ⟨fun hv => ?unwritten, fun hv hzero => ?nothing, fun hv hne => ?sends⟩
  case unwritten => rw [State.report_unwritten hv]; rfl
  case nothing =>
    have hframe : reportFrame s.rx.syndrome = [] := if_pos hzero
    rw [State.report_runs hv, hframe, List.length_nil, List.take_nil, List.drop_nil, List.append_nil, ← hnone]
    rfl
  case sends =>
    intro x frame
    have hframe : reportFrame s.rx.syndrome = frame := by
      rw [reportFrame, if_neg (show s.rx.syndrome ≠ 0 from hne), hexchar_eq]
      rfl
    rw [State.report_runs hv, hframe]
    rfl

/-- A report to a host that has reported no transmit-ready is held whole. -/
theorem report_held {s : State} (hv : s.rx.sampledValid = true) (hne : s.rx.syndrome ≠ 0) (hh : s.hostOut = 0) :
    s.report = { s with rx := { s.rx with sending := [hexchar s.rx.syndrome, 0x0D#8, 0x0A#8] } } := by
  rw [State.report_runs hv, reportFrame, if_neg hne]
  simp [hh, charCr, charLf]

/-- Settles O45: each turn of HOST_OUT sends one byte of the held frame. -/
theorem heldReportIsFinishedByTransmitReady : Obligations.HeldReportIsFinishedByTransmitReady := by
  intro s
  refine ⟨fun c cs rest hf hs hh ht => State.step_held s rest c cs ht hf hs hh, fun i hs hi => State.exec_held i hs hi,
    fun hf hnone hv hne hh => ⟨?held, ?turns⟩⟩
  case held => rw [exec_report hf hnone, report_held hv hne hh]
  case turns =>
    refine ⟨_, _, _, State.step_held _ _ _ _ rfl hf rfl hh, rfl, State.step_held _ _ _ _ rfl hf rfl hh, ?_,
      State.step_held _ _ _ _ rfl hf rfl hh, ?_, hh⟩
    · simp
    · simp [hnone]

/-! ### RXCYCLE (46_reporter.md R136) -/

/-- RXCYCLE on a ready receiver: the sample, and the report of its syndrome as far as HOST_OUT is ready. -/
theorem exec_rxCycle {s : State} (h : s.rx.Ready) :
    exec .rxCycle s = .next (({ s with
      env := ((s.readPort .a).readPort .b).env, rx := s.rx.sampledAs (observedNow s) } : State).report) := by
  rw [exec, execRxCycle, onRx_runs _ h.noFault h.notHeld, State.rxCycle_runs ⟨h.noFault, h.outside⟩,
    State.sample_runs ⟨h.noFault, h.outside⟩]
  rfl

/-- Settles O46: after SAMPLE the receiver is neither faulted nor held, so REPORT runs on what was stored. -/
theorem receiverCycleIsSampleThenReport : Obligations.ReceiverCycleIsSampleThenReport := by
  intro s hready
  have hcycle := exec_rxCycle hready
  have hreport := exec_report
    (s := { s with env := ((s.readPort .a).readPort .b).env, rx := s.rx.sampledAs (observedNow s) })
    hready.noFault hready.notHeld
  refine ⟨?run, _, hcycle, ?frame, ?sent⟩
  case run =>
    rw [runAll_cons_of_next _ (exec_sample hready), runAll_singleton]
    exact hcycle.trans hreport.symm
  all_goals rw [State.report_runs rfl]
  case frame => rfl
  case sent =>
    simp only [List.append_assoc, List.take_append_drop]
    rfl

/-! ### The round trip (46_reporter.md section 2) -/

/-- With the clock low before a REFRESH, every output shows its bit of the vector. -/
theorem getLsbD_refreshed_out {t : TxNode} (hwf : t.cfg.WellFormed) (hclk : t.clkL = false) {p : Nat}
    (hp : p < t.cfg.totalBits) : t.refreshed.out.getLsbD p = pol t.cfg.drvPol (t.agg.getLsbD p) := by
  calc t.chainRefreshed.getLsbD p
      = (decide (p < t.cfg.totalBits) && _) := getLsbD_chainRefreshed hwf p
    _ = pol t.cfg.drvPol (t.agg.getLsbD p) := by rw [decide_eq_true hp, if_pos (.inr hclk), Bool.true_and]

theorem agg_one_block {t : TxNode} (h : t.cfg.k = 1) : t.agg = t.v[(0 : BlockIdx)] := by
  rw [TxNode.agg, CfgTx.blocks, h]
  simp [CfgTx.off]

/-- So a transmitter with one block shows the block itself. -/
theorem getLsbD_refreshed_out_one_block {t : TxNode} (hwf : t.cfg.WellFormed) (hclk : t.clkL = false) (hk : t.cfg.k = 1)
    {p : Nat} (hp : p < t.cfg.totalBits) :
    t.refreshed.out.getLsbD p = pol t.cfg.drvPol (t.refreshed.v[(0 : BlockIdx)].getLsbD p) := by
  rw [getLsbD_refreshed_out hwf hclk hp, agg_one_block hk]
  rfl

theorem pol_pol (p : Polarity) (x : Bool) : pol p (pol p x) = x := by
  cases p <;> simp [pol]

theorem pinReads_driven (x : Byte) (q : Fin 8) : pinReads (drivenPins x)[q] = x.getLsbD q.val := by
  rw [← getLsbD_portLevels, portLevels_driven]

/-- A receiver whose fifteen pins the outputs drive, with the transmitter's polarity, samples what the outputs show. -/
theorem observedNow_of_driven {s : State} {restA restB : List PortPins} {out v : Word} (hwf : s.rx.cfg.WellFormed)
    (hr : s.rx.cfg.rRx = 4) (hmapA : ∀ k : Fin 8, s.rx.cfg.pinOf k.val = some ⟨.a, k⟩)
    (hmapB : ∀ k : Fin 7, s.rx.cfg.pinOf (8 + k.val) = some ⟨.b, k.castSucc⟩)
    (ha : s.env.portA = drivenPins (out.extractLsb' 0 8) :: restA)
    (hb : s.env.portB = drivenPins (out.extractLsb' 8 8) :: restB)
    (hout : ∀ p, p < 15 → out.getLsbD p = pol s.rx.cfg.polRx (v.getLsbD p)) (hv : v.toNat < 2 ^ 15) : observedNow s = v := by
  apply BitVec.eq_of_getLsbD_eq
  intro k _
  by_cases hk : k < 15
  · have hbit : (observedNow s).getLsbD k = pol s.rx.cfg.polRx (out.getLsbD k) := by
      by_cases h8 : k < 8
      · rw [getLsbD_observedNow hwf ha hb (hmapA ⟨k, h8⟩), pinLevel, pinReads_driven, BitVec.getLsbD_extractLsb']
        simp [h8]
      · obtain ⟨j, rfl⟩ := Nat.exists_eq_add_of_le (Nat.le_of_not_lt h8)
        rw [getLsbD_observedNow hwf ha hb (hmapB ⟨j, by omega⟩), pinLevel, pinReads_driven, BitVec.getLsbD_extractLsb']
        simp [show j < 8 by omega]
    rw [hbit, hout k hk, pol_pol]
  · have hn : s.rx.cfg.nRx = 15 := by rw [CfgRx.nRx, hr]; rfl
    rw [observedNow, getLsbD_observe _ _ _ _ (by omega), hn, decide_eq_false hk, Bool.false_and]
    exact ((toNat_lt_iff_getLsbD v).mp hv k (by omega)).symm

theorem length_reportFrame_le (s : Byte) : (reportFrame s).length ≤ 3 := by
  rw [reportFrame]
  split <;> simp

/-- Its cycle then reports the syndrome of the vector shown, when HOST_OUT is ready for a whole frame. -/
theorem exec_rxCycle_of_driven {s : State} {restA restB : List PortPins} {out v : Word} (hrx : s.rx.Ready)
    (hr : s.rx.cfg.rRx = 4) (hmapA : ∀ k : Fin 8, s.rx.cfg.pinOf k.val = some ⟨.a, k⟩)
    (hmapB : ∀ k : Fin 7, s.rx.cfg.pinOf (8 + k.val) = some ⟨.b, k.castSucc⟩)
    (ha : s.env.portA = drivenPins (out.extractLsb' 0 8) :: restA)
    (hb : s.env.portB = drivenPins (out.extractLsb' 8 8) :: restB)
    (hout : ∀ p, p < 15 → out.getLsbD p = pol s.rx.cfg.polRx (v.getLsbD p)) (hv : v.toNat < 2 ^ 15)
    (hhost : 3 ≤ s.hostOut) :
    ∃ u, exec .rxCycle s = .next u ∧ u.rx.sampled = v ∧ u.rx.txout = s.rx.txout ++ reportFrame (syn v 4) := by
  refine ⟨_, exec_rxCycle hrx, ?_⟩
  rw [State.report_runs rfl, observedNow_of_driven hrx.wellFormed hr hmapA hmapB ha hb hout hv]
  have hframe : reportFrame (syn v s.rx.cfg.rRx) = reportFrame (syn v 4) := by rw [hr]
  refine ⟨rfl, ?_⟩
  change s.rx.txout ++ (reportFrame (syn v s.rx.cfg.rRx)).take s.hostOut = _
  rw [hframe, List.take_of_length_le ((length_reportFrame_le _).trans hhost)]

/-- A nibble fed with the clock low leaves its syndrome in V[0], and the fifteen outputs show V[0]. -/
theorem nibble_shown {t : TxNode} (hwf : t.cfg.WellFormed) (hp : t.cfg.policy = .nibble) (htotal : t.cfg.totalBits = 15)
    (hclk : t.clkL = false) (x : BitVec 4) :
    (∀ p, p < 15 → (t.applied 0 (zext8 x)).refreshed.out.getLsbD p =
      pol t.cfg.drvPol ((t.applied 0 (zext8 x)).refreshed.v[(0 : BlockIdx)].getLsbD p)) ∧
    (t.applied 0 (zext8 x)).refreshed.v[(0 : BlockIdx)].toNat < 2 ^ 15 ∧
    syn (t.applied 0 (zext8 x)).refreshed.v[(0 : BlockIdx)] 4 = x.setWidth 8 := by
  obtain ⟨hk, hr⟩ := hwf.nibble hp
  have hwires : t.cfg.nAt 0 = 15 := by rw [CfgTx.nAt, hr]; rfl
  refine ⟨fun p h15 => ?shown, ?fits, syn_nibble hr x⟩
  case shown => exact getLsbD_refreshed_out_one_block (t := t.applied 0 (zext8 x)) hwf hclk hk (htotal ▸ h15)
  case fits =>
    change (t.applied 0 (zext8 x)).v[(0 : BlockIdx)].toNat < 2 ^ 15
    rw [applied_v_same, ← hwires]
    exact t.flipped_lt 0 (zext8 x)

/-- Settles O47: the first REFRESH leaves the clock low, so the second shows the low nibble's vector. -/
theorem roundTripReportsTheLowNibble : Obligations.RoundTripReportsTheLowNibble := by
  intro s hi lo htx hp htotal hrx hr hpol hmapA hmapB hhost
  have hclk := clkL_refreshed (t := s.tx.applied 0 (zext8 hi)) htx.wellFormed
  obtain ⟨hshown, hfits, hsyn⟩ :=
    nibble_shown (t := (s.tx.applied 0 (zext8 hi)).refreshed) htx.wellFormed hp htotal hclk lo
  refine ⟨_, exec_nibData htx hp hi lo, fun restA restB => ?_⟩
  rw [← hsyn]
  exact exec_rxCycle_of_driven ⟨hrx.wellFormed, hrx.noFault, hrx.outside, hrx.notHeld⟩ hr hmapA hmapB rfl rfl
    (fun p h15 => (hshown p h15).trans (congrArg (pol · _) hpol.symm)) hfits hhost

end Sys2Proof
end
